-- ==== Sys2Proof/Word.lean ====
section
/-! DEFINITION. The word types of the sequencer: a byte and a 32-bit register word (spec/00_scope.md R6, spec/10_state.md R25). -/

namespace Sys2Proof

/-- Eight bits; bit 0 is the least significant (R6). -/
abbrev Byte := BitVec 8

/-- A host register, or the `ADDR` or `LEN` operand of a request (R27, R28). -/
abbrev Word := BitVec 32

end Sys2Proof
end

