-- ==== Sys2Proof/Config.lean ====
section
/-! DEFINITION. What an implementation fixes: the constants of spec/00_scope.md R4, in one place as
93_implementation_defined.md U9 asks, the open parameters of R5, and the draws, the values nobody may choose.
The open parameters and the draws are opaque: no proof can see what they are. -/

namespace Sys2Proof

/-- The two serial memories (R50). -/
inductive Dev where
  | ee
  | nor
  deriving DecidableEq, Repr

namespace Config

/-- `EE_SIZE` (R4). -/
def eeSize : Nat := 512
/-- `EE_PAGE` (R4, 41_chunker.md R154). -/
def eePage : Nat := 16
/-- `NOR_SIZE` (R4). -/
def norSize : Nat := 16777216
/-- `NOR_PAGE` (R4). -/
def norPage : Nat := 256
/-- `NOR_SECTOR` (R4). -/
def norSector : Nat := 4096

/-- `OPC_READ` (R4, 30_encoding.md R100). -/
def opcRead : Byte := 0x03
/-- `OPC_PROGRAM` (R4, R100). -/
def opcProgram : Byte := 0x02
/-- `OPC_WREN` (R4, R100). -/
def opcWren : Byte := 0x06
/-- `OPC_RDSR` (R4, R100). -/
def opcRdsr : Byte := 0x05
/-- `OPC_SE`, NOR flash only (R4, R100). -/
def opcSe : Byte := 0x20
/-- `SENTINEL`: what a `readByte` of an out-of-range address returns (R4). -/
def sentinel : Byte := 0xFF

/-- What a byte of storage or of the host buffer that nothing has written reads as: the erased value.
DESIGN CHOICE (unsafe, log entry 2): the spec gives the devices no initial contents (20_memory.md R59). -/
def unlistedByte : Byte := 0xFF

/-- `POLL_DELAY_US`, OPEN (R5): the argument of the poll loop's delay. -/
opaque pollDelayUs : Nat

/-- `DUMMY_OUT`, OPEN (R5): the byte shifted out while a data or status byte is shifted in. -/
opaque dummyOut : Byte

/-- `POLL_LIMIT` less one, OPEN (R5): held less one because `N >= 1`. -/
opaque pollLimitLessOne : Option Nat

/-- `POLL_LIMIT` (R5): `none`, or `some N` with `N >= 1`. -/
def pollLimit : Option Nat := pollLimitLessOne.map (· + 1)

/-- A draw (glossary of spec/00_scope.md): any value, fresh each time; the argument counts the draws made. -/
opaque draw : Nat → Nat

end Config

/-- `SIZE(d)` (R4). -/
def Dev.size : Dev → Nat
  | .ee => Config.eeSize
  | .nor => Config.norSize

/-- `PAGE(d)` (R4). -/
def Dev.page : Dev → Nat
  | .ee => Config.eePage
  | .nor => Config.norPage

/-- `ADDR_BYTES(d)` (R4). -/
def Dev.addrBytes : Dev → Nat
  | .ee => 2
  | .nor => 3

end Sys2Proof
end

