-- ==== Sys2Proof/Machine/State.lean ====
section
/-! DEFINITION. The state of the machine as plain data: the sequencer (spec/10_state.md), the two devices behind the
transports (spec/20_memory.md R59), the host buffer, the trace, and the moves of the host still to come
(spec/70_reset_and_hazards.md R247). Every field names the rule it comes from; INVENTORY.md lists them. -/

namespace Sys2Proof.Machine

/-- `phase` (R21). -/
inductive Phase where
  | idle
  | writeEnabled
  | commandIssued
  | polling
  deriving DecidableEq, Repr

/-- How an operation ended: the codes of `STATUS.OUTCOME` (R201). -/
inductive OpOutcome where
  | ok
  | outOfRange
  | nullBuffer
  | invalidBitIndex
  | requiresErase
  | deviceNotReady
  | illegalRequest
  | unsupported
  deriving DecidableEq, Repr

/-- One entry of the trace (R10). The first three are the transport operations of R120. The last two are marks of the model's
own and no transport operation (log entry 17). -/
inductive Event where
  /-- `SEL(d,b)`: `T[d].setExclusiveAccess(b)`. -/
  | sel (d : Dev) (b : Bool)
  /-- `X(d, out -> inp)`: `T[d].exchangeByte(out)`; `none` is the `_` of a returned byte the sequencer ignores. -/
  | x (d : Dev) (out : Byte) (inp : Option Byte)
  /-- `DLY(d, us)`: `T[d].delay(us)`. -/
  | dly (d : Dev) (us : Nat)
  /-- A transition of `phase` (R129). -/
  | ph (p : Phase)
  /-- The reset was asserted (R230). -/
  | rst
  deriving DecidableEq, Repr

/-- Why the model of a device holds a fault: the cases of R68, where the spec defines nothing of its storage any more. -/
inductive Misuse where
  /-- (a) a program or erase frame while the write-enable latch is clear. -/
  | noWriteEnable
  /-- (b) a frame other than read-status while the device is busy. -/
  | whileBusy
  /-- (c) a program frame that crosses a page boundary. -/
  | pageCrossed
  /-- (d) an opcode outside the table, or a length the table does not give. -/
  | notAFrame
  /-- (e) a frame cut short. -/
  | cutShort
  /-- A program frame at an address the device does not have (R51): no storage is defined for it. No request sends one. -/
  | noSuchAddress
  deriving DecidableEq, Repr

/-- One device (R59). -/
structure Device where
  /-- `Mem[d]`, the cells that do not hold the erased value. -/
  mem       : List Host.Cell := []
  /-- `dbusy[d]`. -/
  dbusy     : Bool := false
  /-- What is left of the draw `B` of R66: status reads that will still return busy; `none` is for ever. -/
  busyReads : Option Nat := some 0
  /-- `wel[d]`, the write-enable latch. -/
  wel       : Bool := false
  /-- The internal address counter, alive within one frame. -/
  counter   : Nat := 0
  /-- The bytes received since exclusive access was asserted. -/
  rx        : List Byte := []
  /-- The fault of the device model (R68), if one was recorded. -/
  lost      : Option Misuse := none
  deriving DecidableEq, Repr

/-- The request latch (R22). -/
structure Latch where
  op   : BitVec 4 := 0
  dev  : Dev := .ee
  bufv : Bool := false
  val  : Byte := 0
  bitn : Byte := 0
  addr : Word := 0
  len  : Word := 0
  deriving DecidableEq, Repr

/-- The open parameters of R5. No step changes them (R37). -/
structure Params where
  /-- `POLL_DELAY_US`. -/
  pollDelayUs : Nat
  /-- `DUMMY_OUT`. -/
  dummyOut    : Byte
  /-- `POLL_LIMIT`. -/
  pollLimit   : Option Nat
  deriving DecidableEq, Repr

/-- The five host registers (R25). -/
inductive HostReg where
  | reqCtrl
  | reqAddr
  | reqLen
  | go
  | status
  deriving DecidableEq, Repr

/-- A move of the host on a register: the moves it has at any time, an operation in progress or not (R247). -/
inductive RegMove where
  | write (r : HostReg) (v : Word)
  | read (r : HostReg)
  deriving DecidableEq, Repr

/-- What can happen to the machine from outside: the host's and the platform's moves (R247) and a device's own (R66). -/
inductive HostMove where
  /-- The host writes a register. -/
  | writeReg (r : HostReg) (v : Word)
  /-- The host reads a register. -/
  | readReg (r : HostReg)
  /-- A move on a register that lands inside an operation (R247, log entry 20): once `after` more values of `STATUS` have gone by
  since the move before it, while the value then standing stands. -/
  | during (after : Nat) (m : RegMove)
  /-- The host stores a byte of the buffer (R31). -/
  | writeBuf (i : Nat) (v : Byte)
  /-- The host reads a byte of the buffer. -/
  | readBuf (i : Nat)
  /-- The host reads `STATUS` until `BUSY` is 0 (R133). -/
  | awaitIdle
  /-- The platform asserts reset once `after` more transport operations were performed; 0 is at once (R230, R231). -/
  | reset (after : Nat)
  /-- Device `d` finishes its program or erase and clears its busy flag by itself (R66, R232). -/
  | deviceReady (d : Dev)
  deriving DecidableEq, Repr

/-- Why the machine stops with a fault. -/
inductive Fault where
  /-- Raised by the wire frame `EE.PROGRAM`, run by itself, when its 16-bit address is outside the EEPROM's 512 bytes
  (R51): no such storage exists. No host request sends such a frame. Safe. -/
  | noSuchAddress (d : Dev) (a : Nat)
  deriving DecidableEq, Repr

/-- Why the machine gives no meaning. -/
inductive Refusal where
  /-- Answered only by `exec`, for an instruction whose meaning is not written yet. Safe. -/
  | notModelled (mnemonic : String)
  /-- Answered by the wire frames `EE.READ` and `NOR.READ`, run by themselves, when they ask for a byte at or past the end of
  the device (R60; 93_implementation_defined.md U17 says to refuse). No host request sends such a frame. Safe. -/
  | readPastEnd (d : Dev) (a n : Nat)
  /-- Answered by the step when the bytes in the frame slot are no frame of the table (R101). Safe. -/
  | notAFrame
  /-- Answered by a host move on the buffer while `BUSY` = 1: the host has no such move (R241, R247; U13 says to refuse).
  Safe. -/
  | bufferNotOwned
  deriving DecidableEq, Repr

structure State where
  /-- `REQ_CTRL` (R26). -/
  reqCtrl  : Word
  /-- `REQ_ADDR` (R27). -/
  reqAddr  : Word
  /-- `REQ_LEN` (R28). -/
  reqLen   : Word
  /-- `GO` (R29): a 1 was written and the request is about to be accepted. Reads 0. -/
  go       : Bool
  /-- `STATUS.BUSY` (R30). -/
  busy     : Bool
  /-- `phase`, read as `STATUS.PHASE` (R21, R30). -/
  phase    : Phase
  /-- `STATUS.OUTCOME` (R30, R201). -/
  outcome  : OpOutcome
  /-- `STATUS.RDATA` (R30). -/
  rdata    : Byte
  /-- The request latch (R22). -/
  latch    : Latch
  /-- `cur` (R23). -/
  cur      : Word
  /-- `rem` (R23). -/
  rem      : Word
  /-- `idx` (R23). -/
  idx      : Word
  /-- `clen` (R23). -/
  clen     : BitVec 9
  /-- `tmp` (R23). -/
  tmp      : Byte
  /-- `st` (R23). -/
  st       : Byte
  /-- `pollcnt` (R23, R214). -/
  pollcnt  : Nat
  /-- `cs[EE]` (R24). -/
  csEe     : Bool
  /-- `cs[NOR]` (R24). -/
  csNor    : Bool
  /-- The EEPROM (R59). -/
  ee       : Device
  /-- The NOR flash (R59). -/
  nor      : Device
  /-- `Buf` (R31): the bytes that do not hold the erased value. -/
  buf      : List Host.Cell
  /-- The trace, oldest event first (R10). -/
  trace    : List Event
  /-- The frame that goes on the wire next, with its device: the position of a waiting poll loop (R32, log entry 8). -/
  frame    : Option (Dev × List Byte)
  /-- The open parameters (R5, log entry 5). -/
  params   : Params
  /-- The model's own: the moves of the host still to come (R247, log entry 7). -/
  inbox    : List HostMove
  /-- The model's own: what the host's last read returned (log entry 15). -/
  hostData : Word
  /-- The model's own: the transport operations left before the platform asserts reset (R231, log entry 11). -/
  fuse     : Option Nat
  /-- The model's own: the draws already fixed by the environment (log entry 4). -/
  tape     : List Nat
  /-- The model's own: how many draws were made (log entry 4). -/
  drawn    : Nat
  deriving DecidableEq, Repr

/-- The two releases of exclusive access that a reset performs, in this order (R35, R230), after the model's mark. -/
def resetEvents : List Event := [.rst, .sel .ee false, .sel .nor false]

/-- The machine right after reset (R35, R230). `phase`, `BUSY`, `OUTCOME`, `GO` and the two `cs` are the spec's values; the
registers R35 leaves unspecified are zero (DESIGN CHOICE, unsafe, log entry 3); the devices are not busy and hold nothing but the
erased value (DESIGN CHOICE, unsafe, log entries 2 and 10). -/
def State.reset : State where
  reqCtrl := 0
  reqAddr := 0
  reqLen := 0
  go := false
  busy := false
  phase := .idle
  outcome := .ok
  rdata := 0
  latch := {}
  cur := 0
  rem := 0
  idx := 0
  clen := 0
  tmp := 0
  st := 0
  pollcnt := 0
  csEe := false
  csNor := false
  ee := {}
  nor := {}
  buf := []
  trace := resetEvents
  frame := none
  params := { pollDelayUs := Config.pollDelayUs, dummyOut := Config.dummyOut, pollLimit := Config.pollLimit }
  inbox := []
  hostData := 0
  fuse := none
  tape := []
  drawn := 0

end Sys2Proof.Machine
end

