-- ==== Sys2Proof/Machine/Flags.lean ====
section
/-! DEFINITION. The flag-like state (spec/10_state.md R33) and the words the host reads: the busy bit of a status byte, the
codes of `PHASE` and `OUTCOME`, the `STATUS` word (R30) and the read value of every host register (R25, R29). -/

namespace Sys2Proof.Machine

/-- Bit 0 of a status byte: 1 is busy (R95, R127). Bits 7..1 are never inspected. -/
def busyBit (st : Byte) : Bool := st.getLsbD 0

/-- The encoding of `phase` (R21). -/
def Phase.code : Phase → BitVec 2
  | .idle => 0
  | .writeEnabled => 1
  | .commandIssued => 2
  | .polling => 3

/-- The outcome codes (R201). -/
def OpOutcome.code : OpOutcome → BitVec 4
  | .ok => 0
  | .outOfRange => 1
  | .nullBuffer => 2
  | .invalidBitIndex => 3
  | .requiresErase => 4
  | .deviceNotReady => 5
  | .illegalRequest => 6
  | .unsupported => 7

/-- The `STATUS` word (R30): reserved bits 31:16 and 3 read 0. -/
def statusWord (s : State) : Word :=
  0#16 ++ s.rdata ++ s.outcome.code ++ 0#1 ++ s.phase.code ++ BitVec.ofBool s.busy

/-- What the host reads from a register (R26 to R30): `GO` reads 0. -/
def readReg (s : State) : HostReg → Word
  | .reqCtrl => s.reqCtrl
  | .reqAddr => s.reqAddr
  | .reqLen => s.reqLen
  | .go => 0
  | .status => statusWord s

/-- The register numbers (R25). -/
def HostReg.number : HostReg → Nat
  | .reqCtrl => 0
  | .reqAddr => 1
  | .reqLen => 2
  | .go => 3
  | .status => 4

end Sys2Proof.Machine
end

