-- ==== Sys2Proof/Syntax.lean ====
section
/-! DEFINITION. The instructions: one constructor for each row of spec/opcode_table.json, thirteen host requests
(spec/30_encoding.md R102 to R104) and nine wire frames (R94 to R98). -/

namespace Sys2Proof

/-- The operand fields of a host request (R102). Every request carries all five; R104 says which ones an
operation uses, and a field it does not use changes nothing but the request latch. -/
structure Req where
  /-- `ADDR`, word W1. -/
  addr : Word := 0
  /-- `LEN`, word W2. -/
  len  : Word := 0
  /-- `VAL`, W0[15:8]. -/
  val  : Byte := 0
  /-- `BITN`, W0[23:16]. -/
  bitn : Byte := 0
  /-- `BUFV`, W0[5]: the buffer is present. -/
  bufv : Bool := false
  deriving DecidableEq, Repr

inductive Instr where
  /-- `EEPROM.readByte` (R160). -/
  | eeReadByte (r : Req)
  /-- `EEPROM.writeByte` (R161). -/
  | eeWriteByte (r : Req)
  /-- `EEPROM.readArray` (R162). -/
  | eeReadArray (r : Req)
  /-- `EEPROM.writeArray` (R163). -/
  | eeWriteArray (r : Req)
  /-- `EEPROM.setBit` (R164). -/
  | eeSetBit (r : Req)
  /-- `EEPROM.clearBit` (R165). -/
  | eeClearBit (r : Req)
  /-- `NOR.readByte` (R180). -/
  | norReadByte (r : Req)
  /-- `NOR.writeByte` (R182). -/
  | norWriteByte (r : Req)
  /-- `NOR.readArray` (R181). -/
  | norReadArray (r : Req)
  /-- `NOR.writeArray` (R183). -/
  | norWriteArray (r : Req)
  /-- `NOR.setBit` (R184). -/
  | norSetBit (r : Req)
  /-- `NOR.clearBit` (R185). -/
  | norClearBit (r : Req)
  /-- `NOR.eraseSector` (R186). -/
  | norEraseSector (r : Req)
  /-- Frame `EE.WREN` (R94). -/
  | eeWren
  /-- Frame `NOR.WREN` (R94). -/
  | norWren
  /-- Frame `EE.RDSR` (R95); `dummy` is shifted out while the status byte is shifted in. -/
  | eeRdsr (dummy : Byte)
  /-- Frame `NOR.RDSR` (R95). -/
  | norRdsr (dummy : Byte)
  /-- Frame `EE.READ` (R96): header, then one exchange for each byte of `outs`. -/
  | eeRead (a : BitVec 16) (outs : List Byte)
  /-- Frame `NOR.READ` (R96). -/
  | norRead (a : BitVec 24) (outs : List Byte)
  /-- Frame `EE.PROGRAM` (R97): header, then the data bytes. -/
  | eeProgram (a : BitVec 16) (data : List Byte)
  /-- Frame `NOR.PROGRAM` (R97). -/
  | norProgram (a : BitVec 24) (data : List Byte)
  /-- Frame `NOR.SE` (R98): `a` is the sector base. -/
  | norSe (a : BitVec 24)
  deriving DecidableEq, Repr

end Sys2Proof
end

