-- ==== Sys2Proof/WellFormed.lean ====
section
/-! DEFINITION. Which instructions are well formed: the operand ranges of spec/30_encoding.md R91 to R98.
Every host request is: any value may stand in its operands (R104; 10_state.md R27, R28). -/

namespace Sys2Proof

/-- A read frame stays inside the device (R124: `a < SIZE(d)`, `a + n <= SIZE(d)`). -/
def readFits (d : Dev) (a n : Nat) : Bool :=
  decide (a < d.size) && decide (a + n ≤ d.size)

/-- A program frame has at least one byte, starts inside the device and stays inside one page (R97, R125). -/
def programFits (d : Dev) (a k : Nat) : Bool :=
  decide (1 ≤ k) && decide (a < d.size) && decide (a % d.page + k ≤ d.page)

def Instr.wellFormed : Instr → Bool
  | .eeReadByte _ => true
  | .eeWriteByte _ => true
  | .eeReadArray _ => true
  | .eeWriteArray _ => true
  | .eeSetBit _ => true
  | .eeClearBit _ => true
  | .norReadByte _ => true
  | .norWriteByte _ => true
  | .norReadArray _ => true
  | .norWriteArray _ => true
  | .norSetBit _ => true
  | .norClearBit _ => true
  | .norEraseSector _ => true
  | .eeWren => true
  | .norWren => true
  | .eeRdsr _ => true
  | .norRdsr _ => true
  | .eeRead a outs => readFits .ee a.toNat outs.length
  | .norRead a outs => readFits .nor a.toNat outs.length
  | .eeProgram a data => programFits .ee a.toNat data.length
  | .norProgram a data => programFits .nor a.toNat data.length
  | .norSe a => decide (a.toNat % Config.norSector = 0)

end Sys2Proof
end

