-- ==== Sys2Proof/Decode.lean ====
section
/-! DEFINITION. Decoding and encoding, from spec/30_encoding.md: the host request descriptor (R102 to R106) and the wire
frames (R90 to R98). The decoder is total and rejects by name; the encoder stands after it. -/

namespace Sys2Proof

/-- What is decoded: the three words of a request, or the bytes of one frame on one device's transport. The device of a
frame is told by the transport that carries it, not by its bytes (R90, R100). -/
inductive Code where
  | request (w0 w1 w2 : Word)
  | frame (d : Dev) (bytes : List Byte)
  deriving DecidableEq, Repr

inductive DecodeError where
  /-- A reserved or illegal request descriptor (R105). -/
  | illegalRequest
  /-- A frame without an opcode byte. -/
  | emptyFrame
  /-- An opcode that is not in the table of R100 for this device. -/
  | unknownOpcode (c : Byte)
  /-- Fewer bytes than the frame's length in R91. -/
  | cutShort
  /-- More bytes than the frame's length in R91. -/
  | tooLong
  /-- A sector-erase frame whose address is not a sector base (R98). -/
  | notSectorBase
  deriving DecidableEq, Repr

/-- A wire frame as a device hears it (R94 to R98), the address as a number. -/
inductive Frame where
  | wren
  | rdsr (dummy : Byte)
  | read (a : Nat) (outs : List Byte)
  | program (a : Nat) (data : List Byte)
  | erase (a : Nat)
  deriving DecidableEq, Repr

/-! ### Host request descriptor (R102) -/

/-- W0[4:0], `DEV` and `OP` together: with the reserved fields this is what the mask of R106 keeps. -/
def selectorOf (w0 : Word) : BitVec 5 := w0.extractLsb' 0 5

/-- The reserved fields W0[7:6] and W0[31:24] are zero (R105). -/
def reservedClear (w0 : Word) : Bool :=
  decide (w0.extractLsb' 6 2 = 0#2) && decide (w0.extractLsb' 24 8 = 0#8)

/-- The operand fields of a request (R102). -/
def operandsOf (w0 w1 w2 : Word) : Req :=
  { addr := w1
    len := w2
    val := w0.extractLsb' 8 8
    bitn := w0.extractLsb' 16 8
    bufv := w0.getLsbD 5 }

/-- The operation codes of R103 with the device bit before them: `EEPROM` 1 to 6, `NOR` 17 to 23. -/
def decodeSelector (c : Nat) (r : Req) : Except DecodeError Instr :=
  match c with
  | 1 => .ok (.eeReadByte r)
  | 2 => .ok (.eeWriteByte r)
  | 3 => .ok (.eeReadArray r)
  | 4 => .ok (.eeWriteArray r)
  | 5 => .ok (.eeSetBit r)
  | 6 => .ok (.eeClearBit r)
  | 17 => .ok (.norReadByte r)
  | 18 => .ok (.norWriteByte r)
  | 19 => .ok (.norReadArray r)
  | 20 => .ok (.norWriteArray r)
  | 21 => .ok (.norSetBit r)
  | 22 => .ok (.norClearBit r)
  | 23 => .ok (.norEraseSector r)
  | _ => .error .illegalRequest

/-- Decoding a request (R103, R105, R106). -/
def decodeRequest (w0 w1 w2 : Word) : Except DecodeError Instr :=
  if reservedClear w0 then decodeSelector (selectorOf w0).toNat (operandsOf w0 w1 w2)
  else .error .illegalRequest

/-! ### Wire frames (R90 to R98) -/

/-- The address bytes after an opcode, most significant first: two for the EEPROM, three for NOR (R92, R93). -/
def takeAddr : Dev → List Byte → Option (Nat × List Byte)
  | .ee, hi :: lo :: tl => some (hi.toNat * 256 + lo.toNat, tl)
  | .nor, b2 :: b1 :: b0 :: tl => some (b2.toNat * 65536 + b1.toNat * 256 + b0.toNat, tl)
  | _, _ => none

/-- The frame that the bytes between an assertion and a release of exclusive access make (R91, R94 to R98, R100). -/
def parseFrame (d : Dev) (bytes : List Byte) : Except DecodeError Frame :=
  match bytes with
  | [] => .error .emptyFrame
  | c :: rest =>
    if c = Config.opcWren then
      match rest with
      | [] => .ok .wren
      | _ :: _ => .error .tooLong
    else if c = Config.opcRdsr then
      match rest with
      | [] => .error .cutShort
      | [x] => .ok (.rdsr x)
      | _ :: _ :: _ => .error .tooLong
    else if c = Config.opcRead then
      match takeAddr d rest with
      | none => .error .cutShort
      | some (a, outs) => .ok (.read a outs)
    else if c = Config.opcProgram then
      match takeAddr d rest with
      | none => .error .cutShort
      | some (_, []) => .error .cutShort
      | some (a, b :: data) => .ok (.program a (b :: data))
    else if c = Config.opcSe ∧ d = .nor then
      match takeAddr d rest with
      | none => .error .cutShort
      | some (a, []) => .ok (.erase a)
      | some (_, _ :: _) => .error .tooLong
    else .error (.unknownOpcode c)

/-- The row of the opcode table a frame is. The table's erase row has W[11:0] = 0 (R98). -/
def Frame.toInstr (d : Dev) (f : Frame) : Except DecodeError Instr :=
  match d, f with
  | .ee, .wren => .ok .eeWren
  | .nor, .wren => .ok .norWren
  | .ee, .rdsr x => .ok (.eeRdsr x)
  | .nor, .rdsr x => .ok (.norRdsr x)
  | .ee, .read a outs => .ok (.eeRead (BitVec.ofNat 16 a) outs)
  | .nor, .read a outs => .ok (.norRead (BitVec.ofNat 24 a) outs)
  | .ee, .program a data => .ok (.eeProgram (BitVec.ofNat 16 a) data)
  | .nor, .program a data => .ok (.norProgram (BitVec.ofNat 24 a) data)
  | .nor, .erase a => if a % Config.norSector = 0 then .ok (.norSe (BitVec.ofNat 24 a)) else .error .notSectorBase
  | .ee, .erase _ => .error (.unknownOpcode Config.opcSe)

/-- The decoder: total on any words and any bytes. -/
def decode : Code → Except DecodeError Instr
  | .request w0 w1 w2 => decodeRequest w0 w1 w2
  | .frame d bytes =>
    match parseFrame d bytes with
    | .ok f => f.toInstr d
    | .error e => .error e

/-! ### The encoder -/

/-- W0 of a request with `DEV` and `OP` in `sel` (R102). -/
def encodeW0 (sel : BitVec 5) (r : Req) : Word :=
  0#8 ++ r.bitn ++ r.val ++ 0#2 ++ BitVec.ofBool r.bufv ++ sel

def encodeRequest (sel : BitVec 5) (r : Req) : Code := .request (encodeW0 sel r) r.addr r.len

/-- Opcode and address bytes, cut from the address by slicing, most significant byte first (R92, R93, R99). -/
def headerBytes (d : Dev) (c : Byte) (a : Word) : List Byte :=
  match d with
  | .ee => [c, a.extractLsb' 8 8, a.extractLsb' 0 8]
  | .nor => [c, a.extractLsb' 16 8, a.extractLsb' 8 8, a.extractLsb' 0 8]

/-- The encoder, from the tables of R94 to R98, R102 and R103. -/
def encode : Instr → Code
  | .eeReadByte r => encodeRequest 1 r
  | .eeWriteByte r => encodeRequest 2 r
  | .eeReadArray r => encodeRequest 3 r
  | .eeWriteArray r => encodeRequest 4 r
  | .eeSetBit r => encodeRequest 5 r
  | .eeClearBit r => encodeRequest 6 r
  | .norReadByte r => encodeRequest 17 r
  | .norWriteByte r => encodeRequest 18 r
  | .norReadArray r => encodeRequest 19 r
  | .norWriteArray r => encodeRequest 20 r
  | .norSetBit r => encodeRequest 21 r
  | .norClearBit r => encodeRequest 22 r
  | .norEraseSector r => encodeRequest 23 r
  | .eeWren => .frame .ee [Config.opcWren]
  | .norWren => .frame .nor [Config.opcWren]
  | .eeRdsr x => .frame .ee [Config.opcRdsr, x]
  | .norRdsr x => .frame .nor [Config.opcRdsr, x]
  | .eeRead a outs => .frame .ee (headerBytes .ee Config.opcRead (a.setWidth 32) ++ outs)
  | .norRead a outs => .frame .nor (headerBytes .nor Config.opcRead (a.setWidth 32) ++ outs)
  | .eeProgram a data => .frame .ee (headerBytes .ee Config.opcProgram (a.setWidth 32) ++ data)
  | .norProgram a data => .frame .nor (headerBytes .nor Config.opcProgram (a.setWidth 32) ++ data)
  | .norSe a => .frame .nor (headerBytes .nor Config.opcSe (a.setWidth 32))

/-! ### Words as spec/opcode_table.json numbers them -/

/-- The bytes of a number of `n` bytes, the most significant first: the table writes a frame with its first byte on the left
and bit 0 at the right end (log entry 6). -/
def bytesMsbFirst : Nat → Nat → List Byte
  | 0, _ => []
  | n + 1, w => BitVec.ofNat 8 (w / 256 ^ n) :: bytesMsbFirst n w

/-- The frame of a table word on device `d`: the bits the table gives, and for a program header one data byte of zeros, the
shortest the frame may have (R91). -/
def tableFrame (d : Dev) (n w : Nat) : Code :=
  let bytes := bytesMsbFirst n w
  if bytes.head? = some Config.opcProgram ∧ n = 1 + d.addrBytes then .frame d (bytes ++ [0])
  else .frame d bytes

/-- What a word of a table row stands for. 32 bits: a request's W0 (its W1 and W2 zero) when the reserved byte W0[31:24] is
zero, else a NOR header, whose first byte is never zero. 24 bits: an EEPROM header. 8 and 16 bits: write-enable and
read-status, the same bits for both devices in the table; read as the EEPROM's row (log entry 6). -/
def codeOfTableWord (nbits w : Nat) : Code :=
  if nbits = 32 ∧ w / 2 ^ 24 = 0 then .request (BitVec.ofNat 32 w) 0 0
  else if nbits = 32 then tableFrame .nor 4 w
  else tableFrame .ee (nbits / 8) w

/-- The instruction the decoder reads from a table word. -/
def decodeTableWord (nbits w : Nat) : Option Instr :=
  match decode (codeOfTableWord nbits w) with
  | .ok i => some i
  | .error _ => none

end Sys2Proof
end

