-- ==== Sys2Proof/Machine/Ops.lean ====
section
/-! DEFINITION. The named operations over memory, registers, draws and the trace, how an operation ends (spec/00_scope.md R11,
which is this machine's one way of taking an exception: spec/60_exceptions.md R200, R210), and the reset (R35, R230). -/

namespace Sys2Proof.Machine

/-! ### Memory: sorted cells, none equal to what an unlisted address reads as -/

/-- `Mem[d][a]`, `Buf[i]` (R9, R8). -/
def Memory.read : List Host.Cell → Nat → Byte
  | [], _ => Config.unlistedByte
  | (k, v) :: m, a => if k = a then v else Memory.read m a

/-- The cells without the one at `a`. -/
def Memory.remove (m : List Host.Cell) (a : Nat) : List Host.Cell := m.filter fun c => !(decide (c.1 = a))

/-- A cell in its place among rising addresses. -/
def Memory.insert : List Host.Cell → Nat → Byte → List Host.Cell
  | [], a, v => [(a, v)]
  | (k, w) :: m, a, v => if a < k then (a, v) :: (k, w) :: m else (k, w) :: Memory.insert m a v

/-- `Mem[d][a] <- v`, `Buf[i] <- v`: writing what an unlisted address reads as removes the cell. -/
def Memory.write (m : List Host.Cell) (a : Nat) (v : Byte) : List Host.Cell :=
  if v = Config.unlistedByte then Memory.remove m a else Memory.insert (Memory.remove m a) a v

/-- `MemRead(d, a, n)`: `n` bytes in increasing address order (R9, R60). -/
def Memory.readMany (m : List Host.Cell) (a : Nat) : Nat → List Byte
  | 0 => []
  | n + 1 => Memory.read m a :: Memory.readMany m (a + 1) n

/-- `MemWrite(d, a, k, v)`: byte `j` goes to `a + j` (R9, R62). -/
def Memory.writeMany (m : List Host.Cell) (a : Nat) : List Byte → List Host.Cell
  | [] => m
  | v :: vs => Memory.writeMany (Memory.write m a v) (a + 1) vs

/-- The NOR program: byte `j` at `a + j` becomes old AND `v[j]` (R63). -/
def Memory.andMany (m : List Host.Cell) (a : Nat) : List Byte → List Host.Cell
  | [] => m
  | v :: vs => Memory.andMany (Memory.write m a (Memory.read m a &&& v)) (a + 1) vs

/-- The bytes `lo .. lo + n - 1` become 0xFF (R64): the erased value is what an unlisted address reads as. -/
def Memory.erase (m : List Host.Cell) (lo n : Nat) : List Host.Cell :=
  m.filter fun c => !(decide (lo ≤ c.1) && decide (c.1 < lo + n))

/-- The canonical form: strictly rising addresses from `lo` on, none holding the unlisted byte. -/
def Memory.wfFrom : Nat → List Host.Cell → Bool
  | _, [] => true
  | lo, (k, v) :: m => decide (lo ≤ k) && !(decide (v = Config.unlistedByte)) && Memory.wfFrom (k + 1) m

def Memory.wf (m : List Host.Cell) : Bool := Memory.wfFrom 0 m

/-- No cell at or above `size`. -/
def Memory.within (size : Nat) (m : List Host.Cell) : Bool := m.all fun c => decide (c.1 < size)

/-! ### Devices and exclusive access -/

/-- Device `d`. -/
def State.device (s : State) : Dev → Device
  | .ee => s.ee
  | .nor => s.nor

def State.setDevice (s : State) (d : Dev) (v : Device) : State :=
  match d with
  | .ee => { s with ee := v }
  | .nor => { s with nor := v }

/-- `cs[d]` (R24). -/
def State.cs (s : State) : Dev → Bool
  | .ee => s.csEe
  | .nor => s.csNor

def State.setCs (s : State) (d : Dev) (b : Bool) : State :=
  match d with
  | .ee => { s with csEe := b }
  | .nor => { s with csNor := b }

/-! ### The trace and `phase` -/

/-- Perform an event: it is the next of the trace (R10). -/
def State.log (s : State) (e : Event) : State := { s with trace := s.trace ++ [e] }

/-- `phase <- p` at a transition of R129. -/
def State.toPhase (s : State) (p : Phase) : State := { s with phase := p, trace := s.trace ++ [.ph p] }

/-! ### The host's moves on its registers (R247) -/

/-- The host writes a register (R26 to R30): `GO` takes a 1 only while `BUSY` = 0, `STATUS` is read only. -/
def writeReg (r : HostReg) (v : Word) (s : State) : State :=
  match r with
  | .reqCtrl => { s with reqCtrl := v }
  | .reqAddr => { s with reqAddr := v }
  | .reqLen => { s with reqLen := v }
  | .go => if v.getLsbD 0 && !s.busy then { s with go := true } else s
  | .status => s

/-- One move on a register. -/
def regMove (m : RegMove) (s : State) : State :=
  match m with
  | .write r v => writeReg r v s
  | .read r => { s with hostData := readReg s r }

/-- The host's moves at one moment inside an operation: those that are due land, in order, and the one after them has a value of
`STATUS` fewer to wait for. -/
def landMoves : List HostMove → State → State
  | .during 0 m :: ms, s => landMoves ms (regMove m s)
  | .during (k + 1) m :: ms, s => { s with inbox := .during k m :: ms }
  | ms, s => { s with inbox := ms }

/-- A moment inside an operation at which `STATUS` has just taken a new value: the host may read and write its registers (R247).
At every other moment of the operation it finds what it would have found at the last of these (log entry 20). -/
def hostPoint (s : State) : State := if s.busy then landMoves s.inbox s else s

/-- `phase <- p` (R129), and the host may look. -/
def enterPhase (p : Phase) (s : State) : State := hostPoint (s.toPhase p)

/-! ### Draws (glossary of spec/00_scope.md) -/

/-- The draw made after `j` more draws: from the tape, and past its end the opaque draw at that count. -/
def State.drawAt (s : State) (j : Nat) : Nat :=
  match s.tape[j]? with
  | some n => n
  | none => Config.draw (s.drawn + j)

/-- Make `n` draws. -/
def State.skipDraws (s : State) (n : Nat) : State := { s with tape := s.tape.drop n, drawn := s.drawn + n }

/-- Make one draw. -/
def State.draw (s : State) : Nat × State := (s.drawAt 0, s.skipDraws 1)

/-- A draw read as a byte. -/
def byteOfDraw (n : Nat) : Byte := BitVec.ofNat 8 n

/-- A draw read as the busy time `B` of R66: 0 is a device that never becomes ready, `B + 1` is `B` status reads. -/
def busyOfDraw : Nat → Option Nat
  | 0 => none
  | n + 1 => some n

/-- A status byte: bit 0 is the busy flag, bits 7..1 are a draw (R65). -/
def statusOfDraw (busy : Bool) (n : Nat) : Byte := BitVec.ofNat 8 (2 * n + if busy then 1 else 0)

/-! ### How an operation ends: the one way this machine takes an exception -/

/-- `finish(code)` (R11): the outcome code, `phase <- Idle`, `BUSY <- 0`. Nothing is saved and control goes nowhere (R200,
R210); there is nothing to return from (R211). -/
def finish (c : OpOutcome) (s : State) : State := { s with outcome := c, phase := .idle, busy := false }

/-- `STATUS.RDATA <- v` (R160, R180). -/
def State.setRdata (s : State) (v : Byte) : State := { s with rdata := v }

/-! ### Acceptance (R132) -/

/-- The request latch takes the operands and `STATUS.BUSY <- 1` (R132 (1), (2)). -/
def accept (op : BitVec 4) (d : Dev) (r : Req) (s : State) : State :=
  { s with
    latch := { op := op, dev := d, bufv := r.bufv, val := r.val, bitn := r.bitn, addr := r.addr, len := r.len }
    busy := true }

/-- The device that `REQ_CTRL[4]` names (R22, R26). -/
def devOf (w0 : Word) : Dev := if w0.getLsbD 4 then .nor else .ee

/-- An illegal descriptor: accepted, latched, and ended at once with `IllegalRequest` (R132 (3), R105, R207). Ignored while
`BUSY` = 1 (R29). -/
def acceptIllegal (s : State) : State :=
  if s.busy then s
  else finish .illegalRequest
    (hostPoint (accept (s.reqCtrl.extractLsb' 0 4) (devOf s.reqCtrl) (operandsOf s.reqCtrl s.reqAddr s.reqLen) s))

/-! ### Reset -/

/-- The reset event (R35, R230): everything of the sequencer to its value after reset; devices, buffer and parameters
unchanged; the two releases performed. The moves still to come and the environment's draws are not the sequencer's. -/
def applyReset (s : State) : State :=
  { State.reset with
    ee := s.ee
    nor := s.nor
    buf := s.buf
    trace := s.trace ++ resetEvents
    params := s.params
    inbox := s.inbox
    hostData := s.hostData
    tape := s.tape
    drawn := s.drawn }

/-! ### Steps that may end before their last line -/

/-- What a procedure leaves: it goes on with a result, or the step ends here, because the poll loop waits or a reset struck. -/
inductive Flow (α : Type) where
  | go (a : α) (s : State)
  | halt (s : State)

/-- Go on with `f`, unless the step has ended. -/
def Flow.bind {α β : Type} (m : Flow α) (f : α → State → Flow β) : Flow β :=
  match m with
  | .go a s => f a s
  | .halt s => .halt s

/-- The state in which the step ends. -/
def Flow.state {α : Type} : Flow α → State
  | .go _ s => s
  | .halt s => s

/-- End the step by `f`, unless it has ended. -/
def Flow.finally {α : Type} (m : Flow α) (f : α → State → State) : State :=
  match m with
  | .go a s => f a s
  | .halt s => s

end Sys2Proof.Machine
end

