-- ==== Sys2Proof/Machine/Operands.lean ====
section
/-! DEFINITION. Operand forms and address arithmetic: validity (spec/20_memory.md R51, R52), the chunker
(spec/41_chunker.md R150, R153), the sector base (R156), bit masks (spec/00_scope.md R7) and the clear-only predicate
(spec/43_nor_ops.md R182). -/

namespace Sys2Proof.Machine

/-- `valid(d, a)` (R51). -/
def validAddr (d : Dev) (a : Word) : Bool := decide (a.toNat < d.size)

/-- `validRange(d, a, n)` (R52): the sum does not wrap. -/
def validRange (d : Dev) (a n : Word) : Bool := validAddr d a && decide (a.toNat + n.toNat ≤ d.size)

/-- The index names a bit of a byte (R26, R204). -/
def validBit (n : Byte) : Bool := decide (n.toNat ≤ 7)

/-- `1 << n` (R7). -/
def bitMask (n : Byte) : Byte := 1#8 <<< n.toNat

/-- The byte `setBit` writes (R164). -/
def withBit (b n : Byte) : Byte := b ||| bitMask n

/-- The byte `clearBit` writes (R165, R185). -/
def withoutBit (b n : Byte) : Byte := b &&& ~~~(bitMask n)

/-- The clear-only predicate `(current & value) == value` (R182). -/
def clearOnly (current value : Byte) : Bool := decide (current &&& value = value)

/-- `chunkLen(d, c, r)` (R150). -/
def chunkLen (d : Dev) (c r : Nat) : Nat := min r (d.page - c % d.page)

/-- The chunks of a bulk write, each an address and a length (R151, R153): at most `fuel` of them. -/
def chunksFuel (d : Dev) : Nat → Nat → Nat → List (Nat × Nat)
  | 0, _, _ => []
  | fuel + 1, a, n =>
    if n = 0 then []
    else (a, chunkLen d a n) :: chunksFuel d fuel (a + chunkLen d a n) (n - chunkLen d a n)

/-- The chunks of `ChunkedWrite(d, a, n)`: no more than one for each byte (R150: a chunk is never empty). -/
def chunks (d : Dev) (a n : Nat) : List (Nat × Nat) := chunksFuel d n a n

/-- `sectorBase(a)` (R156). -/
def sectorBase (a : Nat) : Nat := a - a % Config.norSector

end Sys2Proof.Machine
end

