-- ==== Sys2Proof/Machine/Bus.lean ====
section
/-! DEFINITION. The three transport operations (spec/40_transport_and_fsm.md R120) and, behind them, what a device does with
the bytes it hears (the device reference model, spec/20_memory.md R59 to R69). -/

namespace Sys2Proof.Machine

/-! ### A device hears a byte -/

/-- What a device answers to an exchange. -/
inductive Answer where
  /-- Any byte at all (R69; R68). -/
  | any
  /-- This byte. -/
  | byte (v : Byte)
  /-- A status byte with this busy bit (R65). -/
  | status (busy : Bool)
  deriving DecidableEq, Repr

/-- Bytes of a header: opcode and address (R92, R93). -/
def headerLen (d : Dev) : Nat := 1 + d.addrBytes

/-- The address of a header that is all in. -/
def headerAddr (d : Dev) (rx : List Byte) : Nat :=
  match takeAddr d (rx.drop 1) with
  | some (a, _) => a
  | none => 0

/-- The status read samples the busy flag, and the device's time runs on (R65, R66): `B` reads return busy, the next one does
not. -/
def Device.sample (v : Device) : Bool × Device :=
  if v.dbusy then
    match v.busyReads with
    | none => (true, v)
    | some 0 => (false, { v with dbusy := false })
    | some (n + 1) => (true, { v with busyReads := some n })
  else (false, v)

/-- The device has heard `o`, and nothing else of it changes but the address counter, which a finished header loads (R59). -/
def Device.take (d : Dev) (o : Byte) (v : Device) : Device :=
  let rx := v.rx ++ [o]
  { v with rx := rx, counter := if rx.length = headerLen d then headerAddr d rx else v.counter }

/-- One exchange at device `d` (R60, R65, R68, R69): byte `o` comes in, an answer goes out. -/
def Device.hear (d : Dev) (o : Byte) (v : Device) : Answer × Device :=
  if v.lost.isSome then (.any, v.take d o)
  else
    match v.rx with
    | [] =>
      if v.dbusy ∧ o ≠ Config.opcRdsr then (.any, { v.take d o with lost := some .whileBusy })
      else (.any, v.take d o)
    | c :: rest =>
      if c = Config.opcRdsr ∧ rest = [] then (.status v.sample.1, v.sample.2.take d o)
      else if c = Config.opcRead ∧ headerLen d ≤ v.rx.length then
        (.byte (Memory.read v.mem v.counter), { v.take d o with counter := v.counter + 1 })
      else (.any, v.take d o)

/-! ### A device at the end of a frame -/

/-- The program or erase of device `v` begins (R62, R63, R64, R66): busy for a drawn time, and the latch is clear again. -/
def Device.startBusy (v : Device) (n : Nat) : Device :=
  { v with dbusy := true, busyReads := busyOfDraw n, wel := false }

/-- What a program frame leaves in storage: the EEPROM stores (R62), the NOR flash ANDs (R63). -/
def programMem (d : Dev) (m : List Host.Cell) (a : Nat) (data : List Byte) : List Host.Cell :=
  match d with
  | .ee => Memory.writeMany m a data
  | .nor => Memory.andMany m a data

/-- The effect of a whole frame on its device, at the release of exclusive access (R61 to R64, R67); `n` is the busy draw. A
frame outside the preconditions records the device model's fault (R68). -/
def Device.obey (d : Dev) (f : Frame) (n : Nat) (v : Device) : Device :=
  match f with
  | .wren => { v with wel := true }
  | .rdsr _ => v
  | .read _ _ => v
  | .program a data =>
    if v.wel = false then { v with lost := some .noWriteEnable }
    else if d.size ≤ a then { v with lost := some .noSuchAddress }
    else if d.page < a % d.page + data.length then { v with lost := some .pageCrossed }
    else { v with mem := programMem d v.mem a data }.startBusy n
  | .erase a =>
    if v.wel = false then { v with lost := some .noWriteEnable }
    else { v with mem := Memory.erase v.mem (sectorBase a) Config.norSector }.startBusy n

/-- Whether the frame makes the device busy: then the busy time is drawn (R66). -/
def Device.starts (d : Dev) (f : Frame) (v : Device) : Bool :=
  match f with
  | .wren => false
  | .rdsr _ => false
  | .read _ _ => false
  | .program a data => v.wel && decide (a < d.size) && decide (a % d.page + data.length ≤ d.page)
  | .erase _ => v.wel

/-- The frame is over: the address counter and the bytes heard are gone. -/
def Device.close (v : Device) : Device := { v with rx := [], counter := 0 }

/-- The device sees the release of exclusive access. -/
def endFrame (d : Dev) (s : State) : State :=
  let v := s.device d
  if v.lost.isSome then s.setDevice d v.close
  else
    match parseFrame d v.rx with
    | .error .cutShort => s.setDevice d { v.close with lost := some .cutShort }
    | .error .emptyFrame => s.setDevice d { v.close with lost := some .cutShort }
    | .error _ => s.setDevice d { v.close with lost := some .notAFrame }
    | .ok f =>
      if v.starts d f then (s.skipDraws 1).setDevice d (v.obey d f (s.drawAt 0)).close
      else s.setDevice d (v.obey d f 0).close

/-! ### The transport operations (R120) -/

/-- `T[d].setExclusiveAccess(true)`. -/
def select (d : Dev) (s : State) : State :=
  ((s.setDevice d (s.device d).close).setCs d true).log (.sel d true)

/-- `T[d].setExclusiveAccess(false)`. -/
def deselect (d : Dev) (s : State) : State :=
  ((endFrame d s).setCs d false).log (.sel d false)

/-- `_ <- T[d].exchangeByte(o)`: the returned byte is any byte and is discarded (R69). -/
def send (d : Dev) (o : Byte) (s : State) : State :=
  (s.setDevice d ((s.device d).hear d o).2).log (.x d o none)

/-- The byte an answer gives, the open bits from the draw `n` (R65, R68). -/
def Answer.toByte (n : Nat) : Answer → Byte
  | .any => byteOfDraw n
  | .byte v => v
  | .status b => statusOfDraw b n

/-- How many draws an answer takes. -/
def Answer.draws : Answer → Nat
  | .any => 1
  | .byte _ => 0
  | .status _ => 1

/-- `i <- T[d].exchangeByte(o)`: the returned byte is used. -/
def receive (d : Dev) (o : Byte) (s : State) : Byte × State :=
  let ans := (s.device d).hear d o
  let i := ans.1.toByte (s.drawAt 0)
  (i, ((s.skipDraws ans.1.draws).setDevice d ans.2).log (.x d o (some i)))

/-- Exchanges whose returned bytes are discarded, in order. -/
def sendAll (d : Dev) : List Byte → State → State
  | [], s => s
  | o :: os, s => sendAll d os (send d o s)

/-- Exchanges whose returned bytes are used, in order. -/
def receiveAll (d : Dev) : List Byte → State → List Byte × State
  | [], s => ([], s)
  | o :: os, s =>
    ((receive d o s).1 :: (receiveAll d os (receive d o s).2).1, (receiveAll d os (receive d o s).2).2)

/-- `T[d].delay(POLL_DELAY_US)`: an event and no other effect (R120, R246). The reset of R231 can strike before it. -/
def delay (d : Dev) (s : State) : Flow Unit :=
  match s.fuse with
  | none => .go () (s.log (.dly d s.params.pollDelayUs))
  | some 0 => .halt (applyReset s)
  | some (k + 1) => .go () ({ s with fuse := some k }.log (.dly d s.params.pollDelayUs))

/-! ### Reset in the middle of a frame (R231) -/

/-- Every byte of `lo .. lo + n - 1` becomes a draw (93_implementation_defined.md U11). -/
def scramble (d : Dev) (lo : Nat) : Nat → State → State
  | 0, s => s
  | n + 1, s =>
    scramble d (lo + 1) n
      ((s.skipDraws 1).setDevice d
        { s.device d with mem := Memory.write (s.device d).mem lo (byteOfDraw (s.drawAt 0)) })

/-- The device may be busy with what it made of the frame (R231, R232 (a)): for a drawn time. -/
def startBusyUnknown (d : Dev) (s : State) : State :=
  (s.skipDraws 1).setDevice d
    { s.device d with dbusy := true, busyReads := busyOfDraw (s.drawAt 0) }

/-- What device `d` is left with when the frame `bytes` was cut by a reset: the page or sector of a program or erase frame
holds any bytes (R231), and of any other frame the device model records the fault of R68 (e). -/
def damage (d : Dev) (bytes : List Byte) (s : State) : State :=
  if (s.device d).lost.isSome then s.setDevice d (s.device d).close
  else
    let t := s.setDevice d (s.device d).close
    match parseFrame d bytes with
    | .ok (.program a _) =>
      if d.size ≤ a then t.setDevice d { t.device d with lost := some .noSuchAddress }
      else startBusyUnknown d (scramble d (a - a % d.page) d.page t)
    | .ok (.erase a) => startBusyUnknown d (scramble d (sectorBase a) Config.norSector t)
    | .ok .wren => t.setDevice d { t.device d with lost := some .cutShort }
    | .ok (.rdsr _) => t.setDevice d { t.device d with lost := some .cutShort }
    | .ok (.read _ _) => t.setDevice d { t.device d with lost := some .cutShort }
    | .error _ => t.setDevice d { t.device d with lost := some .cutShort }

/-- The reset strikes after `k` of a frame's operations (R231). Before the assertion no frame is open; from then on to the
release the frame is cut short, also when the release alone is missing. -/
def cutFrame (d : Dev) (sends recvs : List Byte) (k : Nat) (s : State) : State :=
  match k with
  | 0 => applyReset s
  | j + 1 =>
    applyReset (damage d (sends ++ recvs)
      (receiveAll d (recvs.take (j - sends.length)) (sendAll d (sends.take j) (select d s))).2)

end Sys2Proof.Machine
end

