-- ==== Sys2Proof/Machine/Frames.lean ====
section
/-! DEFINITION. The five frame procedures (spec/40_transport_and_fsm.md R122 to R126) over one shared frame, with the reset that
can strike in the middle of it (spec/70_reset_and_hazards.md R231). -/

namespace Sys2Proof.Machine

/-- One frame: assertion, the exchanges whose answer is discarded, the exchanges whose answer is used, release (R90). -/
def wholeFrame (d : Dev) (sends recvs : List Byte) (s : State) : List Byte × State :=
  let r := receiveAll d recvs (sendAll d sends (select d s))
  (r.1, deselect d r.2)

/-- The transport operations of a frame: its exchanges, the assertion and the release (R10). -/
def frameOps (sends recvs : List Byte) : Nat := sends.length + recvs.length + 2

/-- Perform a frame, unless a reset strikes before its last operation (R231). -/
def performFrame (d : Dev) (sends recvs : List Byte) (s : State) : Flow (List Byte) :=
  match s.fuse with
  | none => .go (wholeFrame d sends recvs s).1 (wholeFrame d sends recvs s).2
  | some k =>
    if k < frameOps sends recvs then .halt (cutFrame d sends recvs k s)
    else
      let t := { s with fuse := some (k - frameOps sends recvs) }
      .go (wholeFrame d sends recvs t).1 (wholeFrame d sends recvs t).2

/-- `Frame_WREN(d)` (R122, R94). -/
def frameWren (d : Dev) (s : State) : Flow Unit :=
  (performFrame d [Config.opcWren] [] s).bind fun _ t => .go () t

/-- `st <- Frame_RDSR(d)` (R123, R95, R127); `dummy` is shifted out while the status byte is shifted in. -/
def frameRdsr (d : Dev) (dummy : Byte) (s : State) : Flow Unit :=
  (performFrame d [Config.opcRdsr] [dummy] s).bind fun b t => .go () { t with st := b.headD 0 }

/-- `Frame_READ(d, a, n)` (R124, R96), with the bytes `outs` shifted out while the data are shifted in. -/
def frameReadOuts (d : Dev) (a : Word) (outs : List Byte) (s : State) : Flow (List Byte) :=
  performFrame d (headerBytes d Config.opcRead a) outs s

/-- `Frame_READ(d, a, n)` as the sequencer sends it: `n` times `DUMMY_OUT` (R96). -/
def frameRead (d : Dev) (a : Word) (n : Nat) (s : State) : Flow (List Byte) :=
  frameReadOuts d a (List.replicate n s.params.dummyOut) s

/-- The bytes that have come back when a reset strikes inside a frame (R231). -/
def arrived (d : Dev) (sends recvs : List Byte) (s : State) : List Byte :=
  match s.fuse with
  | none => []
  | some k => (receiveAll d (recvs.take (k - 1 - sends.length)) (sendAll d sends (select d s))).1

/-- `Frame_READ(d, a, n)` of a `readArray`: byte `j` is stored in `Buf[j]` as it arrives (R162; 92_eei_decisions.md D25), so a
reset that cuts the frame finds there the bytes that had come back (DEDUCED, log entry 11). -/
def frameReadInto (d : Dev) (a : Word) (n : Nat) (s : State) : Flow Unit :=
  match frameRead d a n s with
  | .go b t => .go () { t with buf := Memory.writeMany t.buf 0 b }
  | .halt t =>
    .halt { t with
      buf := Memory.writeMany t.buf 0
        (arrived d (headerBytes d Config.opcRead a) (List.replicate n s.params.dummyOut) s) }

/-- `Frame_PROGRAM(d, a, k, src)` (R125, R97). -/
def frameProgram (d : Dev) (a : Word) (data : List Byte) (s : State) : Flow Unit :=
  (performFrame d (headerBytes d Config.opcProgram a ++ data) [] s).bind fun _ t => .go () t

/-- `Frame_ERASE(a)`, NOR only (R126, R98). -/
def frameErase (a : Word) (s : State) : Flow Unit :=
  (performFrame .nor (headerBytes .nor Config.opcSe a) [] s).bind fun _ t => .go () t

end Sys2Proof.Machine
end

