-- ==== Sys2Proof/Machine/Sequencer.lean ====
section
/-! DEFINITION. The write-enable and busy-poll state machine (spec/40_transport_and_fsm.md R127 to R129), the chunk loop
(spec/41_chunker.md R151), acceptance and completion (R132, R133), and how a waiting poll loop goes on. -/

namespace Sys2Proof.Machine

/-! ### The busy-poll loop (R127) -/

/-- The bytes of the read-status frame the poll loop sends (R95). -/
def rdsrBytes (s : State) : List Byte := [Config.opcRdsr, s.params.dummyOut]

/-- `POLL_LIMIT` = `some N` and `count >= N` (R127). -/
def limitHit (limit : Option Nat) (count : Nat) : Bool :=
  match limit with
  | none => false
  | some n => decide (n ≤ count)

/-- What the loop does with the status byte in `st` (R127): ready; or one busy read more, and then the limit is reached, or the
delay and another turn. After the delay the step ends: the frame of the next turn stands ready (log entry 1). -/
def judgeStatus (d : Dev) (s : State) : Flow Bool :=
  if busyBit s.st = false then .go true (enterPhase .idle s)
  else
    let t := { s with pollcnt := s.pollcnt + 1 }
    if limitHit t.params.pollLimit t.pollcnt then .go false (enterPhase .idle t)
    else (delay d t).bind fun _ u => .halt { u with frame := some (d, rdsrBytes u) }

/-- `WaitReady(d)` (R127), up to its first delay. -/
def waitReady (d : Dev) (s : State) : Flow Bool :=
  (frameRdsr d s.params.dummyOut { enterPhase .polling s with pollcnt := 0 }).bind fun _ t => judgeStatus d t

/-- `WriteCycle(d, body)` (R128). -/
def writeCycle (d : Dev) (body : State → Flow Unit) (s : State) : Flow Bool :=
  (frameWren d s).bind fun _ s1 =>
  (body (enterPhase .writeEnabled s1)).bind fun _ s2 =>
  waitReady d (enterPhase .commandIssued s2)

/-- `WriteChunk(d, a, k, src)` (R128). -/
def writeChunk (d : Dev) (a : Word) (data : List Byte) (s : State) : Flow Bool :=
  writeCycle d (frameProgram d a data) s

/-- `if ready: finish(Ok) else: finish(DeviceNotReady)` (R161, R206). -/
def finishReady (ready : Bool) (s : State) : State :=
  finish (if ready then .ok else .deviceNotReady) s

/-! ### The chunk loop (R151) -/

/-- `cur <- cur + clen; idx <- idx + clen; rem <- rem - clen`. -/
def advanceChunk (s : State) : State :=
  { s with
    cur := s.cur + s.clen.setWidth 32
    idx := s.idx + s.clen.setWidth 32
    rem := s.rem - s.clen.setWidth 32 }

/-- `clen <- min(rem, PAGE(d) - (cur mod PAGE(d)))`. -/
def loadClen (d : Dev) (s : State) : State :=
  { s with clen := BitVec.ofNat 9 (chunkLen d s.cur.toNat s.rem.toNat) }

/-- The bytes `Buf[idx ..]` of the chunk (R125). -/
def chunkData (s : State) : List Byte := Memory.readMany s.buf s.idx.toNat s.clen.toNat

/-- `while rem > 0` of R151, at most `fuel` times. -/
def chunkLoop (d : Dev) : Nat → State → Flow Bool
  | 0, s => .go true s
  | fuel + 1, s =>
    if s.rem = 0 then .go true s
    else
      (writeChunk d (loadClen d s).cur (chunkData (loadClen d s)) (loadClen d s)).bind fun ready t =>
        if ready then chunkLoop d fuel (advanceChunk t) else .go false t

/-- The chunk loop from where the registers stand: a chunk is never empty, so `rem` turns are enough (R150). -/
def runChunks (d : Dev) (s : State) : Flow Bool := chunkLoop d s.rem.toNat s

/-- `ChunkedWrite(d, a, n)` (R151). -/
def chunkedWrite (d : Dev) (a n : Word) (s : State) : Flow Bool :=
  runChunks d { s with cur := a, rem := n, idx := 0 }

/-! ### How a waiting operation goes on -/

/-- The rest of an operation after one of its waits has ended (R151, R161): a bulk write goes on with its next chunk. -/
def afterWait (d : Dev) (ready : Bool) (s : State) : State :=
  if s.latch.op = 4 ∧ ready = true then (runChunks d (advanceChunk s)).finally finishReady
  else finishReady ready s

/-- What the sequencer does once a frame it had waiting has been performed: if it is polling that device and the frame was the
read-status frame, it looks at the status byte and goes on (R127). -/
def afterFrame (d : Dev) (bytes : List Byte) (s : State) : State :=
  if s.busy = true ∧ s.phase = .polling ∧ d = s.latch.dev ∧ bytes.head? = some Config.opcRdsr then
    (judgeStatus d s).finally (afterWait d)
  else s

/-! ### Acceptance and operations shared by the two devices (R132) -/

/-- A request: ignored while `BUSY` = 1 (R29), else latched and run (R132), the host seeing `BUSY` = 1 from then on. The
operation reads its operands from the latch (R22). -/
def request (op : BitVec 4) (d : Dev) (r : Req) (body : State → State) (s : State) :
    Host.Outcome State Fault Refusal :=
  .next (if s.busy then s else body (hostPoint (accept op d r s)))

/-- `readByte` (R160, R180). -/
def opReadByte (d : Dev) (s : State) : State :=
  if validAddr d s.latch.addr then
    (frameRead d s.latch.addr 1 s).finally fun b t => finish .ok (hostPoint (t.setRdata (b.headD 0)))
  else finish .outOfRange (hostPoint (s.setRdata Config.sentinel))

/-- `readArray` (R162, R181): range, then buffer, then one frame whose bytes go into `Buf`. -/
def opReadArray (d : Dev) (s : State) : State :=
  if validRange d s.latch.addr s.latch.len then
    if s.latch.bufv then
      (frameReadInto d s.latch.addr s.latch.len.toNat s).finally fun _ t => finish .ok t
    else finish .nullBuffer s
  else finish .outOfRange s

/-- `writeArray` (R163, R183): range, then buffer, then the chunks; no read and no test of the old bytes. -/
def opWriteArray (d : Dev) (s : State) : State :=
  if validRange d s.latch.addr s.latch.len then
    if s.latch.bufv then (chunkedWrite d s.latch.addr s.latch.len s).finally finishReady
    else finish .nullBuffer s
  else finish .outOfRange s

end Sys2Proof.Machine
end

