-- ==== Sys2Proof/Machine/Eeprom.lean ====
section
/-! DEFINITION. The six EEPROM operations (spec/42_eeprom_ops.md R160 to R165). -/

namespace Sys2Proof.Machine

/-- `EEPROM.readByte` (R160). -/
def execEeReadByte (r : Req) (s : State) : Host.Outcome State Fault Refusal :=
  request 1 .ee r (opReadByte .ee) s

/-- `EEPROM.writeByte` (R161): the old byte is not read. -/
def execEeWriteByte (r : Req) (s : State) : Host.Outcome State Fault Refusal :=
  request 2 .ee r (fun s =>
    if validAddr .ee s.latch.addr then (writeChunk .ee s.latch.addr [s.latch.val] s).finally finishReady
    else finish .outOfRange s) s

/-- `EEPROM.readArray` (R162). -/
def execEeReadArray (r : Req) (s : State) : Host.Outcome State Fault Refusal :=
  request 3 .ee r (opReadArray .ee) s

/-- `EEPROM.writeArray` (R163). -/
def execEeWriteArray (r : Req) (s : State) : Host.Outcome State Fault Refusal :=
  request 4 .ee r (opWriteArray .ee) s

/-- The read-modify-write of R164 and R165: `f` computes the byte to write from the byte read and the bit index. -/
def eeModifyBit (f : Byte → Byte → Byte) (s : State) : State :=
  if validAddr .ee s.latch.addr then
    if validBit s.latch.bitn then
      ((frameRead .ee s.latch.addr 1 s).bind fun b t =>
        writeChunk .ee t.latch.addr [f (b.headD 0) t.latch.bitn]
          { t with tmp := f (b.headD 0) t.latch.bitn }).finally finishReady
    else finish .invalidBitIndex s
  else finish .outOfRange s

/-- `EEPROM.setBit` (R164). -/
def execEeSetBit (r : Req) (s : State) : Host.Outcome State Fault Refusal :=
  request 5 .ee r (eeModifyBit withBit) s

/-- `EEPROM.clearBit` (R165). -/
def execEeClearBit (r : Req) (s : State) : Host.Outcome State Fault Refusal :=
  request 6 .ee r (eeModifyBit withoutBit) s

end Sys2Proof.Machine
end

