-- ==== Sys2Proof/Machine/Nor.lean ====
section
/-! DEFINITION. The seven NOR flash operations (spec/43_nor_ops.md R180 to R186). -/

namespace Sys2Proof.Machine

/-- `NOR.readByte` (R180). -/
def execNorReadByte (r : Req) (s : State) : Host.Outcome State Fault Refusal :=
  request 1 .nor r (opReadByte .nor) s

/-- The clear-only write path of R182 from its read onward: read the byte into `tmp`, program `v` only if no bit of it needs to
go from 0 to 1. -/
def clearOnlyWrite (v : Byte) (s : State) : State :=
  (frameRead .nor s.latch.addr 1 s).finally fun b t =>
    let u := { t with tmp := b.headD 0 }
    if clearOnly u.tmp v then (writeChunk .nor u.latch.addr [v] u).finally finishReady
    else finish .requiresErase u

/-- `NOR.writeByte` (R182). -/
def execNorWriteByte (r : Req) (s : State) : Host.Outcome State Fault Refusal :=
  request 2 .nor r (fun s =>
    if validAddr .nor s.latch.addr then clearOnlyWrite s.latch.val s
    else finish .outOfRange s) s

/-- `NOR.readArray` (R181). -/
def execNorReadArray (r : Req) (s : State) : Host.Outcome State Fault Refusal :=
  request 3 .nor r (opReadArray .nor) s

/-- `NOR.writeArray` (R183). -/
def execNorWriteArray (r : Req) (s : State) : Host.Outcome State Fault Refusal :=
  request 4 .nor r (opWriteArray .nor) s

/-- `NOR.setBit` (R184): no operand is used, nothing is done. -/
def execNorSetBit (r : Req) (s : State) : Host.Outcome State Fault Refusal :=
  request 5 .nor r (finish .unsupported) s

/-- `NOR.clearBit` (R185): its own read, then the write path with a read of its own. -/
def execNorClearBit (r : Req) (s : State) : Host.Outcome State Fault Refusal :=
  request 6 .nor r (fun s =>
    if validAddr .nor s.latch.addr then
      if validBit s.latch.bitn then
        (frameRead .nor s.latch.addr 1 s).finally fun b t =>
          clearOnlyWrite (withoutBit (b.headD 0) t.latch.bitn) t
      else finish .invalidBitIndex s
    else finish .outOfRange s) s

/-- `NOR.eraseSector` (R186). -/
def execNorEraseSector (r : Req) (s : State) : Host.Outcome State Fault Refusal :=
  request 7 .nor r (fun s =>
    if validAddr .nor s.latch.addr then
      (writeCycle .nor (frameErase (BitVec.ofNat 32 (sectorBase s.latch.addr.toNat))) s).finally finishReady
    else finish .outOfRange s) s

end Sys2Proof.Machine
end

