-- ==== Sys2Proof/Machine/Wire.lean ====
section
/-! DEFINITION. The nine wire frames as instructions by themselves (spec/30_encoding.md R94 to R98): one frame procedure of
spec/40_transport_and_fsm.md R122 to R126 with its effect on the device (spec/20_memory.md R60 to R65). -/

namespace Sys2Proof.Machine

/-- `EE.WREN` (R94, R122, R61). -/
def execEeWren (s : State) : Host.Outcome State Fault Refusal := .next (frameWren .ee s).state

/-- `NOR.WREN` (R94, R122, R61). -/
def execNorWren (s : State) : Host.Outcome State Fault Refusal := .next (frameWren .nor s).state

/-- `EE.RDSR` (R95, R123, R65). -/
def execEeRdsr (dummy : Byte) (s : State) : Host.Outcome State Fault Refusal := .next (frameRdsr .ee dummy s).state

/-- `NOR.RDSR` (R95, R123, R65). -/
def execNorRdsr (dummy : Byte) (s : State) : Host.Outcome State Fault Refusal := .next (frameRdsr .nor dummy s).state

/-- A read frame (R96, R124, R60), refused past the end of the device (U17). -/
def runRead (d : Dev) (a : Word) (outs : List Byte) (s : State) : Host.Outcome State Fault Refusal :=
  if readFits d a.toNat outs.length then .next (frameReadOuts d a outs s).state
  else .refused (.readPastEnd d a.toNat outs.length)

/-- `EE.READ`. -/
def execEeRead (a : BitVec 16) (outs : List Byte) (s : State) : Host.Outcome State Fault Refusal :=
  runRead .ee (a.setWidth 32) outs s

/-- `NOR.READ`. -/
def execNorRead (a : BitVec 24) (outs : List Byte) (s : State) : Host.Outcome State Fault Refusal :=
  runRead .nor (a.setWidth 32) outs s

/-- A program frame (R97, R125, R62, R63) at an address the device has (R51). -/
def runProgram (d : Dev) (a : Word) (data : List Byte) (s : State) : Host.Outcome State Fault Refusal :=
  if validAddr d a then .next (frameProgram d a data s).state
  else .fault (.noSuchAddress d a.toNat)

/-- `EE.PROGRAM`. -/
def execEeProgram (a : BitVec 16) (data : List Byte) (s : State) : Host.Outcome State Fault Refusal :=
  runProgram .ee (a.setWidth 32) data s

/-- `NOR.PROGRAM`. -/
def execNorProgram (a : BitVec 24) (data : List Byte) (s : State) : Host.Outcome State Fault Refusal :=
  runProgram .nor (a.setWidth 32) data s

/-- `NOR.SE` (R98, R126, R64). -/
def execNorSe (a : BitVec 24) (s : State) : Host.Outcome State Fault Refusal :=
  .next (frameErase (a.setWidth 32) s).state

end Sys2Proof.Machine
end

