-- ==== Sys2Proof/Machine/Dispatch.lean ====
section
/-! DEFINITION. One arm for each instruction. -/

namespace Sys2Proof.Machine

def exec (i : Instr) (s : State) : Host.Outcome State Fault Refusal :=
  match i with
  | .eeReadByte r => Sys2Proof.Machine.execEeReadByte r s
  | .eeWriteByte r => Sys2Proof.Machine.execEeWriteByte r s
  | .eeReadArray r => Sys2Proof.Machine.execEeReadArray r s
  | .eeWriteArray r => Sys2Proof.Machine.execEeWriteArray r s
  | .eeSetBit r => Sys2Proof.Machine.execEeSetBit r s
  | .eeClearBit r => Sys2Proof.Machine.execEeClearBit r s
  | .norReadByte r => Sys2Proof.Machine.execNorReadByte r s
  | .norWriteByte r => Sys2Proof.Machine.execNorWriteByte r s
  | .norReadArray r => Sys2Proof.Machine.execNorReadArray r s
  | .norWriteArray r => Sys2Proof.Machine.execNorWriteArray r s
  | .norSetBit r => Sys2Proof.Machine.execNorSetBit r s
  | .norClearBit r => Sys2Proof.Machine.execNorClearBit r s
  | .norEraseSector r => Sys2Proof.Machine.execNorEraseSector r s
  | .eeWren => Sys2Proof.Machine.execEeWren s
  | .norWren => Sys2Proof.Machine.execNorWren s
  | .eeRdsr dummy => Sys2Proof.Machine.execEeRdsr dummy s
  | .norRdsr dummy => Sys2Proof.Machine.execNorRdsr dummy s
  | .eeRead a outs => Sys2Proof.Machine.execEeRead a outs s
  | .norRead a outs => Sys2Proof.Machine.execNorRead a outs s
  | .eeProgram a data => Sys2Proof.Machine.execEeProgram a data s
  | .norProgram a data => Sys2Proof.Machine.execNorProgram a data s
  | .norSe a => Sys2Proof.Machine.execNorSe a s

end Sys2Proof.Machine
end

