-- ==== Sys2Proof/Machine/HostPort.lean ====
section
/-! DEFINITION. The moves of the host and the platform (spec/70_reset_and_hazards.md R247), the fetch of the next instruction
(spec/10_state.md R29, spec/40_transport_and_fsm.md R132), and where a table word is put so that it is fetched next. -/

namespace Sys2Proof.Machine

/-- A reset now, or once that many more transport operations were performed (R230, R231). -/
def armReset (after : Nat) (s : State) : State :=
  match after with
  | 0 => applyReset s
  | n + 1 => { s with fuse := some (n + 1) }

/-- The device clears its busy flag by itself (R66). -/
def deviceReady (d : Dev) (s : State) : State :=
  s.setDevice d { s.device d with dbusy := false, busyReads := some 0 }

/-- One move (R247). The buffer is the host's only while `BUSY` = 0 (R241). -/
def hostMove (m : HostMove) (s : State) : Host.Outcome State Fault Refusal :=
  match m with
  | .writeReg r v => .next (writeReg r v s)
  | .readReg r => .next { s with hostData := readReg s r }
  | .during _ m => .next (regMove m s)
  | .writeBuf i v => if s.busy then .refused .bufferNotOwned else .next { s with buf := Memory.write s.buf i v }
  | .readBuf i =>
    if s.busy then .refused .bufferNotOwned
    else .next { s with hostData := (Memory.read s.buf i).setWidth 32 }
  | .awaitIdle => .next s
  | .reset after => .next (armReset after s)
  | .deviceReady d => .next (deviceReady d s)

/-- The request that the host registers hold (R102, R132). -/
def requestCode (s : State) : Code := .request s.reqCtrl s.reqAddr s.reqLen

/-- A move that waits while an operation is in progress: the host that waits for `BUSY` = 0, and a move that lands at a moment
inside the operation. -/
def HostMove.waits : HostMove → Bool
  | .awaitIdle => true
  | .during _ _ => true
  | .writeReg _ _ => false
  | .readReg _ => false
  | .writeBuf _ _ => false
  | .readBuf _ => false
  | .reset _ => false
  | .deviceReady _ => false

/-- The move that comes next, when there is one and it does not wait. -/
def nextMove (s : State) : Option HostMove :=
  match s.inbox with
  | [] => none
  | m :: _ => if m.waits && s.busy then none else some m

/-- Put a code where the step fetches its next instruction: a request into the host registers with `GO` set, a frame into the
frame slot with nothing before it (log entries 7 and 8). -/
def placeCode (c : Code) (s : State) : State :=
  match c with
  | .request w0 w1 w2 => { s with reqCtrl := w0, reqAddr := w1, reqLen := w2, go := true, busy := false, fuse := none }
  | .frame d bytes => { s with frame := some (d, bytes), go := false, inbox := [], fuse := none }

end Sys2Proof.Machine
end

