-- ==== Sys2Proof/Machine/Step.lean ====
section
/-! DEFINITION. One step of the machine. In this order: a reset that is due; a request that `GO` has issued; the host's next
move; the frame that a waiting operation has ready; and when there is none of these the block waits for `GO`
(spec/70_reset_and_hazards.md R230, R247). -/

namespace Sys2Proof.Machine

/-- Accept the request in the host registers: decode it and run it (R132); an illegal one ends at once (R105, R207). -/
def stepRequest (s : State) : Host.Outcome State Fault Refusal :=
  match decode (requestCode s) with
  | .ok i => exec i { s with go := false }
  | .error _ => .next (acceptIllegal { s with go := false })

/-- Decode the waiting frame, run it, and let the sequencer go on from it (R127). -/
def stepFrame (s : State) : Host.Outcome State Fault Refusal :=
  match s.frame with
  | none => .next s
  | some (d, bytes) =>
    match decode (.frame d bytes) with
    | .error _ => .refused .notAFrame
    | .ok i =>
      match exec i { s with frame := none } with
      | .next t => .next (afterFrame d bytes t)
      | .fault f => .fault f
      | .refused r => .refused r

/-- The step. -/
def step (s : State) : Host.Outcome State Fault Refusal :=
  if s.fuse = some 0 then .next (applyReset s)
  else if s.go then stepRequest s
  else
    match nextMove s with
    | some m => hostMove m { s with inbox := s.inbox.drop 1 }
    | none => stepFrame s

/-- `s` with the instruction of a table word stored where `step` fetches its next instruction (log entries 6 to 8). -/
def State.withFetchWord (s : State) (nbits w : Nat) : State := placeCode (codeOfTableWord nbits w) s

end Sys2Proof.Machine
end

