-- ==== Sys2Proof/Safety.lean ====
section
/-! DEFINITION. What claims speak of: the events of each frame (spec/30_encoding.md R94 to R98), a device that is ready for a
command (spec/70_reset_and_hazards.md R232), the discipline of the bus (spec/40_transport_and_fsm.md R121, R130), the transitions
of `phase` (R129), and the invariant of the machine. -/

namespace Sys2Proof.Machine

/-! ### The events of a frame -/

/-- The events of one frame: `sends` with their returned bytes ignored, then `recvs` with the returned bytes `bs` (R10, R90). -/
def frameEvents (d : Dev) (sends recvs bs : List Byte) : List Event :=
  .sel d true :: (sends.map (fun o => Event.x d o none) ++ List.zipWith (fun o i => Event.x d o (some i)) recvs bs ++
    [.sel d false])

/-- `<d: 06>` (R94). -/
def wrenEvents (d : Dev) : List Event := frameEvents d [Config.opcWren] [] []

/-- `<d: 05 dummy->st>` (R95). -/
def rdsrEvents (d : Dev) (dummy st : Byte) : List Event := frameEvents d [Config.opcRdsr] [dummy] [st]

/-- `<d: 03 address outs->bs>` (R96). -/
def readEvents (d : Dev) (a : Word) (outs bs : List Byte) : List Event :=
  frameEvents d (headerBytes d Config.opcRead a) outs bs

/-- `<d: 02 address data>` (R97). -/
def programEvents (d : Dev) (a : Word) (data : List Byte) : List Event :=
  frameEvents d (headerBytes d Config.opcProgram a ++ data) [] []

/-- `<NOR: 20 base>` (R98). -/
def eraseEvents (a : Word) : List Event := frameEvents .nor (headerBytes .nor Config.opcSe a) [] []

/-- The events of one write cycle that is ready at the first status read (R128, R129): the body's frame between the
write-enable frame and the status frame, with the transitions of `phase` where they happen. -/
def cycleEvents (d : Dev) (body : List Event) (dummy st : Byte) : List Event :=
  wrenEvents d ++ [.ph .writeEnabled] ++ body ++ [.ph .commandIssued, .ph .polling] ++ rdsrEvents d dummy st ++ [.ph .idle]

/-- The events of one write cycle up to the first delay, when the first status read returns busy (R127). -/
def waitingEvents (d : Dev) (body : List Event) (dummy st : Byte) (us : Nat) : List Event :=
  wrenEvents d ++ [.ph .writeEnabled] ++ body ++ [.ph .commandIssued, .ph .polling] ++ rdsrEvents d dummy st ++ [.dly d us]

/-! ### A device that is ready, a sequencer that is free -/

/-- Device `d` follows its protocol and is not busy (R68, R232 (a)), and no reset is due. -/
def Quiet (d : Dev) (s : State) : Prop :=
  s.fuse = none ∧ (s.device d).lost = none ∧ (s.device d).dbusy = false

/-- The next host move is not one that lands inside an operation. -/
def unobserved : List HostMove → Bool
  | .during _ _ :: _ => false
  | _ => true

/-- No move of the host lands inside the operation. Such a move changes the host's side of the registers alone (R73, R247), as a
statement of its own says. -/
def Unobserved (s : State) : Prop := unobserved s.inbox = true

/-- The next wait of a write cycle is over at its first status read: the draw `B` of R66 is 0. -/
def ReadyAtOnce (s : State) : Prop := busyOfDraw (s.drawAt 0) = some 0

/-- The device after a write cycle whose wait was over at once (R62 to R64, R66). -/
def Device.written (v : Device) (mem : List Host.Cell) : Device :=
  { v with mem := mem, dbusy := false, busyReads := some 0, wel := false, counter := 0, rx := [] }

/-- The device after the first status read of a wait that is not over: `left` is what remains of the busy time. -/
def Device.writing (v : Device) (mem : List Host.Cell) (left : Option Nat) : Device :=
  { v with mem := mem, dbusy := true, busyReads := left, wel := false, counter := 0, rx := [] }

/-- What remains of a busy time after one more status read. -/
def lessOne : Option Nat → Option Nat
  | none => none
  | some n => some (n - 1)

/-- The latch of an accepted request (R132). -/
def latchOf (op : BitVec 4) (d : Dev) (r : Req) : Latch :=
  { op := op, dev := d, bufv := r.bufv, val := r.val, bitn := r.bitn, addr := r.addr, len := r.len }

/-- An accepted request that was skipped: the code is recorded, and of the machine nothing else but the latch changed (R210). -/
def skipped (l : Latch) (c : OpOutcome) (s : State) : State :=
  { s with latch := l, busy := false, phase := .idle, outcome := c }

/-- What a frame outside its preconditions leaves of `s` (R68): the reason recorded in the device, its storage as it was, the
events `es` performed with `n` draws made for the answers, and nothing else changed (log entry 9). -/
def misused (d : Dev) (why : Misuse) (n : Nat) (es : List Event) (s : State) : State :=
  { ((s.skipDraws n).setDevice d { (s.device d).close with lost := some why }).setCs d false with trace := s.trace ++ es }

/-- The bytes the next `n` draws stand for. -/
def drawnBytes (n : Nat) (s : State) : List Byte := (List.range n).map fun j => byteOfDraw (s.drawAt j)

/-- An operation with one write cycle. -/
structure Write where
  instr : Instr
  op    : BitVec 4
  dev   : Dev
  /-- It comes to its write cycle. -/
  ok    : Bool
  /-- The events of the read frames before the cycle. -/
  reads : List Event
  /-- What `tmp` holds then. -/
  tmp   : Byte
  /-- The events of the program or erase frame. -/
  body  : List Event
  /-- Storage after that frame. -/
  mem   : List Host.Cell

/-- The operations with one write cycle, with the operands `r`, on devices that answer by their storage (R161, R164, R165, R182,
R185, R186). -/
def writesOf (r : Req) (s : State) : List Write :=
  let old (d : Dev) := Memory.read (s.device d).mem r.addr.toNat
  let reads (d : Dev) := readEvents d r.addr [s.params.dummyOut] [old d]
  let body (d : Dev) (v : Byte) := programEvents d r.addr [v]
  let mem (d : Dev) (v : Byte) := programMem d (s.device d).mem r.addr.toNat [v]
  let byte := r.val
  let set := withBit (old .ee) r.bitn
  let clear (d : Dev) := withoutBit (old d) r.bitn
  [{ instr := .eeWriteByte r, op := 2, dev := .ee, ok := validAddr .ee r.addr
     reads := [], tmp := s.tmp, body := body .ee byte, mem := mem .ee byte },
   { instr := .eeSetBit r, op := 5, dev := .ee, ok := validAddr .ee r.addr && validBit r.bitn
     reads := reads .ee, tmp := set, body := body .ee set, mem := mem .ee set },
   { instr := .eeClearBit r, op := 6, dev := .ee, ok := validAddr .ee r.addr && validBit r.bitn
     reads := reads .ee, tmp := clear .ee, body := body .ee (clear .ee), mem := mem .ee (clear .ee) },
   { instr := .norWriteByte r, op := 2, dev := .nor, ok := validAddr .nor r.addr && clearOnly (old .nor) byte
     reads := reads .nor, tmp := old .nor, body := body .nor byte, mem := mem .nor byte },
   { instr := .norClearBit r, op := 6, dev := .nor, ok := validAddr .nor r.addr && validBit r.bitn
     reads := reads .nor ++ reads .nor, tmp := old .nor, body := body .nor (clear .nor), mem := mem .nor (clear .nor) },
   { instr := .norEraseSector r, op := 7, dev := .nor, ok := validAddr .nor r.addr
     reads := [], tmp := s.tmp, body := eraseEvents (BitVec.ofNat 32 (sectorBase r.addr.toNat))
     mem := Memory.erase s.nor.mem (sectorBase r.addr.toNat) Config.norSector }]

/-- What a reset leaves that cuts a program or erase frame of device `d`, the `n` bytes of storage from `lo` on being those the
frame may change (R231): idle, both devices released, those bytes any bytes (draws), every other byte of both devices and of `Buf`
as it was. That the device is then busy is the model's choice (log entry 11). -/
def CutWrite (d : Dev) (lo n : Nat) (s : State) (o : Host.Outcome State Fault Refusal) : Prop :=
  ∃ t, o = .next t ∧ t.busy = false ∧ t.phase = .idle ∧ t.outcome = .ok ∧ t.csEe = false ∧ t.csNor = false ∧
    t.fuse = none ∧ t.buf = s.buf ∧ (∀ d', d' ≠ d → t.device d' = s.device d') ∧ (t.device d).lost = none ∧
    (t.device d).dbusy = true ∧ (t.device d).busyReads = busyOfDraw (s.drawAt n) ∧
    ∀ x, Memory.read (t.device d).mem x =
      if lo ≤ x ∧ x < lo + n then byteOfDraw (s.drawAt (x - lo)) else Memory.read (s.device d).mem x

/-- A poll loop on device `d` that has done its delay and is about to read the status again (R127), with nothing else due. -/
def Waiting (d : Dev) (s : State) : Prop :=
  s.busy = true ∧ s.phase = .polling ∧ s.latch.dev = d ∧ s.frame = some (d, rdsrBytes s) ∧ s.go = false ∧
    s.inbox = [] ∧ s.fuse = none

/-! ### Requests and devices -/

/-- The mask of R106. -/
def requestMask : Word := 0xFF0000DF

/-- The host rows of the opcode table: the `match` value and the operation (R103, R106). -/
def requestTable : List (Word × (Req → Instr)) :=
  [(0x01, .eeReadByte), (0x02, .eeWriteByte), (0x03, .eeReadArray), (0x04, .eeWriteArray), (0x05, .eeSetBit),
   (0x06, .eeClearBit), (0x11, .norReadByte), (0x12, .norWriteByte), (0x13, .norReadArray), (0x14, .norWriteArray),
   (0x15, .norSetBit), (0x16, .norClearBit), (0x17, .norEraseSector)]

/-- The illegal descriptors, in the words of R105. -/
def isIllegal (w0 : Word) : Prop :=
  w0.extractLsb' 0 4 = 0 ∨ 8 ≤ (w0.extractLsb' 0 4).toNat ∨ w0.extractLsb' 6 2 ≠ 0 ∨ w0.extractLsb' 24 8 ≠ 0 ∨
    (w0.extractLsb' 0 4 = 7 ∧ w0.getLsbD 4 = false)

/-- The device an instruction acts on (R74). -/
def deviceOf : Instr → Dev
  | .eeReadByte _ => .ee
  | .eeWriteByte _ => .ee
  | .eeReadArray _ => .ee
  | .eeWriteArray _ => .ee
  | .eeSetBit _ => .ee
  | .eeClearBit _ => .ee
  | .norReadByte _ => .nor
  | .norWriteByte _ => .nor
  | .norReadArray _ => .nor
  | .norWriteArray _ => .nor
  | .norSetBit _ => .nor
  | .norClearBit _ => .nor
  | .norEraseSector _ => .nor
  | .eeWren => .ee
  | .norWren => .nor
  | .eeRdsr _ => .ee
  | .norRdsr _ => .nor
  | .eeRead _ _ => .ee
  | .norRead _ _ => .nor
  | .eeProgram _ _ => .ee
  | .norProgram _ _ => .nor
  | .norSe _ => .nor

/-- The event is not a transport operation of device `d` (R10). -/
def Event.notOn (d : Dev) : Event → Bool
  | .sel d' _ => !(decide (d' = d))
  | .x d' _ _ => !(decide (d' = d))
  | .dly d' _ => !(decide (d' = d))
  | .ph _ => true
  | .rst => true

/-! ### Bulk writes and runs -/

/-- The bytes of `Buf` that a bulk write with its cursor where `u` has it sends in chunk `c` (R125, R151). -/
def chunkBytes (u : State) (c : Nat × Nat) : List Byte :=
  Memory.readMany u.buf (u.idx.toNat + (c.1 - u.cur.toNat)) c.2

/-- The events of chunks whose waits are all over at once: one write cycle for each, the first of the list being the `j`-th from
where `u` has the cursor (R151, R152). -/
def chunkEvents (d : Dev) (u : State) : Nat → List (Nat × Nat) → List Event
  | _, [] => []
  | j, c :: cs =>
    cycleEvents d (programEvents d (BitVec.ofNat 32 c.1) (chunkBytes u c)) u.params.dummyOut
      (statusOfDraw false (u.drawAt (2 * j + 1))) ++ chunkEvents d u (j + 1) cs

/-- The chunk loop, from where `u` has it, after the chunks `cs`, the wait of each over at its first status read (R151). -/
def bulkDone (d : Dev) (u : State) (cs : List (Nat × Nat)) : State :=
  match cs.getLast? with
  | none => u
  | some c =>
    let n := (cs.map (·.2)).sum
    { ((u.skipDraws (2 * cs.length)).setDevice d ((u.device d).written
        (programMem d (u.device d).mem u.cur.toNat (Memory.readMany u.buf u.idx.toNat n)))).setCs d false with
      cur := u.cur + BitVec.ofNat 32 n
      idx := u.idx + BitVec.ofNat 32 n
      rem := u.rem - BitVec.ofNat 32 n
      clen := BitVec.ofNat 9 c.2
      st := statusOfDraw false (u.drawAt (2 * cs.length - 1))
      pollcnt := 0
      phase := .idle
      trace := u.trace ++ chunkEvents d u 0 cs }

/-- The chunk loop after one more chunk `c` whose first status read returned busy (R127); `es` are the events of its frames. -/
def bulkBusy (d : Dev) (w : State) (c : Nat × Nat) (es : List Event) : State :=
  { ((w.skipDraws 2).setDevice d ((w.device d).writing
      (programMem d (w.device d).mem w.cur.toNat (chunkBytes w c)) (lessOne (busyOfDraw (w.drawAt 0))))).setCs d false with
    clen := BitVec.ofNat 9 c.2
    st := statusOfDraw true (w.drawAt 1)
    pollcnt := 1
    trace := w.trace ++ es }

/-- That chunk, the limit not reached: the delay has been done and the loop waits (R127). -/
def bulkWaits (d : Dev) (w : State) (c : Nat × Nat) : State :=
  { bulkBusy d w c (waitingEvents d (programEvents d w.cur (chunkBytes w c)) w.params.dummyOut
      (statusOfDraw true (w.drawAt 1)) w.params.pollDelayUs) with
    phase := .polling
    frame := some (d, rdsrBytes w) }

/-- That chunk, the limit reached: no delay, and no later chunk is sent (R127, R206). -/
def bulkGivesUp (d : Dev) (w : State) (c : Nat × Nat) : State :=
  finish .deviceNotReady
    (bulkBusy d w c (cycleEvents d (programEvents d w.cur (chunkBytes w c)) w.params.dummyOut
      (statusOfDraw true (w.drawAt 1))))

/-- Every wait of the next `m` write cycles is over at its first status read (R66). -/
def ReadyEachTime (m : Nat) (s : State) : Prop := ∀ j < m, busyOfDraw (s.drawAt (2 * j)) = some 0

/-- `n` steps, stopping at the first fault or refusal. -/
def steps : Nat → State → Host.Outcome State Fault Refusal
  | 0, s => .next s
  | n + 1, s =>
    match step s with
    | .next t => steps n t
    | .fault f => .fault f
    | .refused r => .refused r

/-! ### The bus discipline (R121, R130) -/

/-- What is known of the bus after some events: the device whose frame is open, whether that frame has had an exchange, and the
device that the frame just before has write-enabled. -/
structure Bus where
  opened  : Option Dev := none
  started : Bool := false
  armed   : Option Dev := none
  wren    : Bool := false
  deriving DecidableEq, Repr

/-- One event of the bus, `none` when it breaks the discipline: one frame open at a time, exchanges only inside it and on its
device, a delay only between frames (R121); a frame begins with its opcode, and it is a program or erase frame exactly when the
frame just before was a write-enable frame of the same device (R130). A reset ends whatever was open. -/
def Bus.next (b : Bus) (e : Event) : Option Bus :=
  match e with
  | .ph _ => some b
  | .rst => some {}
  | .dly _ _ => if b = {} then some {} else none
  | .sel d true => if b.opened = none then some { opened := some d, armed := b.armed } else none
  | .sel d false =>
    if b.opened = some d ∧ b.started = true then some { armed := if b.wren then some d else none }
    else if b = {} then some {} else none
  | .x d o _ =>
    if b.opened = some d then
      if b.started then some { b with wren := false }
      else if b.armed = (if o = Config.opcProgram ∨ o = Config.opcSe then some d else none) then
        some { opened := some d, started := true, wren := decide (o = Config.opcWren) }
      else none
    else none

/-- The bus after a trace. -/
def busAfter : Bus → List Event → Option Bus
  | b, [] => some b
  | b, e :: es =>
    match b.next e with
    | some b' => busAfter b' es
    | none => none

/-- The discipline holds along the trace, and at its end no frame is open and no write-enable is left unused. -/
def busDiscipline (tr : List Event) : Bool := decide (busAfter {} tr = some {})

/-! ### The transitions of `phase` (R129) -/

/-- The table of R129, the transitions that change `phase`. -/
def phaseEdge : Phase → Phase → Bool
  | .idle, .writeEnabled => true
  | .writeEnabled, .commandIssued => true
  | .commandIssued, .polling => true
  | .polling, .idle => true
  | _, _ => false

/-- `phase` after a trace that starts in `p`, `none` when a transition is not in the table; a reset makes it `Idle` (R230). -/
def phaseAfter : Phase → List Event → Option Phase
  | p, [] => some p
  | _, .rst :: es => phaseAfter .idle es
  | p, .ph q :: es => if phaseEdge p q then phaseAfter q es else none
  | p, .sel _ _ :: es => phaseAfter p es
  | p, .x _ _ _ :: es => phaseAfter p es
  | p, .dly _ _ :: es => phaseAfter p es

/-! ### The invariant -/

/-- Every memory is in its canonical form, and no device holds a cell it does not have. -/
def memoriesWf (s : State) : Bool :=
  Memory.wf s.ee.mem && Memory.within Dev.ee.size s.ee.mem && Memory.wf s.nor.mem && Memory.within Dev.nor.size s.nor.mem &&
    Memory.wf s.buf

/-- Between two steps exclusive access is released (R24, R121 (d)); `BUSY` = 0 goes with `phase` = `Idle`, and `BUSY` = 1 is a
poll loop that has its next read-status frame ready (R129, R133, R248). -/
def controlWf (s : State) : Bool :=
  !s.csEe && !s.csNor &&
    if s.busy then
      decide (s.phase = .polling) && decide (s.frame = some (s.latch.dev, rdsrBytes s)) && !s.go
    else decide (s.phase = .idle) && decide (s.frame = none)

/-- The trace keeps the bus discipline, and its marks lead to the value `phase` has. -/
def traceWf (s : State) : Bool :=
  busDiscipline s.trace && decide (phaseAfter .idle s.trace = some s.phase)

/-- The registers of a bulk write that waits: its range is valid and its buffer present, the cursor, the rest and the index agree
with the request, and the chunk being written is not empty, inside the rest and inside one page (R151, R153). -/
def bulkWf (s : State) : Bool :=
  if s.busy && decide (s.latch.op = 4) then
    validRange s.latch.dev s.latch.addr s.latch.len && s.latch.bufv &&
      decide (s.cur.toNat = s.latch.addr.toNat + s.idx.toNat) && decide (s.idx.toNat + s.rem.toNat = s.latch.len.toNat) &&
      decide (1 ≤ s.clen.toNat) && decide (s.clen.toNat ≤ s.rem.toNat) &&
      decide (s.cur.toNat % s.latch.dev.page + s.clen.toNat ≤ s.latch.dev.page)
  else true

end Sys2Proof.Machine
end

