-- ==== Sys2Proof/Certificates/Slice0/Obligations.lean ====
section
/-! DEFINITION. The statements for the provers. OBLIGATIONS.json lists them with the rules they rest on. -/

open Sys2Proof Sys2Proof.Machine

/-! ### Encoding -/

/-- Decoding an encoded well-formed instruction gives it back, for every row of the opcode table (R94 to R98, R102, R103). -/
def Obligations.DecodeEncodeAgree : Prop :=
  ∀ i : Instr, i.wellFormed = true → decode (encode i) = .ok i

/-- The three words of a request that decodes are those its instruction encodes to: no bit is dropped (R102, R104). -/
def Obligations.RequestWordsEncodeBack : Prop :=
  ∀ (w0 w1 w2 : Word) (i : Instr), decode (.request w0 w1 w2) = .ok i → encode i = .request w0 w1 w2

/-- The bytes of a frame that decodes are those its instruction encodes to (R90 to R98). -/
def Obligations.FrameBytesEncodeBack : Prop :=
  ∀ (d : Dev) (bytes : List Byte) (i : Instr), decode (.frame d bytes) = .ok i → encode i = .frame d bytes

/-- R106: a request decodes to the row of the table whose `match` value its masked word W0 equals; exactly one row matches a
legal request and none an illegal one. -/
def Obligations.MaskedWordSelectsTheRow : Prop :=
  ∀ w0 w1 w2 : Word,
    (∀ row ∈ requestTable, w0 &&& requestMask = row.1 ↔ decode (.request w0 w1 w2) = .ok (row.2 (operandsOf w0 w1 w2))) ∧
    (¬ isIllegal w0 → ∃! row, row ∈ requestTable ∧ w0 &&& requestMask = row.1) ∧
    (isIllegal w0 → ∀ row ∈ requestTable, w0 &&& requestMask ≠ row.1)

/-- R105 and R207: a descriptor is illegal exactly in the cases R105 lists; it is accepted and ends at once with
`IllegalRequest`, without an event. That the fields of an illegal request are latched too is the model's reading (log entry 19).
-/
def Obligations.IllegalRequestEndsAtOnce : Prop :=
  (∀ w0 w1 w2 : Word, isIllegal w0 ↔ decode (.request w0 w1 w2) = .error .illegalRequest) ∧
  ∀ s : State, s.go = true → s.busy = false → s.fuse ≠ some 0 → Unobserved s → isIllegal s.reqCtrl →
    step s = .next
      { s with
        go := false
        latch := { op := s.reqCtrl.extractLsb' 0 4, dev := if s.reqCtrl.getLsbD 4 then .nor else .ee,
                   bufv := s.reqCtrl.getLsbD 5, val := s.reqCtrl.extractLsb' 8 8, bitn := s.reqCtrl.extractLsb' 16 8,
                   addr := s.reqAddr, len := s.reqLen }
        busy := false
        phase := .idle
        outcome := .illegalRequest }

/-- Words written out from R109 and from the frames of R94 to R98 decode to what they stand for. -/
def Obligations.SampleWordsDecode : Prop :=
  decode (.request 0x0000A702 5 0) = .ok (.eeWriteByte { addr := 5, val := 0xA7 }) ∧
  decode (.request 0x00020015 0 0) = .ok (.norSetBit { bitn := 2 }) ∧
  decode (.frame .nor [0x20, 0x01, 0x20, 0x00]) = .ok (.norSe 0x012000) ∧
  decode (.frame .ee [0x03, 0x01, 0xA3, 0x00]) = .ok (.eeRead 0x01A3 [0x00])

/-! ### The step -/

/-- When `GO` has issued a request that decodes to `i`, the step clears `GO` and runs `i` (R132). What one step covers is the
model's choice (log entries 1 and 7). -/
def Obligations.StepRunsTheRequest : Prop :=
  ∀ (s : State) (i : Instr), s.fuse ≠ some 0 → s.go = true →
    decode (.request s.reqCtrl s.reqAddr s.reqLen) = .ok i → step s = exec i { s with go := false }

/-- When a frame stands ready and nothing comes before it (no host move, or one that waits), the step takes it from the slot and
runs it; the sequencer then goes on from the state it left (R127). The frame slot is the model's choice (log entry 8). -/
def Obligations.StepRunsTheFrame : Prop :=
  ∀ (s : State) (d : Dev) (bytes : List Byte) (i : Instr), s.fuse ≠ some 0 → s.go = false → nextMove s = none →
    s.frame = some (d, bytes) → decode (.frame d bytes) = .ok i →
    step s =
      match exec i { s with frame := none } with
      | .next t => .next (afterFrame d bytes t)
      | .fault f => .fault f
      | .refused r => .refused r

/-- What the host reads from `STATUS` is laid out as R30 says, reserved bits zero; `GO` reads 0 (R29); the codes of `phase` are
those of R21 and the codes of the outcomes those of R201; a read changes nothing but the host's own data (R30, R247). The queue
of moves and the place of what was read are the model's choices (log entries 7 and 15). -/
def Obligations.HostReadsTheRegisters : Prop :=
  (∀ s : State,
    (statusWord s).getLsbD 0 = s.busy ∧ (statusWord s).extractLsb' 1 2 = s.phase.code ∧
    (statusWord s).getLsbD 3 = false ∧ (statusWord s).extractLsb' 4 4 = s.outcome.code ∧
    (statusWord s).extractLsb' 8 8 = s.rdata ∧ (statusWord s).extractLsb' 16 16 = 0 ∧
    readReg s .status = statusWord s ∧ readReg s .go = 0 ∧ readReg s .reqCtrl = s.reqCtrl ∧
    readReg s .reqAddr = s.reqAddr ∧ readReg s .reqLen = s.reqLen) ∧
  (Phase.idle.code = 0 ∧ Phase.writeEnabled.code = 1 ∧ Phase.commandIssued.code = 2 ∧ Phase.polling.code = 3) ∧
  (OpOutcome.ok.code = 0 ∧ OpOutcome.outOfRange.code = 1 ∧ OpOutcome.nullBuffer.code = 2 ∧
    OpOutcome.invalidBitIndex.code = 3 ∧ OpOutcome.requiresErase.code = 4 ∧ OpOutcome.deviceNotReady.code = 5 ∧
    OpOutcome.illegalRequest.code = 6 ∧ OpOutcome.unsupported.code = 7) ∧
  ∀ (s : State) (r : HostReg) (ms : List HostMove), s.fuse ≠ some 0 → s.go = false → s.inbox = .readReg r :: ms →
    step s = .next { s with inbox := ms, hostData := readReg s r }

/-- The host reads `STATUS` inside an operation (R30, R247; test vector V-FSM): from the acceptance on it reads `BUSY` = 1, in a
write cycle every value of `PHASE` in turn, also when the loop has waited, and in a `readByte` the byte before the operation has
ended. When such a move lands is counted in the values `STATUS` takes (log entry 20). -/
def Obligations.HostReadsStatusDuringAnOperation : Prop :=
  (∀ (r : Req) (s : State) (k : Nat) (ms : List HostMove), s.busy = false → s.phase = .idle →
    s.inbox = .during k (.read .status) :: ms → unobserved ms = true →
    (k = 0 → ∀ row ∈ requestTable,
      ∃ t, exec (row.2 r) s = .next t ∧ t.inbox = ms ∧ t.hostData = statusWord { s with busy := true }) ∧
    (r.addr.toNat < 512 → Quiet .ee s → ReadyAtOnce s →
      ∀ p, [Phase.idle, .writeEnabled, .commandIssued, .polling, .idle][k]? = some p →
        ∃ t, exec (.eeWriteByte r) s = .next t ∧ t.inbox = ms ∧
          t.hostData = statusWord { s with busy := true, phase := p }) ∧
    (r.addr.toNat < 512 → Quiet .ee s → k = 1 →
      ∃ t, exec (.eeReadByte r) s = .next t ∧ t.inbox = ms ∧
        t.hostData = statusWord { s with busy := true, rdata := Memory.read s.ee.mem r.addr.toNat })) ∧
  ∀ (d : Dev) (s : State) (ms : List HostMove), Waiting d { s with inbox := [] } → (s.device d).lost = none →
    s.inbox = .during 0 (.read .status) :: ms → unobserved ms = true → s.latch.op ≠ 4 →
    let ends := (s.device d).sample.1 = false ∨ ∃ n, s.params.pollLimit = some n ∧ n ≤ s.pollcnt + 1
    ∃ t, step s = .next t ∧
      (ends → t.inbox = ms ∧ t.hostData = statusWord { s with phase := .idle }) ∧
      (¬ ends → t.inbox = s.inbox ∧ t.hostData = s.hostData)

/-- The host's moves on its registers inside an operation change nothing of the operation (R73, R247): with them and without
them it ends in the same state, but for the request registers, what the host read, and the moves still to come. The same of the
step that accepts a request, legal or not, and of a step in which the sequencer goes on by itself. -/
def Obligations.HostMovesDuringAnOperation : Prop :=
  (∀ (r : Req) (s t : State), ∀ row ∈ requestTable, exec (row.2 r) { s with inbox := [] } = .next t →
    ∃ u, exec (row.2 r) s = .next u ∧
      u = { t with reqCtrl := u.reqCtrl, reqAddr := u.reqAddr, reqLen := u.reqLen, hostData := u.hostData
                   inbox := u.inbox }) ∧
  ∀ s t : State, s.go = true ∨ nextMove s = none → step { s with inbox := [] } = .next t →
    ∃ u, step s = .next u ∧
      u = { t with reqCtrl := u.reqCtrl, reqAddr := u.reqAddr, reqLen := u.reqLen, hostData := u.hostData
                   inbox := u.inbox }

/-- The moves that wait while `BUSY` = 1, and the device's own move: a host that waits for `BUSY` = 0 lets the sequencer go on
(R133); a move for a moment inside an operation is made at once when there is none; a device clears its busy flag by itself and
nothing else of the machine changes (R66). These moves are the model's choices (log entries 7, 12 and 20). -/
def Obligations.MovesThatWaitAndTheDevicesOwn : Prop :=
  ∀ (s : State) (ms : List HostMove), s.fuse ≠ some 0 → s.go = false →
    (s.inbox = .awaitIdle :: ms → s.busy = false → step s = .next { s with inbox := ms }) ∧
    (s.inbox = .awaitIdle :: ms → s.busy = true →
      ∀ t, step { s with inbox := [] } = .next t → step s = .next { t with inbox := .awaitIdle :: ms }) ∧
    (∀ k r, s.inbox = .during k (.read r) :: ms → s.busy = false →
      step s = .next { s with inbox := ms, hostData := readReg s r }) ∧
    ∀ d, s.inbox = .deviceReady d :: ms →
      ∃ t, step s = .next t ∧ (t.device d).dbusy = false ∧
        t = State.setDevice { s with inbox := ms } d { s.device d with dbusy := false, busyReads := some 0 }

/-- R29: a 1 written to `GO` issues the request while `BUSY` = 0; while `BUSY` = 1 it changes nothing and performs no event, and
a 0 does nothing. The queue of moves is the model's choice (log entry 7). -/
def Obligations.GoIsIgnoredWhileBusy : Prop :=
  ∀ (s : State) (v : Word) (ms : List HostMove), s.fuse ≠ some 0 → s.go = false →
    s.inbox = .writeReg .go v :: ms →
    step s = .next { s with inbox := ms, go := v.getLsbD 0 && !s.busy }

/-- Host writes to the request registers reach those registers and nothing else, also while an operation runs (R26, R73). The
queue of moves is the model's choice (log entry 7). -/
def Obligations.RequestRegisterWrites : Prop :=
  ∀ (s : State) (v : Word) (ms : List HostMove), s.fuse ≠ some 0 → s.go = false →
    (s.inbox = .writeReg .reqCtrl v :: ms → step s = .next { s with inbox := ms, reqCtrl := v }) ∧
    (s.inbox = .writeReg .reqAddr v :: ms → step s = .next { s with inbox := ms, reqAddr := v }) ∧
    (s.inbox = .writeReg .reqLen v :: ms → step s = .next { s with inbox := ms, reqLen := v })

/-- The host has the buffer while `BUSY` = 0 and no move on it while `BUSY` = 1 (R241, R247). The refusal is the model's choice
(log entry 14). -/
def Obligations.BufferBelongsToOneAtATime : Prop :=
  ∀ (s : State) (i : Nat) (v : Byte) (ms : List HostMove), s.fuse ≠ some 0 → s.go = false →
    (s.inbox = .writeBuf i v :: ms → s.busy = true → step s = .refused .bufferNotOwned) ∧
    (s.inbox = .readBuf i :: ms → s.busy = true → step s = .refused .bufferNotOwned) ∧
    (s.inbox = .readBuf i :: ms → s.busy = false →
      step s = .next { s with inbox := ms, hostData := (Memory.read s.buf i).setWidth 32 }) ∧
    (s.inbox = .writeBuf i v :: ms → s.busy = false →
      ∃ t, step s = .next t ∧ t = { s with inbox := ms, buf := t.buf } ∧
        ∀ x, Memory.read t.buf x = if x = i then v else Memory.read s.buf x)

/-- While `BUSY` = 1 a request changes no state (R29, R133, R216). Said of an operation run by itself, which no run from reset
does while busy (log entry 7). -/
def Obligations.RequestsAreIgnoredWhileBusy : Prop :=
  ∀ (s : State) (r : Req), s.busy = true → ∀ row ∈ requestTable, exec (row.2 r) s = .next s

/-! ### Reset -/

/-- The values that R35 states for the machine after reset: `Idle`, not busy, `Ok`, `GO` reads 0, both releases performed. The
trace's mark and the step that changes nothing are the model's choices (log entries 7 and 17). -/
def Obligations.ResetLeavesTheBlockIdle : Prop :=
  State.reset.phase = .idle ∧ State.reset.busy = false ∧ State.reset.outcome = .ok ∧ State.reset.go = false ∧
    State.reset.csEe = false ∧ State.reset.csNor = false ∧
    State.reset.trace = [.rst, .sel .ee false, .sel .nor false] ∧ step State.reset = .next State.reset

/-- A reset asserted between two steps, from any state: the stated values, the two releases in order, and the devices, the
buffer and the parameters as they were (R35, R230, R231). What it leaves in the registers R35 calls unspecified is not stated
here. The empty frame slot and the trace's mark are the model's choices (log entries 8 and 17). -/
def Obligations.ResetFromAnyState : Prop :=
  ∀ (s : State) (ms : List HostMove), s.fuse ≠ some 0 → s.go = false → s.inbox = .reset 0 :: ms →
    ∃ t, step s = .next t ∧ t.phase = .idle ∧ t.busy = false ∧ t.outcome = .ok ∧ t.go = false ∧
      t.csEe = false ∧ t.csNor = false ∧ t.trace = s.trace ++ [.rst, .sel .ee false, .sel .nor false] ∧
      t.frame = none ∧ t.ee = s.ee ∧ t.nor = s.nor ∧ t.buf = s.buf ∧ t.params = s.params ∧ t.inbox = ms

/-- A reset that strikes inside a write (R231). Inside the program or erase frame, from its assertion to the moment before its
release: the operation is abandoned, the page or sector addressed holds any bytes, and no other byte has changed; so on each
device. Before that frame storage is as it was; after it, before the status read, the device carries the program out. How the
cut device is left is the model's choice (log entry 11). -/
def Obligations.ResetInsideAWrite : Prop :=
  ∀ (r : Req) (s : State) (k : Nat), s.busy = false → s.fuse = some k →
    (r.addr.toNat < 512 → s.ee.lost = none → s.ee.dbusy = false →
      (4 ≤ k → k ≤ 8 → CutWrite .ee (r.addr.toNat - r.addr.toNat % 16) 16 s (exec (.eeWriteByte r) s)) ∧
      (k = 3 → ∃ t, exec (.eeWriteByte r) s = .next t ∧ t.busy = false ∧ t.phase = .idle ∧ t.outcome = .ok ∧
        t.ee = { s.ee.close with wel := true } ∧ t.nor = s.nor ∧ t.buf = s.buf) ∧
      (k = 9 → ∃ t, exec (.eeWriteByte r) s = .next t ∧ t.busy = false ∧ t.phase = .idle ∧ t.outcome = .ok ∧
        t.ee = s.ee.writing (Memory.write s.ee.mem r.addr.toNat r.val) (busyOfDraw (s.drawAt 0)) ∧ t.nor = s.nor ∧
        t.buf = s.buf)) ∧
    (r.addr.toNat < 0x1000000 → s.nor.lost = none → s.nor.dbusy = false →
      (11 ≤ k → k ≤ 16 → Memory.read s.nor.mem r.addr.toNat &&& r.val = r.val →
        CutWrite .nor (r.addr.toNat - r.addr.toNat % 256) 256 s (exec (.norWriteByte r) s)) ∧
      (4 ≤ k → k ≤ 8 →
        CutWrite .nor (r.addr.toNat - r.addr.toNat % 4096) 4096 s (exec (.norEraseSector r) s)))

/-- A reset that cuts the read frame of a `readArray` (R231): the operation is abandoned, storage is as it was, and `Buf` holds
the bytes that had come back, each stored as it arrived (R162 and D25; log entry 11), and else what it held. -/
def Obligations.ResetInsideAReadArray : Prop :=
  ∀ (r : Req) (s : State) (k : Nat), s.busy = false → s.fuse = some k → r.bufv = true →
    (r.addr.toNat < 512 → r.addr.toNat + r.len.toNat ≤ 512 → s.ee.lost = none → s.ee.dbusy = false → k < r.len.toNat + 5 →
      ∃ t, exec (.eeReadArray r) s = .next t ∧ t.busy = false ∧ t.phase = .idle ∧ t.outcome = .ok ∧ t.csEe = false ∧
        t.ee.mem = s.ee.mem ∧ t.nor = s.nor ∧
        ∀ x, Memory.read t.buf x =
          if x < k - 4 then Memory.read s.ee.mem (r.addr.toNat + x) else Memory.read s.buf x) ∧
    (r.addr.toNat < 0x1000000 → r.addr.toNat + r.len.toNat ≤ 0x1000000 → s.nor.lost = none → s.nor.dbusy = false →
      k < r.len.toNat + 6 →
      ∃ t, exec (.norReadArray r) s = .next t ∧ t.busy = false ∧ t.phase = .idle ∧ t.outcome = .ok ∧ t.csNor = false ∧
        t.nor.mem = s.nor.mem ∧ t.ee = s.ee ∧
        ∀ x, Memory.read t.buf x =
          if x < k - 5 then Memory.read s.nor.mem (r.addr.toNat + x) else Memory.read s.buf x)

/-! ### EEPROM operations -/

/-- `EEPROM.readByte` (R160): the byte of storage, one read frame; out of range the sentinel, and no event. -/
def Obligations.EepromReadByte : Prop :=
  ∀ (r : Req) (s : State), s.busy = false → Unobserved s →
    (r.addr.toNat < 512 → Quiet .ee s →
      exec (.eeReadByte r) s = .next
        { skipped (latchOf 1 .ee r) .ok s with
          rdata := Memory.read s.ee.mem r.addr.toNat
          ee := s.ee.close
          csEe := false
          trace := s.trace ++ readEvents .ee r.addr [s.params.dummyOut] [Memory.read s.ee.mem r.addr.toNat] }) ∧
    (512 ≤ r.addr.toNat →
      exec (.eeReadByte r) s = .next { skipped (latchOf 1 .ee r) .outOfRange s with rdata := 0xFF })

/-- `EEPROM.readArray` (R162): range, then buffer, then one read frame into `Buf`. The canonical buffer is the model's choice
(log entry 14). -/
def Obligations.EepromReadArray : Prop :=
  ∀ (r : Req) (s : State), s.busy = false → Unobserved s →
    (r.addr.toNat < 512 → r.addr.toNat + r.len.toNat ≤ 512 → r.bufv = true → Quiet .ee s →
      ∃ t, exec (.eeReadArray r) s = .next t ∧
        t = { skipped (latchOf 3 .ee r) .ok s with
              buf := t.buf
              ee := s.ee.close
              csEe := false
              trace := s.trace ++ readEvents .ee r.addr (List.replicate r.len.toNat s.params.dummyOut)
                (Memory.readMany s.ee.mem r.addr.toNat r.len.toNat) } ∧
        ∀ x, Memory.read t.buf x =
          if x < r.len.toNat then Memory.read s.ee.mem (r.addr.toNat + x) else Memory.read s.buf x) ∧
    (r.addr.toNat < 512 → r.addr.toNat + r.len.toNat ≤ 512 → r.bufv = false →
      exec (.eeReadArray r) s = .next (skipped (latchOf 3 .ee r) .nullBuffer s)) ∧
    (512 ≤ r.addr.toNat ∨ 512 < r.addr.toNat + r.len.toNat →
      exec (.eeReadArray r) s = .next (skipped (latchOf 3 .ee r) .outOfRange s))

/-- `EEPROM.writeByte` (R161) on a device that is ready at the first status read: one write cycle, the byte in storage and
nothing else of it changed, `RDATA` untouched; out of range nothing. The order and form of the draws, and the instant of the
update, are the model's choices (log entries 4 and 18). -/
def Obligations.EepromWriteByte : Prop :=
  ∀ (r : Req) (s : State), s.busy = false → Unobserved s →
    (r.addr.toNat < 512 → Quiet .ee s → ReadyAtOnce s →
      ∃ t, exec (.eeWriteByte r) s = .next t ∧
        t = { skipped (latchOf 2 .ee r) .ok s with
              st := statusOfDraw false (s.drawAt 1)
              pollcnt := 0
              ee := s.ee.written t.ee.mem
              csEe := false
              trace := s.trace ++ cycleEvents .ee (programEvents .ee r.addr [r.val]) s.params.dummyOut
                (statusOfDraw false (s.drawAt 1))
              tape := s.tape.drop 2
              drawn := s.drawn + 2 } ∧
        ∀ x, Memory.read t.ee.mem x = if x = r.addr.toNat then r.val else Memory.read s.ee.mem x) ∧
    (512 ≤ r.addr.toNat → exec (.eeWriteByte r) s = .next (skipped (latchOf 2 .ee r) .outOfRange s))

/-- `EEPROM.writeArray` (R163, R151) on a device that is ready at every first status read: one write cycle for each chunk, in
order, and `Buf` in storage. The draws are the model's choice, and the clearing of the write-enable latch rests on log entry 22
(log entries 4, 18 and 22). -/
def Obligations.EepromWriteArray : Prop :=
  ∀ (r : Req) (s : State), s.busy = false → Unobserved s → r.addr.toNat < 512 → r.addr.toNat + r.len.toNat ≤ 512 →
    r.bufv = true → Quiet .ee s → ReadyEachTime (chunks .ee r.addr.toNat r.len.toNat).length s →
    ∃ t, exec (.eeWriteArray r) s = .next t ∧
      t = finish .ok (bulkDone .ee { s with latch := latchOf 4 .ee r, busy := true, cur := r.addr, rem := r.len, idx := 0 }
        (chunks .ee r.addr.toNat r.len.toNat)) ∧
      t.cur = r.addr + r.len ∧ t.rem = 0 ∧ t.idx = r.len ∧ Quiet .ee t ∧
      (0 < r.len.toNat → t.csEe = false ∧ t.pollcnt = 0 ∧ t.ee.wel = false) ∧
      ∀ x, Memory.read t.ee.mem x =
        if r.addr.toNat ≤ x ∧ x < r.addr.toNat + r.len.toNat then
          Memory.read s.buf (x - r.addr.toNat)
        else Memory.read s.ee.mem x

/-- `EEPROM.setBit` and `EEPROM.clearBit` (R164, R165) on a device that is ready at the first status read: one read frame, one
write cycle, one bit changed; out of range or with a bad index nothing, the range first. The draws are the model's choice (log
entry 4). -/
def Obligations.EepromBitOperations : Prop :=
  ∀ (r : Req) (s : State) (i : Req → Instr) (op : BitVec 4) (f : Byte → Byte),
    (i = .eeSetBit ∧ op = 5 ∧ f = fun b => b ||| (1#8 <<< r.bitn.toNat)) ∨
      (i = .eeClearBit ∧ op = 6 ∧ f = fun b => b &&& ~~~(1#8 <<< r.bitn.toNat)) →
    s.busy = false → Unobserved s →
    (r.addr.toNat < 512 → r.bitn.toNat ≤ 7 → Quiet .ee s → ReadyAtOnce s →
      ∃ t, exec (i r) s = .next t ∧
        t = { skipped (latchOf op .ee r) .ok s with
              tmp := f (Memory.read s.ee.mem r.addr.toNat)
              st := statusOfDraw false (s.drawAt 1)
              pollcnt := 0
              ee := s.ee.written t.ee.mem
              csEe := false
              trace := s.trace ++
                readEvents .ee r.addr [s.params.dummyOut] [Memory.read s.ee.mem r.addr.toNat] ++
                cycleEvents .ee (programEvents .ee r.addr [f (Memory.read s.ee.mem r.addr.toNat)]) s.params.dummyOut
                  (statusOfDraw false (s.drawAt 1))
              tape := s.tape.drop 2
              drawn := s.drawn + 2 } ∧
        ∀ x, Memory.read t.ee.mem x =
          if x = r.addr.toNat then f (Memory.read s.ee.mem r.addr.toNat) else Memory.read s.ee.mem x) ∧
    (r.addr.toNat < 512 → 7 < r.bitn.toNat → exec (i r) s = .next (skipped (latchOf op .ee r) .invalidBitIndex s)) ∧
    (512 ≤ r.addr.toNat → exec (i r) s = .next (skipped (latchOf op .ee r) .outOfRange s))

/-! ### NOR flash operations -/

/-- `NOR.readByte` (R180). -/
def Obligations.NorReadByte : Prop :=
  ∀ (r : Req) (s : State), s.busy = false → Unobserved s →
    (r.addr.toNat < 0x1000000 → Quiet .nor s →
      exec (.norReadByte r) s = .next
        { skipped (latchOf 1 .nor r) .ok s with
          rdata := Memory.read s.nor.mem r.addr.toNat
          nor := s.nor.close
          csNor := false
          trace := s.trace ++ readEvents .nor r.addr [s.params.dummyOut] [Memory.read s.nor.mem r.addr.toNat] }) ∧
    (0x1000000 ≤ r.addr.toNat →
      exec (.norReadByte r) s = .next { skipped (latchOf 1 .nor r) .outOfRange s with rdata := 0xFF })

/-- `NOR.readArray` (R181). -/
def Obligations.NorReadArray : Prop :=
  ∀ (r : Req) (s : State), s.busy = false → Unobserved s →
    (r.addr.toNat < 0x1000000 → r.addr.toNat + r.len.toNat ≤ 0x1000000 → r.bufv = true → Quiet .nor s →
      ∃ t, exec (.norReadArray r) s = .next t ∧
        t = { skipped (latchOf 3 .nor r) .ok s with
              buf := t.buf
              nor := s.nor.close
              csNor := false
              trace := s.trace ++ readEvents .nor r.addr (List.replicate r.len.toNat s.params.dummyOut)
                (Memory.readMany s.nor.mem r.addr.toNat r.len.toNat) } ∧
        ∀ x, Memory.read t.buf x =
          if x < r.len.toNat then Memory.read s.nor.mem (r.addr.toNat + x) else Memory.read s.buf x) ∧
    (r.addr.toNat < 0x1000000 → r.addr.toNat + r.len.toNat ≤ 0x1000000 → r.bufv = false →
      exec (.norReadArray r) s = .next (skipped (latchOf 3 .nor r) .nullBuffer s)) ∧
    (0x1000000 ≤ r.addr.toNat ∨ 0x1000000 < r.addr.toNat + r.len.toNat →
      exec (.norReadArray r) s = .next (skipped (latchOf 3 .nor r) .outOfRange s))

/-- `NOR.writeByte` (R182) on a device that is ready at the first status read: the read, the clear-only predicate, and only if
it holds the write cycle; otherwise `RequiresErase` and storage as it was. The draws are the model's choice (log entry 4). -/
def Obligations.NorWriteByte : Prop :=
  ∀ (r : Req) (s : State), s.busy = false → Unobserved s →
    (r.addr.toNat < 0x1000000 → Quiet .nor s → ReadyAtOnce s →
      Memory.read s.nor.mem r.addr.toNat &&& r.val = r.val →
      ∃ t, exec (.norWriteByte r) s = .next t ∧
        t = { skipped (latchOf 2 .nor r) .ok s with
              tmp := Memory.read s.nor.mem r.addr.toNat
              st := statusOfDraw false (s.drawAt 1)
              pollcnt := 0
              nor := s.nor.written t.nor.mem
              csNor := false
              trace := s.trace ++
                readEvents .nor r.addr [s.params.dummyOut] [Memory.read s.nor.mem r.addr.toNat] ++
                cycleEvents .nor (programEvents .nor r.addr [r.val]) s.params.dummyOut (statusOfDraw false (s.drawAt 1))
              tape := s.tape.drop 2
              drawn := s.drawn + 2 } ∧
        ∀ x, Memory.read t.nor.mem x = if x = r.addr.toNat then r.val else Memory.read s.nor.mem x) ∧
    (r.addr.toNat < 0x1000000 → Quiet .nor s → Memory.read s.nor.mem r.addr.toNat &&& r.val ≠ r.val →
      exec (.norWriteByte r) s = .next
        { skipped (latchOf 2 .nor r) .requiresErase s with
          tmp := Memory.read s.nor.mem r.addr.toNat
          nor := s.nor.close
          csNor := false
          trace := s.trace ++ readEvents .nor r.addr [s.params.dummyOut] [Memory.read s.nor.mem r.addr.toNat] }) ∧
    (0x1000000 ≤ r.addr.toNat → exec (.norWriteByte r) s = .next (skipped (latchOf 2 .nor r) .outOfRange s))

/-- `NOR.writeArray` (R183, R151, R63) on a device that is ready at every first status read: one write cycle for each chunk, no
read and no test, and every byte becomes old AND new. The draws are the model's choice, and the clearing of the write-enable
latch rests on log entry 22 (log entries 4, 18 and 22). -/
def Obligations.NorWriteArray : Prop :=
  ∀ (r : Req) (s : State), s.busy = false → Unobserved s → r.addr.toNat < 0x1000000 → r.addr.toNat + r.len.toNat ≤ 0x1000000 →
    r.bufv = true → Quiet .nor s → ReadyEachTime (chunks .nor r.addr.toNat r.len.toNat).length s →
    ∃ t, exec (.norWriteArray r) s = .next t ∧
      t = finish .ok (bulkDone .nor { s with latch := latchOf 4 .nor r, busy := true, cur := r.addr, rem := r.len, idx := 0 }
        (chunks .nor r.addr.toNat r.len.toNat)) ∧
      t.cur = r.addr + r.len ∧ t.rem = 0 ∧ t.idx = r.len ∧ Quiet .nor t ∧
      (0 < r.len.toNat → t.csNor = false ∧ t.pollcnt = 0 ∧ t.nor.wel = false) ∧
      ∀ x, Memory.read t.nor.mem x =
        if r.addr.toNat ≤ x ∧ x < r.addr.toNat + r.len.toNat then
          Memory.read s.nor.mem x &&& Memory.read s.buf (x - r.addr.toNat)
        else Memory.read s.nor.mem x

/-- A `writeArray` of either device that is skipped (R163, R183, R203, R209): the range is checked first, then the buffer, and
nothing is written. -/
def Obligations.WriteArraySkipped : Prop :=
  ∀ (r : Req) (s : State), s.busy = false → Unobserved s →
    (512 ≤ r.addr.toNat ∨ 512 < r.addr.toNat + r.len.toNat →
      exec (.eeWriteArray r) s = .next (skipped (latchOf 4 .ee r) .outOfRange s)) ∧
    (r.addr.toNat < 512 → r.addr.toNat + r.len.toNat ≤ 512 → r.bufv = false →
      exec (.eeWriteArray r) s = .next (skipped (latchOf 4 .ee r) .nullBuffer s)) ∧
    (0x1000000 ≤ r.addr.toNat ∨ 0x1000000 < r.addr.toNat + r.len.toNat →
      exec (.norWriteArray r) s = .next (skipped (latchOf 4 .nor r) .outOfRange s)) ∧
    (r.addr.toNat < 0x1000000 → r.addr.toNat + r.len.toNat ≤ 0x1000000 → r.bufv = false →
      exec (.norWriteArray r) s = .next (skipped (latchOf 4 .nor r) .nullBuffer s))

/-- `NOR.setBit`, the request with `OP` = 5 and `DEV` = 1, does nothing but record `Unsupported`, whatever its operands (R184,
R208). -/
def Obligations.NorSetBitIsUnsupported : Prop :=
  (∀ (r : Req) (s : State), s.busy = false → Unobserved s →
    exec (.norSetBit r) s = .next (skipped (latchOf 5 .nor r) .unsupported s)) ∧
  ∀ w0 w1 w2 : Word, w0.extractLsb' 0 4 = 5 → w0.getLsbD 4 = true → ¬ isIllegal w0 →
    decode (.request w0 w1 w2) = .ok (.norSetBit (operandsOf w0 w1 w2))

/-- `NOR.clearBit` (R185) on a device that is ready at the first status read: two read frames, then the write cycle, one bit
cleared; out of range or with a bad index nothing, the range first. The draws are the model's choice (log entry 4). -/
def Obligations.NorClearBit : Prop :=
  ∀ (r : Req) (s : State), s.busy = false → Unobserved s →
    (r.addr.toNat < 0x1000000 → r.bitn.toNat ≤ 7 → Quiet .nor s → ReadyAtOnce s →
      ∃ t, exec (.norClearBit r) s = .next t ∧
        t = { skipped (latchOf 6 .nor r) .ok s with
              tmp := Memory.read s.nor.mem r.addr.toNat
              st := statusOfDraw false (s.drawAt 1)
              pollcnt := 0
              nor := s.nor.written t.nor.mem
              csNor := false
              trace := s.trace ++
                readEvents .nor r.addr [s.params.dummyOut] [Memory.read s.nor.mem r.addr.toNat] ++
                readEvents .nor r.addr [s.params.dummyOut] [Memory.read s.nor.mem r.addr.toNat] ++
                cycleEvents .nor
                  (programEvents .nor r.addr [Memory.read s.nor.mem r.addr.toNat &&& ~~~(1#8 <<< r.bitn.toNat)])
                  s.params.dummyOut (statusOfDraw false (s.drawAt 1))
              tape := s.tape.drop 2
              drawn := s.drawn + 2 } ∧
        ∀ x, Memory.read t.nor.mem x =
          if x = r.addr.toNat then Memory.read s.nor.mem x &&& ~~~(1#8 <<< r.bitn.toNat)
          else Memory.read s.nor.mem x) ∧
    (r.addr.toNat < 0x1000000 → 7 < r.bitn.toNat →
      exec (.norClearBit r) s = .next (skipped (latchOf 6 .nor r) .invalidBitIndex s)) ∧
    (0x1000000 ≤ r.addr.toNat → exec (.norClearBit r) s = .next (skipped (latchOf 6 .nor r) .outOfRange s))

/-- The `RequiresErase` branch of `NOR.clearBit` (R185): a device that has left its protocol may answer its two reads
differently, and when the second byte would have to gain a bit nothing is written. Its answers are draws (log entries 4 and 9).
-/
def Obligations.NorClearBitKeepsTheEraseBranch : Prop :=
  ∀ (r : Req) (s : State), s.busy = false → Unobserved s → r.addr.toNat < 0x1000000 → r.bitn.toNat ≤ 7 → s.fuse = none →
    s.nor.lost ≠ none ∨ s.nor.dbusy = true →
    let b := byteOfDraw (s.drawAt 0)
    let b2 := byteOfDraw (s.drawAt 1)
    let v := b &&& ~~~(1#8 <<< r.bitn.toNat)
    b2 &&& v ≠ v →
    exec (.norClearBit r) s = .next
      { skipped (latchOf 6 .nor r) .requiresErase s with
        tmp := b2
        nor := { s.nor.close with lost := some (s.nor.lost.getD .whileBusy) }
        csNor := false
        trace := s.trace ++ readEvents .nor r.addr [s.params.dummyOut] [b] ++ readEvents .nor r.addr [s.params.dummyOut] [b2]
        tape := s.tape.drop 2
        drawn := s.drawn + 2 }

/-- `NOR.eraseSector` (R186, R64) on a device that is ready at the first status read: the sector-erase frame with the sector
base; the 4096 bytes of the sector read 0xFF and no other byte changed. The draws are the model's choice (log entry 4). -/
def Obligations.NorEraseSector : Prop :=
  ∀ (r : Req) (s : State), s.busy = false → Unobserved s →
    (r.addr.toNat < 0x1000000 → Quiet .nor s → ReadyAtOnce s →
      ∃ t, exec (.norEraseSector r) s = .next t ∧
        t = { skipped (latchOf 7 .nor r) .ok s with
              st := statusOfDraw false (s.drawAt 1)
              pollcnt := 0
              nor := s.nor.written t.nor.mem
              csNor := false
              trace := s.trace ++
                cycleEvents .nor (eraseEvents (BitVec.ofNat 32 (r.addr.toNat - r.addr.toNat % 4096))) s.params.dummyOut
                  (statusOfDraw false (s.drawAt 1))
              tape := s.tape.drop 2
              drawn := s.drawn + 2 } ∧
        ∀ x, Memory.read t.nor.mem x =
          if x / 4096 = r.addr.toNat / 4096 then 0xFF else Memory.read s.nor.mem x) ∧
    (0x1000000 ≤ r.addr.toNat → exec (.norEraseSector r) s = .next (skipped (latchOf 7 .nor r) .outOfRange s))

/-! ### The busy-poll loop -/

/-- A write whose first status read returns busy (R127, R206), for every operation with a write cycle, and for every chunk of a
bulk write, the chunks before it ready at once: below the limit the delay follows and the loop waits; at the limit the operation
ends `DeviceNotReady` with no delay, and no later chunk is sent. That the frame has been obeyed all the same rests on log entry
18; where the step ends, the draws and the frame slot are the model's choices (log entries 1, 4 and 8). -/
def Obligations.WritesThatFindTheDeviceBusy : Prop :=
  (∀ (r : Req) (s : State), ∀ w ∈ writesOf r s, w.ok = true → s.busy = false → Unobserved s → Quiet w.dev s →
    ¬ ReadyAtOnce s →
    let st := statusOfDraw true (s.drawAt 1)
    let t := ((s.skipDraws 2).setDevice w.dev
      ((s.device w.dev).writing w.mem (lessOne (busyOfDraw (s.drawAt 0))))).setCs w.dev false
    ((s.params.pollLimit = none ∨ ∃ n, s.params.pollLimit = some n ∧ 1 < n) →
      exec w.instr s = .next
        { t with
          latch := latchOf w.op w.dev r, busy := true, phase := .polling, tmp := w.tmp, st := st, pollcnt := 1
          trace := s.trace ++ w.reads ++ waitingEvents w.dev w.body s.params.dummyOut st s.params.pollDelayUs
          frame := some (w.dev, [0x05, s.params.dummyOut]) }) ∧
    ((∃ n, s.params.pollLimit = some n ∧ n ≤ 1) →
      exec w.instr s = .next
        { skipped (latchOf w.op w.dev r) .deviceNotReady t with
          tmp := w.tmp, st := st, pollcnt := 1
          trace := s.trace ++ w.reads ++ cycleEvents w.dev w.body s.params.dummyOut st })) ∧
  ∀ (r : Req) (s : State) (d : Dev) (i : Instr) (done rest : List (Nat × Nat)) (c : Nat × Nat),
    (d = .ee ∧ i = .eeWriteArray r) ∨ (d = .nor ∧ i = .norWriteArray r) →
    s.busy = false → Unobserved s → Quiet d s → validRange d r.addr r.len = true → r.bufv = true →
    chunks d r.addr.toNat r.len.toNat = done ++ c :: rest → ReadyEachTime done.length s →
    busyOfDraw (s.drawAt (2 * done.length)) ≠ some 0 →
    let w := bulkDone d { s with latch := latchOf 4 d r, busy := true, cur := r.addr, rem := r.len, idx := 0 } done
    ((s.params.pollLimit = none ∨ ∃ n, s.params.pollLimit = some n ∧ 1 < n) → exec i s = .next (bulkWaits d w c)) ∧
    ((∃ n, s.params.pollLimit = some n ∧ n ≤ 1) → exec i s = .next (bulkGivesUp d w c))

/-- One turn of a poll loop (R127, R129, R206): the status frame; ready, an operation that is no bulk write ends `Ok`; busy,
either the limit is reached and the operation ends `DeviceNotReady` with no delay, or the delay follows and the loop waits.
Where a step ends and the draws are the model's choices (log entries 1 and 4). -/
def Obligations.OneTurnOfThePollLoop : Prop :=
  ∀ (d : Dev) (s : State), Waiting d s → (s.device d).lost = none →
    let v := (s.device d).sample
    let st := statusOfDraw v.1 (s.drawAt 0)
    let read := ((s.skipDraws 1).setDevice d v.2.close).setCs d false
    let turn := s.trace ++ rdsrEvents d s.params.dummyOut st
    (v.1 = false → s.latch.op ≠ 4 →
      step s = .next { read with
        st := st, frame := none, trace := turn ++ [.ph .idle], phase := .idle, busy := false, outcome := .ok }) ∧
    (v.1 = true → (∃ n, s.params.pollLimit = some n ∧ n ≤ s.pollcnt + 1) →
      step s = .next { read with
        st := st, pollcnt := s.pollcnt + 1, frame := none, trace := turn ++ [.ph .idle], phase := .idle, busy := false,
        outcome := .deviceNotReady }) ∧
    (v.1 = true → (s.params.pollLimit = none ∨ ∃ n, s.params.pollLimit = some n ∧ s.pollcnt + 1 < n) →
      step s = .next { read with
        st := st, pollcnt := s.pollcnt + 1, trace := turn ++ [.dly d s.params.pollDelayUs] } ∧
      Waiting d { read with
        st := st, pollcnt := s.pollcnt + 1, trace := turn ++ [.dly d s.params.pollDelayUs] })

/-- A bulk write whose wait is over (R151): it goes on with the chunks that are left, none, one or several; when the waits of
all of them are over at once it ends `Ok` with their bytes in storage; at the first whose status read returns busy the loop
waits again, or at the limit the operation ends `DeviceNotReady` and no later chunk is sent (R127, R206). Where a step ends, the
draws and the frame slot are the model's choices (log entries 1, 4 and 8); storage after a busy status read rests on log entry
18. -/
def Obligations.BulkWriteGoesOnAfterAWait : Prop :=
  ∀ (d : Dev) (s : State), Waiting d s → bulkWf s = true → s.latch.op = 4 → (s.device d).lost = none →
    (s.device d).sample.1 = false →
    let st := statusOfDraw false (s.drawAt 0)
    let u : State := { ((s.skipDraws 1).setDevice d (s.device d).sample.2.close).setCs d false with
      st := st, phase := .idle, frame := none
      trace := s.trace ++ rdsrEvents d s.params.dummyOut st ++ [.ph .idle]
      cur := s.cur + s.clen.setWidth 32, idx := s.idx + s.clen.setWidth 32, rem := s.rem - s.clen.setWidth 32 }
    let cs := chunks d u.cur.toNat u.rem.toNat
    (ReadyEachTime cs.length u → step s = .next (finish .ok (bulkDone d u cs))) ∧
    ∀ done c rest, cs = done ++ c :: rest → ReadyEachTime done.length u →
      busyOfDraw (u.drawAt (2 * done.length)) ≠ some 0 →
      ((s.params.pollLimit = none ∨ ∃ n, s.params.pollLimit = some n ∧ 1 < n) →
        step s = .next (bulkWaits d (bulkDone d u done) c)) ∧
      ((∃ n, s.params.pollLimit = some n ∧ n ≤ 1) → step s = .next (bulkGivesUp d (bulkDone d u done) c))

/-- R237: with no limit, on a device that never clears its busy flag, the loop runs for ever: after any number of steps `BUSY`
is 1 and `phase` is `Polling`. One turn of the loop is one step (log entry 1). -/
def Obligations.UnboundedWaitNeverEnds : Prop :=
  ∀ (d : Dev) (s : State), Waiting d s → (s.device d).lost = none → (s.device d).dbusy = true →
    (s.device d).busyReads = none → s.params.pollLimit = none →
    ∀ n, ∃ t, steps n s = .next t ∧ t.busy = true ∧ t.phase = .polling ∧ (t.device d).mem = (s.device d).mem

/-- With no limit, on a device that is busy for `n` more status reads, the operation ends `Ok` in exactly `n + 1` steps, and not
earlier (R66, R127). One turn of the loop is one step (log entry 1). -/
def Obligations.FiniteWaitEndsOk : Prop :=
  ∀ (d : Dev) (s : State) (n : Nat), Waiting d s → s.latch.op ≠ 4 → (s.device d).lost = none →
    (s.device d).dbusy = true → (s.device d).busyReads = some n → s.params.pollLimit = none →
    (∃ t, steps (n + 1) s = .next t ∧ t.busy = false ∧ t.phase = .idle ∧ t.outcome = .ok ∧ t.latch = s.latch ∧
      (t.device d).dbusy = false ∧ (t.device d).mem = (s.device d).mem) ∧
    ∀ k ≤ n, ∃ t, steps k s = .next t ∧ t.busy = true

/-! ### Wire frames -/

/-- `EE.WREN` and `NOR.WREN` set the write-enable latch (R61, R94, R122). Frames by themselves are the model's reading of the
table (log entries 8 and 23). -/
def Obligations.WriteEnableFrames : Prop :=
  ∀ s : State,
    (Quiet .ee s → exec .eeWren s = .next
      { s with ee := { s.ee.close with wel := true }, csEe := false
               trace := s.trace ++ [.sel .ee true, .x .ee 0x06 none, .sel .ee false] }) ∧
    (Quiet .nor s → exec .norWren s = .next
      { s with nor := { s.nor.close with wel := true }, csNor := false
               trace := s.trace ++ [.sel .nor true, .x .nor 0x06 none, .sel .nor false] })

/-- `EE.RDSR` and `NOR.RDSR` give a status byte whose bit 0 is the busy flag sampled, whatever the device is doing (R65, R95,
R123). Frames by themselves are the model's reading of the table (log entries 4, 8 and 23). -/
def Obligations.ReadStatusFrames : Prop :=
  ∀ (s : State) (x : Byte), s.fuse = none →
    (s.ee.lost = none →
      ∃ st : Byte, st.getLsbD 0 = s.ee.sample.1 ∧ exec (.eeRdsr x) s = .next
        { s with ee := s.ee.sample.2.close, csEe := false, st := st, tape := s.tape.drop 1, drawn := s.drawn + 1
                 trace := s.trace ++ [.sel .ee true, .x .ee 0x05 none, .x .ee x (some st), .sel .ee false] }) ∧
    (s.nor.lost = none →
      ∃ st : Byte, st.getLsbD 0 = s.nor.sample.1 ∧ exec (.norRdsr x) s = .next
        { s with nor := s.nor.sample.2.close, csNor := false, st := st, tape := s.tape.drop 1, drawn := s.drawn + 1
                 trace := s.trace ++ [.sel .nor true, .x .nor 0x05 none, .x .nor x (some st), .sel .nor false] })

/-- `EE.READ` and `NOR.READ` give back the bytes of storage and change nothing of it (R58, R60, R96, R124); past the end of the
device they are refused. The refusal is the choice of U17 (log entry 16). -/
def Obligations.ReadFrames : Prop :=
  ∀ s : State,
    (∀ (a : BitVec 16) (outs : List Byte),
      (a.toNat < 512 → a.toNat + outs.length ≤ 512 → Quiet .ee s →
        exec (.eeRead a outs) s = .next
          { s with ee := s.ee.close, csEe := false
                   trace := s.trace ++ readEvents .ee (a.setWidth 32) outs
                     (Memory.readMany s.ee.mem a.toNat outs.length) }) ∧
      (512 ≤ a.toNat ∨ 512 < a.toNat + outs.length →
        exec (.eeRead a outs) s = .refused (.readPastEnd .ee a.toNat outs.length))) ∧
    ∀ (a : BitVec 24) (outs : List Byte),
      (a.toNat + outs.length ≤ 0x1000000 → Quiet .nor s →
        exec (.norRead a outs) s = .next
          { s with nor := s.nor.close, csNor := false
                   trace := s.trace ++ readEvents .nor (a.setWidth 32) outs
                     (Memory.readMany s.nor.mem a.toNat outs.length) }) ∧
      (0x1000000 < a.toNat + outs.length →
        exec (.norRead a outs) s = .refused (.readPastEnd .nor a.toNat outs.length))

/-- `EE.PROGRAM` stores (R62), `NOR.PROGRAM` ANDs (R63), after a write-enable, inside one page; the device is then busy for a
drawn time and its latch is clear. The instant of the update and the clearing of the latch rest on log entries 18 and 22. -/
def Obligations.ProgramFrames : Prop :=
  ∀ s : State,
    (∀ (a : BitVec 16) (data : List Byte),
      a.toNat < 512 → 1 ≤ data.length → a.toNat % 16 + data.length ≤ 16 → Quiet .ee s → s.ee.wel = true →
      ∃ t, exec (.eeProgram a data) s = .next t ∧
        t = { s with
              ee := { s.ee with mem := t.ee.mem, dbusy := true, busyReads := busyOfDraw (s.drawAt 0), wel := false,
                                counter := 0, rx := [] }
              csEe := false, tape := s.tape.drop 1, drawn := s.drawn + 1
              trace := s.trace ++ programEvents .ee (a.setWidth 32) data } ∧
        ∀ x, Memory.read t.ee.mem x =
          if a.toNat ≤ x ∧ x < a.toNat + data.length then data.getD (x - a.toNat) 0 else Memory.read s.ee.mem x) ∧
    ∀ (a : BitVec 24) (data : List Byte),
      1 ≤ data.length → a.toNat % 256 + data.length ≤ 256 → Quiet .nor s → s.nor.wel = true →
      ∃ t, exec (.norProgram a data) s = .next t ∧
        t = { s with
              nor := { s.nor with mem := t.nor.mem, dbusy := true, busyReads := busyOfDraw (s.drawAt 0), wel := false,
                                  counter := 0, rx := [] }
              csNor := false, tape := s.tape.drop 1, drawn := s.drawn + 1
              trace := s.trace ++ programEvents .nor (a.setWidth 32) data } ∧
        ∀ x, Memory.read t.nor.mem x =
          if a.toNat ≤ x ∧ x < a.toNat + data.length then Memory.read s.nor.mem x &&& data.getD (x - a.toNat) 0
          else Memory.read s.nor.mem x

/-- `NOR.SE` sets the 4096 bytes of the sector to 0xFF and no other byte, after a write-enable (R64, R98, R126). The instant of
the update and the clearing of the latch rest on log entries 18 and 22. -/
def Obligations.SectorEraseFrame : Prop :=
  ∀ (s : State) (a : BitVec 24), Quiet .nor s → s.nor.wel = true →
    ∃ t, exec (.norSe a) s = .next t ∧
      t = { s with
            nor := { s.nor with mem := t.nor.mem, dbusy := true, busyReads := busyOfDraw (s.drawAt 0), wel := false,
                                counter := 0, rx := [] }
            csNor := false, tape := s.tape.drop 1, drawn := s.drawn + 1
            trace := s.trace ++ eraseEvents (a.setWidth 32) } ∧
      ∀ x, Memory.read t.nor.mem x = if x / 4096 = a.toNat / 4096 then 0xFF else Memory.read s.nor.mem x

/-- R68 (a), (b), (c), for every such frame of both devices: a program or erase frame without a write-enable, a program frame
across a page, and any frame but read-status to a busy device record the fault of the device model, leave its storage, and
change nothing else but the trace. How the fault is kept is the model's choice (log entry 9); a read's answers are then draws.
-/
def Obligations.FramesOutsideThePreconditions : Prop :=
  ∀ s : State,
    (Quiet .ee s → s.ee.wel = false → ∀ (a : BitVec 16) (data : List Byte), a.toNat < 512 → 1 ≤ data.length →
      exec (.eeProgram a data) s = .next (misused .ee .noWriteEnable 0 (programEvents .ee (a.setWidth 32) data) s)) ∧
    (Quiet .nor s → s.nor.wel = false →
      (∀ (a : BitVec 24) (data : List Byte), 1 ≤ data.length →
        exec (.norProgram a data) s = .next (misused .nor .noWriteEnable 0 (programEvents .nor (a.setWidth 32) data) s)) ∧
      ∀ a : BitVec 24, exec (.norSe a) s = .next (misused .nor .noWriteEnable 0 (eraseEvents (a.setWidth 32)) s)) ∧
    (Quiet .ee s → s.ee.wel = true → ∀ (a : BitVec 16) (data : List Byte), a.toNat < 512 →
      16 < a.toNat % 16 + data.length → 1 ≤ data.length →
      exec (.eeProgram a data) s = .next (misused .ee .pageCrossed 0 (programEvents .ee (a.setWidth 32) data) s)) ∧
    (Quiet .nor s → s.nor.wel = true → ∀ (a : BitVec 24) (data : List Byte), 256 < a.toNat % 256 + data.length →
      1 ≤ data.length →
      exec (.norProgram a data) s = .next (misused .nor .pageCrossed 0 (programEvents .nor (a.setWidth 32) data) s)) ∧
    (s.fuse = none → s.ee.lost = none → s.ee.dbusy = true →
      exec .eeWren s = .next (misused .ee .whileBusy 0 (wrenEvents .ee) s) ∧
      (∀ (a : BitVec 16) (outs : List Byte), a.toNat < 512 → a.toNat + outs.length ≤ 512 →
        exec (.eeRead a outs) s = .next (misused .ee .whileBusy outs.length
          (readEvents .ee (a.setWidth 32) outs (drawnBytes outs.length s)) s)) ∧
      ∀ (a : BitVec 16) (data : List Byte), a.toNat < 512 →
        exec (.eeProgram a data) s = .next (misused .ee .whileBusy 0 (programEvents .ee (a.setWidth 32) data) s)) ∧
    (s.fuse = none → s.nor.lost = none → s.nor.dbusy = true →
      exec .norWren s = .next (misused .nor .whileBusy 0 (wrenEvents .nor) s) ∧
      (∀ (a : BitVec 24) (outs : List Byte), a.toNat + outs.length ≤ 0x1000000 →
        exec (.norRead a outs) s = .next (misused .nor .whileBusy outs.length
          (readEvents .nor (a.setWidth 32) outs (drawnBytes outs.length s)) s)) ∧
      (∀ (a : BitVec 24) (data : List Byte),
        exec (.norProgram a data) s = .next (misused .nor .whileBusy 0 (programEvents .nor (a.setWidth 32) data) s)) ∧
      ∀ a : BitVec 24, exec (.norSe a) s = .next (misused .nor .whileBusy 0 (eraseEvents (a.setWidth 32)) s))

/-- A program frame of the EEPROM at an address outside its 512 bytes stops: there is no such storage (R51). The stop is the
model's choice (log entry 16). -/
def Obligations.ProgramFrameOutsideTheEeprom : Prop :=
  ∀ (s : State) (a : BitVec 16) (data : List Byte), 512 ≤ a.toNat →
    exec (.eeProgram a data) s = .fault (.noSuchAddress .ee a.toNat)

/-! ### Address arithmetic -/

/-- R153: the chunks of a bulk write follow each other from the start address and sum to the length (a), lie each in one page
(b), (f), start on a page boundary but the first and are whole pages but the first and the last (c), are as many as the pages
touched (d), and never pass the end of the device (e). -/
def Obligations.ChunksCutAtPageBoundaries : Prop :=
  ∀ (d : Dev) (a n : Nat), a < d.size → a + n ≤ d.size →
    let cs := chunks d a n
    (cs.map (·.2)).sum = n ∧
    (∀ j (h : j < cs.length), (cs[j]).1 = a + ((cs.take j).map (·.2)).sum) ∧
    (∀ c ∈ cs, c.1 % d.page + c.2 ≤ d.page ∧ 1 ≤ c.2 ∧ c.2 ≤ d.page ∧ c.1 + c.2 ≤ a + n) ∧
    (∀ j (h : j < cs.length), 0 < j → (cs[j]).1 % d.page = 0) ∧
    (∀ j (h : j < cs.length), 0 < j → j + 1 < cs.length → (cs[j]).2 = d.page) ∧
    cs.length = (if n = 0 then 0 else (a % d.page + n + (d.page - 1)) / d.page)

/-- R156: the sector base is `a - (a mod 4096)`, which is `a` with its low 12 bits cleared; it is at or below the address, at a
multiple of 4096, less than a sector away; the corner cases. The EEPROM has no sectors: no frame of it is a sector erase. -/
def Obligations.SectorBaseOfAnAddress : Prop :=
  (∀ a, sectorBase a = a - a % 4096 ∧ sectorBase a ≤ a ∧ sectorBase a % 4096 = 0 ∧ a - sectorBase a ≤ 4095) ∧
    (∀ w : Word, sectorBase w.toNat = (w &&& 0xFFFFF000).toNat) ∧
    sectorBase 0 = 0 ∧ sectorBase 0xFFF = 0 ∧ sectorBase 0x1000 = 0x1000 ∧ sectorBase 0xFFFFFF = 0xFFF000 ∧
    sectorBase 0x012345 = 0x012000 ∧
    ∀ (bytes : List Byte) (i : Instr), decode (.frame .ee bytes) = .ok i → bytes.head? ≠ some 0x20

/-! ### Whole-machine rules -/

/-- R74: an operation or frame of one device performs events on that device alone and leaves the other device as it was: of each
instruction, of the step that accepts a request, legal or not, and of every later step of the operation. -/
def Obligations.TheOtherDeviceIsLeftAlone : Prop :=
  ∀ (s t : State) (d : Dev), s.fuse = none →
    (∃ i, d ≠ deviceOf i ∧ exec i s = .next t) ∨
      (step s = .next t ∧ s.go = true ∧ ∀ i, decode (.request s.reqCtrl s.reqAddr s.reqLen) = .ok i → d ≠ deviceOf i) ∨
      (step s = .next t ∧ s.go = false ∧ nextMove s = none ∧ ∀ e bytes, s.frame = some (e, bytes) → d ≠ e) →
    t.device d = s.device d ∧ t.cs d = s.cs d ∧
      ∃ es : List Event, t.trace = s.trace ++ es ∧ ∀ e ∈ es, e.notOn d = true

/-- R248, R238: on a device that is ready, an operation that ends within its first step with any code but `DeviceNotReady`
leaves the device ready for the next. `Quiet` adds that the device follows its protocol and no reset is due (log entries 9 and
11). -/
def Obligations.OperationsLeaveTheDeviceReady : Prop :=
  ∀ (r : Req) (s t : State), ∀ row ∈ requestTable, s.busy = false → Quiet (deviceOf (row.2 r)) s →
    exec (row.2 r) s = .next t → t.busy = false → t.outcome ≠ .deviceNotReady → Quiet (deviceOf (row.2 r)) t

/-- R63, R236: whatever a NOR `writeByte`, `writeArray` or `clearBit` does, and however its device answers, no bit of storage
goes from 0 to 1; nor in any later step of an operation that is under way, the next chunks of a bulk write among them. -/
def Obligations.NorWritesNeverSetABit : Prop :=
  ∀ (r : Req) (s t : State), s.fuse = none →
    (exec (.norWriteByte r) s = .next t ∨ exec (.norWriteArray r) s = .next t ∨ exec (.norClearBit r) s = .next t ∨
      (step s = .next t ∧ s.go = false ∧ nextMove s = none ∧
        ∀ e bytes, s.frame = some (e, bytes) → bytes.head? ≠ some 0x20)) →
    ∀ x, Memory.read t.nor.mem x &&& Memory.read s.nor.mem x = Memory.read t.nor.mem x

/-- R58: reads and status reads change no storage of either device, whatever state the device is in. -/
def Obligations.ReadsChangeNoStorage : Prop :=
  ∀ (r : Req) (x : Byte) (a : BitVec 16) (b : BitVec 24) (outs : List Byte) (s t : State), s.fuse = none →
    (exec (.eeReadByte r) s = .next t ∨ exec (.norReadByte r) s = .next t ∨ exec (.eeReadArray r) s = .next t ∨
      exec (.norReadArray r) s = .next t ∨ exec (.eeRdsr x) s = .next t ∨ exec (.norRdsr x) s = .next t ∨
      exec (.eeRead a outs) s = .next t ∨ exec (.norRead b outs) s = .next t) →
    t.ee.mem = s.ee.mem ∧ t.nor.mem = s.nor.mem

/-- E1, R70 (a): a byte written to the EEPROM is the byte read back, however many status reads the write had to wait for. One
turn of the wait is one step (log entry 1), the busy time is a draw (log entry 4). -/
def Obligations.EepromReadsBackWhatWasWritten : Prop :=
  ∀ (r q : Req) (s : State) (n : Nat), s.busy = false → s.go = false → s.inbox = [] → Quiet .ee s →
    busyOfDraw (s.drawAt 0) = some n → s.params.pollLimit = none → r.addr.toNat < 512 → q.addr = r.addr →
    ∃ t u v, exec (.eeWriteByte r) s = .next t ∧ steps n t = .next u ∧ u.busy = false ∧ u.outcome = .ok ∧
      exec (.eeReadByte q) u = .next v ∧ v.rdata = r.val ∧ v.outcome = .ok

/-- R182, R186: after an erase of its sector, any value can be written to a NOR byte and is the byte read back. -/
def Obligations.NorEraseThenWriteThenRead : Prop :=
  ∀ (e r q : Req) (s : State), s.busy = false → Unobserved s → Quiet .nor s → ReadyEachTime 2 s → r.addr.toNat < 0x1000000 →
    e.addr.toNat < 0x1000000 → e.addr.toNat / 4096 = r.addr.toNat / 4096 → q.addr = r.addr →
    ∃ t u v, exec (.norEraseSector e) s = .next t ∧ exec (.norWriteByte r) t = .next u ∧
      exec (.norReadByte q) u = .next v ∧ u.outcome = .ok ∧ v.rdata = r.val ∧ v.outcome = .ok

/-- R37: no step changes the parameters. -/
def Obligations.ParametersNeverChange : Prop :=
  ∀ s t : State, step s = .next t → t.params = s.params

/-! ### Invariants -/

/-- The machine after reset meets the four parts of the invariant. The empty memories are the model's choice (log entries 2 and
14). -/
def Obligations.ResetMeetsTheInvariant : Prop :=
  memoriesWf State.reset = true ∧ controlWf State.reset = true ∧ traceWf State.reset = true ∧
    bulkWf State.reset = true

/-- Every step keeps the memories in their canonical form and inside their devices, whatever else holds of the state (R50, R53).
The canonical form is the model's choice (log entry 2). -/
def Obligations.StepKeepsTheMemories : Prop :=
  ∀ s t : State, memoriesWf s = true → step s = .next t → memoriesWf t = true

/-- Every step keeps the invariant. Of the sequencer: exclusive access released, `BUSY` = 0 only with `phase` = `Idle`, `BUSY` =
1 only in a poll loop with its next status frame ready (R24, R129, R133, R248). Of the bus: exchanges only inside a frame of
their own device, frames never nested, a write-enable frame right before every program and erase frame and one for each, no
delay inside a frame (R121, R130). Of `phase`: no transition outside the table (R129). That a waiting loop has its frame in the
slot is the model's choice (log entries 1, 8 and 17). -/
def Obligations.StepKeepsTheInvariant : Prop :=
  ∀ s t : State, memoriesWf s = true → controlWf s = true → traceWf s = true → step s = .next t →
    memoriesWf t = true ∧ controlWf t = true ∧ traceWf t = true

/-- Every step keeps the registers of a bulk write that waits: the range valid, the cursor, the rest and the index in agreement
with the request, the chunk inside its page (R151, R153). That a wait ends the step is the model's choice (log entry 1). -/
def Obligations.StepKeepsTheBulkRegisters : Prop :=
  ∀ s t : State, bulkWf s = true → step s = .next t → bulkWf t = true
end

