-- ==== Sys2Proof/Laws/Memory.lean ====
section
/-! SUPPORT. The laws of memory: what a read gives after each write, and that every memory operation keeps the canonical form. -/

namespace Sys2Proof.Machine

/-! ### Reads after writes -/

theorem Memory.read_remove (m : List Host.Cell) (a b : Nat) :
    Memory.read (Memory.remove m a) b = if b = a then Config.unlistedByte else Memory.read m b := by
  induction m with
  | nil => simp [Memory.remove, Memory.read]
  | cons c m ih =>
    obtain ⟨k, w⟩ := c
    by_cases hk : k = a
    · have hr : Memory.remove ((k, w) :: m) a = Memory.remove m a := by simp [Memory.remove, hk]
      rw [hr, ih]
      by_cases hb : b = a
      · simp [hb]
      · have : k ≠ b := by omega
        simp [hb, Memory.read, this]
    · have hr : Memory.remove ((k, w) :: m) a = (k, w) :: Memory.remove m a := by simp [Memory.remove, hk]
      rw [hr]
      by_cases hb : k = b
      · subst hb; simp [Memory.read, hk]
      · simp [Memory.read, hb, ih]

theorem Memory.read_insert (m : List Host.Cell) (a b : Nat) (v : Byte) (h : ∀ c ∈ m, c.1 ≠ a) :
    Memory.read (Memory.insert m a v) b = if b = a then v else Memory.read m b := by
  induction m with
  | nil =>
    by_cases hb : b = a
    · simp [Memory.insert, Memory.read, hb]
    · have : a ≠ b := fun e => hb e.symm
      simp [Memory.insert, Memory.read, hb, this]
  | cons c m ih =>
    obtain ⟨k, w⟩ := c
    have hk : k ≠ a := h (k, w) (by simp)
    have ih' := ih fun c hc => h c (by simp [hc])
    by_cases hlt : a < k
    · by_cases hb : b = a
      · simp [Memory.insert, hlt, Memory.read, hb]
      · have : a ≠ b := fun e => hb e.symm
        simp [Memory.insert, hlt, Memory.read, hb, this]
    · by_cases hb : k = b
      · subst hb
        simp [Memory.insert, hlt, Memory.read, hk]
      · simp [Memory.insert, hlt, Memory.read, hb, ih']

/-- A read after a write to the same place gives the value written; every other place is left alone. -/
theorem Memory.read_write (m : List Host.Cell) (a b : Nat) (v : Byte) :
    Memory.read (Memory.write m a v) b = if b = a then v else Memory.read m b := by
  unfold Memory.write
  by_cases hv : v = Config.unlistedByte
  · simp [hv, Memory.read_remove]
  · rw [if_neg hv, Memory.read_insert _ _ _ _ (by simp [Memory.remove]), Memory.read_remove]
    by_cases hb : b = a <;> simp [hb]

@[simp] theorem Memory.read_write_same (m : List Host.Cell) (a : Nat) (v : Byte) :
    Memory.read (Memory.write m a v) a = v := by simp [Memory.read_write]

theorem Memory.read_write_other (m : List Host.Cell) {a b : Nat} (v : Byte) (h : b ≠ a) :
    Memory.read (Memory.write m a v) b = Memory.read m b := by simp [Memory.read_write, h]

@[simp] theorem Memory.length_readMany (m : List Host.Cell) (a n : Nat) : (Memory.readMany m a n).length = n := by
  induction n generalizing a with
  | zero => rfl
  | succ n ih => simp [Memory.readMany, ih]

theorem Memory.getD_readMany (m : List Host.Cell) (a n j : Nat) (x : Byte) (h : j < n) :
    (Memory.readMany m a n).getD j x = Memory.read m (a + j) := by
  induction n generalizing a j with
  | zero => omega
  | succ n ih =>
    cases j with
    | zero => simp [Memory.readMany]
    | succ j =>
      have := ih (a + 1) j (by omega)
      simp only [Memory.readMany, List.getD_cons_succ]
      rw [this, show a + 1 + j = a + (j + 1) by omega]

/-- Byte `j` of the data is at `a + j`, and nothing else changed (R62). -/
theorem Memory.read_writeMany (m : List Host.Cell) (a b : Nat) (vs : List Byte) :
    Memory.read (Memory.writeMany m a vs) b =
      if a ≤ b ∧ b < a + vs.length then vs.getD (b - a) 0 else Memory.read m b := by
  induction vs generalizing m a with
  | nil => simp [Memory.writeMany]
  | cons v vs ih =>
    rw [Memory.writeMany, ih, Memory.read_write]
    by_cases h1 : a + 1 ≤ b ∧ b < a + 1 + vs.length
    · have h2 : a ≤ b ∧ b < a + (v :: vs).length := by simp only [List.length_cons]; omega
      obtain ⟨k, rfl⟩ : ∃ k, b = a + 1 + k := ⟨b - (a + 1), by omega⟩
      rw [if_pos h1, if_pos h2, show a + 1 + k - a = k + 1 by omega, show a + 1 + k - (a + 1) = k by omega,
        List.getD_cons_succ]
    · rw [if_neg h1]
      by_cases hb : b = a
      · subst hb; simp
      · have h2 : ¬ (a ≤ b ∧ b < a + (v :: vs).length) := by simp only [List.length_cons]; omega
        rw [if_neg hb, if_neg h2]

/-- Byte `j` of the data is ANDed into `a + j`, and nothing else changed (R63). -/
theorem Memory.read_andMany (m : List Host.Cell) (a b : Nat) (vs : List Byte) :
    Memory.read (Memory.andMany m a vs) b =
      if a ≤ b ∧ b < a + vs.length then Memory.read m b &&& vs.getD (b - a) 0 else Memory.read m b := by
  induction vs generalizing m a with
  | nil => simp [Memory.andMany]
  | cons v vs ih =>
    rw [Memory.andMany, ih, Memory.read_write]
    by_cases h1 : a + 1 ≤ b ∧ b < a + 1 + vs.length
    · have h2 : a ≤ b ∧ b < a + (v :: vs).length := by simp only [List.length_cons]; omega
      obtain ⟨k, rfl⟩ : ∃ k, b = a + 1 + k := ⟨b - (a + 1), by omega⟩
      have hne : a + 1 + k ≠ a := by omega
      rw [if_pos h1, if_pos h2, if_neg hne, show a + 1 + k - a = k + 1 by omega,
        show a + 1 + k - (a + 1) = k by omega, List.getD_cons_succ]
    · rw [if_neg h1]
      by_cases hb : b = a
      · subst hb; simp
      · have h2 : ¬ (a ≤ b ∧ b < a + (v :: vs).length) := by simp only [List.length_cons]; omega
        rw [if_neg hb, if_neg h2]

/-- The erased range reads the erased value, and nothing else changed (R64). -/
theorem Memory.read_erase (m : List Host.Cell) (lo n b : Nat) :
    Memory.read (Memory.erase m lo n) b =
      if lo ≤ b ∧ b < lo + n then Config.unlistedByte else Memory.read m b := by
  induction m with
  | nil => simp [Memory.erase, Memory.read]
  | cons c m ih =>
    obtain ⟨k, w⟩ := c
    by_cases hk : lo ≤ k ∧ k < lo + n
    · have hr : Memory.erase ((k, w) :: m) lo n = Memory.erase m lo n := by simp [Memory.erase, hk.1, hk.2]
      rw [hr, ih]
      by_cases hb : lo ≤ b ∧ b < lo + n
      · simp [hb]
      · have : k ≠ b := by rintro rfl; exact hb hk
        simp [hb, Memory.read, this]
    · have hr : Memory.erase ((k, w) :: m) lo n = (k, w) :: Memory.erase m lo n := by
        have : ¬ lo ≤ k ∨ ¬ k < lo + n := by omega
        simp only [Memory.erase, List.filter_cons]
        rcases this with h | h <;> simp [h]
      rw [hr]
      by_cases hb : k = b
      · subst hb; simp [Memory.read, hk]
      · simp [Memory.read, hb, ih]

/-! ### The canonical form -/

theorem Memory.wfFrom_mono {lo lo' : Nat} {m : List Host.Cell} (h : lo' ≤ lo) (hw : Memory.wfFrom lo m = true) :
    Memory.wfFrom lo' m = true := by
  cases m with
  | nil => rfl
  | cons c m =>
    obtain ⟨k, w⟩ := c
    simp only [Memory.wfFrom, Bool.and_eq_true, decide_eq_true_eq] at hw ⊢
    exact ⟨⟨by omega, hw.1.2⟩, hw.2⟩

theorem Memory.wfFrom_filter (p : Host.Cell → Bool) {lo : Nat} {m : List Host.Cell}
    (hw : Memory.wfFrom lo m = true) : Memory.wfFrom lo (m.filter p) = true := by
  induction m generalizing lo with
  | nil => rfl
  | cons c m ih =>
    obtain ⟨k, w⟩ := c
    simp only [Memory.wfFrom, Bool.and_eq_true, decide_eq_true_eq] at hw
    rw [List.filter_cons]
    split
    · simp only [Memory.wfFrom, Bool.and_eq_true, decide_eq_true_eq]
      exact ⟨hw.1, ih hw.2⟩
    · exact Memory.wfFrom_mono (by omega) (ih hw.2)

theorem Memory.wfFrom_insert {lo a : Nat} {v : Byte} {m : List Host.Cell} (hv : v ≠ Config.unlistedByte)
    (ha : lo ≤ a) (hm : ∀ c ∈ m, c.1 ≠ a) (hw : Memory.wfFrom lo m = true) :
    Memory.wfFrom lo (Memory.insert m a v) = true := by
  induction m generalizing lo with
  | nil => simp [Memory.insert, Memory.wfFrom, ha, hv]
  | cons c m ih =>
    obtain ⟨k, w⟩ := c
    have hk : k ≠ a := hm (k, w) (by simp)
    simp only [Memory.wfFrom, Bool.and_eq_true, decide_eq_true_eq] at hw
    unfold Memory.insert
    split
    · simp only [Memory.wfFrom, Bool.and_eq_true, decide_eq_true_eq]
      exact ⟨⟨ha, by simp [hv]⟩, ⟨by omega, hw.1.2⟩, hw.2⟩
    · simp only [Memory.wfFrom, Bool.and_eq_true, decide_eq_true_eq]
      exact ⟨hw.1, ih (by omega) (fun c hc => hm c (by simp [hc])) hw.2⟩

theorem Memory.wf_write {m : List Host.Cell} (a : Nat) (v : Byte) (hw : Memory.wf m = true) :
    Memory.wf (Memory.write m a v) = true := by
  unfold Memory.write
  split
  · exact Memory.wfFrom_filter _ hw
  · rename_i hv
    exact Memory.wfFrom_insert hv (by omega) (by simp [Memory.remove]) (Memory.wfFrom_filter _ hw)

theorem Memory.wf_writeMany {m : List Host.Cell} (a : Nat) (vs : List Byte) (hw : Memory.wf m = true) :
    Memory.wf (Memory.writeMany m a vs) = true := by
  induction vs generalizing m a with
  | nil => exact hw
  | cons v vs ih => exact ih _ (Memory.wf_write _ _ hw)

theorem Memory.wf_andMany {m : List Host.Cell} (a : Nat) (vs : List Byte) (hw : Memory.wf m = true) :
    Memory.wf (Memory.andMany m a vs) = true := by
  induction vs generalizing m a with
  | nil => exact hw
  | cons v vs ih => exact ih _ (Memory.wf_write _ _ hw)

theorem Memory.wf_erase {m : List Host.Cell} (lo n : Nat) (hw : Memory.wf m = true) :
    Memory.wf (Memory.erase m lo n) = true := Memory.wfFrom_filter _ hw

theorem Memory.wf_programMem {m : List Host.Cell} (d : Dev) (a : Nat) (vs : List Byte) (hw : Memory.wf m = true) :
    Memory.wf (programMem d m a vs) = true := by
  cases d
  · exact Memory.wf_writeMany a vs hw
  · exact Memory.wf_andMany a vs hw

/-! ### Addresses stay inside the device -/

theorem Memory.within_filter {n : Nat} {m : List Host.Cell} (p : Host.Cell → Bool) (h : Memory.within n m = true) :
    Memory.within n (m.filter p) = true := by
  simp only [Memory.within, List.all_eq_true, decide_eq_true_eq, List.mem_filter] at h ⊢
  exact fun c hc => h c hc.1

theorem Memory.within_insert {n a : Nat} {v : Byte} {m : List Host.Cell} (ha : a < n)
    (h : Memory.within n m = true) : Memory.within n (Memory.insert m a v) = true := by
  induction m with
  | nil => simp [Memory.insert, Memory.within, ha]
  | cons c m ih =>
    obtain ⟨k, w⟩ := c
    simp only [Memory.within, List.all_cons, Bool.and_eq_true] at h ih
    unfold Memory.insert
    split
    · simp only [Memory.within, List.all_cons, Bool.and_eq_true]
      exact ⟨by simpa using ha, h⟩
    · simp only [Memory.within, List.all_cons, Bool.and_eq_true]
      exact ⟨h.1, ih h.2⟩

theorem Memory.within_write {n a : Nat} {m : List Host.Cell} (v : Byte) (ha : a < n)
    (h : Memory.within n m = true) : Memory.within n (Memory.write m a v) = true := by
  unfold Memory.write
  split
  · exact Memory.within_filter _ h
  · exact Memory.within_insert ha (Memory.within_filter _ h)

theorem Memory.within_writeMany {n a : Nat} {m : List Host.Cell} (vs : List Byte) (ha : a + vs.length ≤ n)
    (h : Memory.within n m = true) : Memory.within n (Memory.writeMany m a vs) = true := by
  induction vs generalizing m a with
  | nil => exact h
  | cons v vs ih =>
    simp only [List.length_cons] at ha
    exact ih (by omega) (Memory.within_write _ (by omega) h)

theorem Memory.within_andMany {n a : Nat} {m : List Host.Cell} (vs : List Byte) (ha : a + vs.length ≤ n)
    (h : Memory.within n m = true) : Memory.within n (Memory.andMany m a vs) = true := by
  induction vs generalizing m a with
  | nil => exact h
  | cons v vs ih =>
    simp only [List.length_cons] at ha
    exact ih (by omega) (Memory.within_write _ (by omega) h)

theorem Memory.within_erase {n : Nat} {m : List Host.Cell} (lo k : Nat) (h : Memory.within n m = true) :
    Memory.within n (Memory.erase m lo k) = true := Memory.within_filter _ h

end Sys2Proof.Machine
end

