-- ==== Sys2Proof/Laws/State.lean ====
section
/-! SUPPORT. One lemma for each field and each named update of the state. -/

namespace Sys2Proof.Machine

variable (s : State)

/-! ### setDevice -/

@[simp] theorem setDevice_reqCtrl (d : Dev) (v : Device) : (s.setDevice d v).reqCtrl = s.reqCtrl := by
  cases d <;> rfl
@[simp] theorem setDevice_reqAddr (d : Dev) (v : Device) : (s.setDevice d v).reqAddr = s.reqAddr := by
  cases d <;> rfl
@[simp] theorem setDevice_reqLen (d : Dev) (v : Device) : (s.setDevice d v).reqLen = s.reqLen := by
  cases d <;> rfl
@[simp] theorem setDevice_go (d : Dev) (v : Device) : (s.setDevice d v).go = s.go := by
  cases d <;> rfl
@[simp] theorem setDevice_busy (d : Dev) (v : Device) : (s.setDevice d v).busy = s.busy := by
  cases d <;> rfl
@[simp] theorem setDevice_phase (d : Dev) (v : Device) : (s.setDevice d v).phase = s.phase := by
  cases d <;> rfl
@[simp] theorem setDevice_outcome (d : Dev) (v : Device) : (s.setDevice d v).outcome = s.outcome := by
  cases d <;> rfl
@[simp] theorem setDevice_rdata (d : Dev) (v : Device) : (s.setDevice d v).rdata = s.rdata := by
  cases d <;> rfl
@[simp] theorem setDevice_latch (d : Dev) (v : Device) : (s.setDevice d v).latch = s.latch := by
  cases d <;> rfl
@[simp] theorem setDevice_cur (d : Dev) (v : Device) : (s.setDevice d v).cur = s.cur := by
  cases d <;> rfl
@[simp] theorem setDevice_rem (d : Dev) (v : Device) : (s.setDevice d v).rem = s.rem := by
  cases d <;> rfl
@[simp] theorem setDevice_idx (d : Dev) (v : Device) : (s.setDevice d v).idx = s.idx := by
  cases d <;> rfl
@[simp] theorem setDevice_clen (d : Dev) (v : Device) : (s.setDevice d v).clen = s.clen := by
  cases d <;> rfl
@[simp] theorem setDevice_tmp (d : Dev) (v : Device) : (s.setDevice d v).tmp = s.tmp := by
  cases d <;> rfl
@[simp] theorem setDevice_st (d : Dev) (v : Device) : (s.setDevice d v).st = s.st := by
  cases d <;> rfl
@[simp] theorem setDevice_pollcnt (d : Dev) (v : Device) : (s.setDevice d v).pollcnt = s.pollcnt := by
  cases d <;> rfl
@[simp] theorem setDevice_csEe (d : Dev) (v : Device) : (s.setDevice d v).csEe = s.csEe := by
  cases d <;> rfl
@[simp] theorem setDevice_csNor (d : Dev) (v : Device) : (s.setDevice d v).csNor = s.csNor := by
  cases d <;> rfl
@[simp] theorem setDevice_buf (d : Dev) (v : Device) : (s.setDevice d v).buf = s.buf := by
  cases d <;> rfl
@[simp] theorem setDevice_trace (d : Dev) (v : Device) : (s.setDevice d v).trace = s.trace := by
  cases d <;> rfl
@[simp] theorem setDevice_frame (d : Dev) (v : Device) : (s.setDevice d v).frame = s.frame := by
  cases d <;> rfl
@[simp] theorem setDevice_params (d : Dev) (v : Device) : (s.setDevice d v).params = s.params := by
  cases d <;> rfl
@[simp] theorem setDevice_inbox (d : Dev) (v : Device) : (s.setDevice d v).inbox = s.inbox := by
  cases d <;> rfl
@[simp] theorem setDevice_hostData (d : Dev) (v : Device) : (s.setDevice d v).hostData = s.hostData := by
  cases d <;> rfl
@[simp] theorem setDevice_fuse (d : Dev) (v : Device) : (s.setDevice d v).fuse = s.fuse := by
  cases d <;> rfl
@[simp] theorem setDevice_tape (d : Dev) (v : Device) : (s.setDevice d v).tape = s.tape := by
  cases d <;> rfl
@[simp] theorem setDevice_drawn (d : Dev) (v : Device) : (s.setDevice d v).drawn = s.drawn := by
  cases d <;> rfl

/-! ### setCs -/

@[simp] theorem setCs_reqCtrl (d : Dev) (b : Bool) : (s.setCs d b).reqCtrl = s.reqCtrl := by
  cases d <;> rfl
@[simp] theorem setCs_reqAddr (d : Dev) (b : Bool) : (s.setCs d b).reqAddr = s.reqAddr := by
  cases d <;> rfl
@[simp] theorem setCs_reqLen (d : Dev) (b : Bool) : (s.setCs d b).reqLen = s.reqLen := by
  cases d <;> rfl
@[simp] theorem setCs_go (d : Dev) (b : Bool) : (s.setCs d b).go = s.go := by
  cases d <;> rfl
@[simp] theorem setCs_busy (d : Dev) (b : Bool) : (s.setCs d b).busy = s.busy := by
  cases d <;> rfl
@[simp] theorem setCs_phase (d : Dev) (b : Bool) : (s.setCs d b).phase = s.phase := by
  cases d <;> rfl
@[simp] theorem setCs_outcome (d : Dev) (b : Bool) : (s.setCs d b).outcome = s.outcome := by
  cases d <;> rfl
@[simp] theorem setCs_rdata (d : Dev) (b : Bool) : (s.setCs d b).rdata = s.rdata := by
  cases d <;> rfl
@[simp] theorem setCs_latch (d : Dev) (b : Bool) : (s.setCs d b).latch = s.latch := by
  cases d <;> rfl
@[simp] theorem setCs_cur (d : Dev) (b : Bool) : (s.setCs d b).cur = s.cur := by
  cases d <;> rfl
@[simp] theorem setCs_rem (d : Dev) (b : Bool) : (s.setCs d b).rem = s.rem := by
  cases d <;> rfl
@[simp] theorem setCs_idx (d : Dev) (b : Bool) : (s.setCs d b).idx = s.idx := by
  cases d <;> rfl
@[simp] theorem setCs_clen (d : Dev) (b : Bool) : (s.setCs d b).clen = s.clen := by
  cases d <;> rfl
@[simp] theorem setCs_tmp (d : Dev) (b : Bool) : (s.setCs d b).tmp = s.tmp := by
  cases d <;> rfl
@[simp] theorem setCs_st (d : Dev) (b : Bool) : (s.setCs d b).st = s.st := by
  cases d <;> rfl
@[simp] theorem setCs_pollcnt (d : Dev) (b : Bool) : (s.setCs d b).pollcnt = s.pollcnt := by
  cases d <;> rfl
@[simp] theorem setCs_ee (d : Dev) (b : Bool) : (s.setCs d b).ee = s.ee := by
  cases d <;> rfl
@[simp] theorem setCs_nor (d : Dev) (b : Bool) : (s.setCs d b).nor = s.nor := by
  cases d <;> rfl
@[simp] theorem setCs_buf (d : Dev) (b : Bool) : (s.setCs d b).buf = s.buf := by
  cases d <;> rfl
@[simp] theorem setCs_trace (d : Dev) (b : Bool) : (s.setCs d b).trace = s.trace := by
  cases d <;> rfl
@[simp] theorem setCs_frame (d : Dev) (b : Bool) : (s.setCs d b).frame = s.frame := by
  cases d <;> rfl
@[simp] theorem setCs_params (d : Dev) (b : Bool) : (s.setCs d b).params = s.params := by
  cases d <;> rfl
@[simp] theorem setCs_inbox (d : Dev) (b : Bool) : (s.setCs d b).inbox = s.inbox := by
  cases d <;> rfl
@[simp] theorem setCs_hostData (d : Dev) (b : Bool) : (s.setCs d b).hostData = s.hostData := by
  cases d <;> rfl
@[simp] theorem setCs_fuse (d : Dev) (b : Bool) : (s.setCs d b).fuse = s.fuse := by
  cases d <;> rfl
@[simp] theorem setCs_tape (d : Dev) (b : Bool) : (s.setCs d b).tape = s.tape := by
  cases d <;> rfl
@[simp] theorem setCs_drawn (d : Dev) (b : Bool) : (s.setCs d b).drawn = s.drawn := by
  cases d <;> rfl

/-! ### log -/

@[simp] theorem log_reqCtrl (e : Event) : (s.log e).reqCtrl = s.reqCtrl := rfl
@[simp] theorem log_reqAddr (e : Event) : (s.log e).reqAddr = s.reqAddr := rfl
@[simp] theorem log_reqLen (e : Event) : (s.log e).reqLen = s.reqLen := rfl
@[simp] theorem log_go (e : Event) : (s.log e).go = s.go := rfl
@[simp] theorem log_busy (e : Event) : (s.log e).busy = s.busy := rfl
@[simp] theorem log_phase (e : Event) : (s.log e).phase = s.phase := rfl
@[simp] theorem log_outcome (e : Event) : (s.log e).outcome = s.outcome := rfl
@[simp] theorem log_rdata (e : Event) : (s.log e).rdata = s.rdata := rfl
@[simp] theorem log_latch (e : Event) : (s.log e).latch = s.latch := rfl
@[simp] theorem log_cur (e : Event) : (s.log e).cur = s.cur := rfl
@[simp] theorem log_rem (e : Event) : (s.log e).rem = s.rem := rfl
@[simp] theorem log_idx (e : Event) : (s.log e).idx = s.idx := rfl
@[simp] theorem log_clen (e : Event) : (s.log e).clen = s.clen := rfl
@[simp] theorem log_tmp (e : Event) : (s.log e).tmp = s.tmp := rfl
@[simp] theorem log_st (e : Event) : (s.log e).st = s.st := rfl
@[simp] theorem log_pollcnt (e : Event) : (s.log e).pollcnt = s.pollcnt := rfl
@[simp] theorem log_csEe (e : Event) : (s.log e).csEe = s.csEe := rfl
@[simp] theorem log_csNor (e : Event) : (s.log e).csNor = s.csNor := rfl
@[simp] theorem log_ee (e : Event) : (s.log e).ee = s.ee := rfl
@[simp] theorem log_nor (e : Event) : (s.log e).nor = s.nor := rfl
@[simp] theorem log_buf (e : Event) : (s.log e).buf = s.buf := rfl
@[simp] theorem log_trace (e : Event) : (s.log e).trace = s.trace ++ [e] := rfl
@[simp] theorem log_frame (e : Event) : (s.log e).frame = s.frame := rfl
@[simp] theorem log_params (e : Event) : (s.log e).params = s.params := rfl
@[simp] theorem log_inbox (e : Event) : (s.log e).inbox = s.inbox := rfl
@[simp] theorem log_hostData (e : Event) : (s.log e).hostData = s.hostData := rfl
@[simp] theorem log_fuse (e : Event) : (s.log e).fuse = s.fuse := rfl
@[simp] theorem log_tape (e : Event) : (s.log e).tape = s.tape := rfl
@[simp] theorem log_drawn (e : Event) : (s.log e).drawn = s.drawn := rfl

/-! ### toPhase -/

@[simp] theorem toPhase_reqCtrl (p : Phase) : (s.toPhase p).reqCtrl = s.reqCtrl := rfl
@[simp] theorem toPhase_reqAddr (p : Phase) : (s.toPhase p).reqAddr = s.reqAddr := rfl
@[simp] theorem toPhase_reqLen (p : Phase) : (s.toPhase p).reqLen = s.reqLen := rfl
@[simp] theorem toPhase_go (p : Phase) : (s.toPhase p).go = s.go := rfl
@[simp] theorem toPhase_busy (p : Phase) : (s.toPhase p).busy = s.busy := rfl
@[simp] theorem toPhase_phase (p : Phase) : (s.toPhase p).phase = p := rfl
@[simp] theorem toPhase_outcome (p : Phase) : (s.toPhase p).outcome = s.outcome := rfl
@[simp] theorem toPhase_rdata (p : Phase) : (s.toPhase p).rdata = s.rdata := rfl
@[simp] theorem toPhase_latch (p : Phase) : (s.toPhase p).latch = s.latch := rfl
@[simp] theorem toPhase_cur (p : Phase) : (s.toPhase p).cur = s.cur := rfl
@[simp] theorem toPhase_rem (p : Phase) : (s.toPhase p).rem = s.rem := rfl
@[simp] theorem toPhase_idx (p : Phase) : (s.toPhase p).idx = s.idx := rfl
@[simp] theorem toPhase_clen (p : Phase) : (s.toPhase p).clen = s.clen := rfl
@[simp] theorem toPhase_tmp (p : Phase) : (s.toPhase p).tmp = s.tmp := rfl
@[simp] theorem toPhase_st (p : Phase) : (s.toPhase p).st = s.st := rfl
@[simp] theorem toPhase_pollcnt (p : Phase) : (s.toPhase p).pollcnt = s.pollcnt := rfl
@[simp] theorem toPhase_csEe (p : Phase) : (s.toPhase p).csEe = s.csEe := rfl
@[simp] theorem toPhase_csNor (p : Phase) : (s.toPhase p).csNor = s.csNor := rfl
@[simp] theorem toPhase_ee (p : Phase) : (s.toPhase p).ee = s.ee := rfl
@[simp] theorem toPhase_nor (p : Phase) : (s.toPhase p).nor = s.nor := rfl
@[simp] theorem toPhase_buf (p : Phase) : (s.toPhase p).buf = s.buf := rfl
@[simp] theorem toPhase_trace (p : Phase) : (s.toPhase p).trace = s.trace ++ [.ph p] := rfl
@[simp] theorem toPhase_frame (p : Phase) : (s.toPhase p).frame = s.frame := rfl
@[simp] theorem toPhase_params (p : Phase) : (s.toPhase p).params = s.params := rfl
@[simp] theorem toPhase_inbox (p : Phase) : (s.toPhase p).inbox = s.inbox := rfl
@[simp] theorem toPhase_hostData (p : Phase) : (s.toPhase p).hostData = s.hostData := rfl
@[simp] theorem toPhase_fuse (p : Phase) : (s.toPhase p).fuse = s.fuse := rfl
@[simp] theorem toPhase_tape (p : Phase) : (s.toPhase p).tape = s.tape := rfl
@[simp] theorem toPhase_drawn (p : Phase) : (s.toPhase p).drawn = s.drawn := rfl

/-! ### skipDraws -/

@[simp] theorem skipDraws_reqCtrl (n : Nat) : (s.skipDraws n).reqCtrl = s.reqCtrl := rfl
@[simp] theorem skipDraws_reqAddr (n : Nat) : (s.skipDraws n).reqAddr = s.reqAddr := rfl
@[simp] theorem skipDraws_reqLen (n : Nat) : (s.skipDraws n).reqLen = s.reqLen := rfl
@[simp] theorem skipDraws_go (n : Nat) : (s.skipDraws n).go = s.go := rfl
@[simp] theorem skipDraws_busy (n : Nat) : (s.skipDraws n).busy = s.busy := rfl
@[simp] theorem skipDraws_phase (n : Nat) : (s.skipDraws n).phase = s.phase := rfl
@[simp] theorem skipDraws_outcome (n : Nat) : (s.skipDraws n).outcome = s.outcome := rfl
@[simp] theorem skipDraws_rdata (n : Nat) : (s.skipDraws n).rdata = s.rdata := rfl
@[simp] theorem skipDraws_latch (n : Nat) : (s.skipDraws n).latch = s.latch := rfl
@[simp] theorem skipDraws_cur (n : Nat) : (s.skipDraws n).cur = s.cur := rfl
@[simp] theorem skipDraws_rem (n : Nat) : (s.skipDraws n).rem = s.rem := rfl
@[simp] theorem skipDraws_idx (n : Nat) : (s.skipDraws n).idx = s.idx := rfl
@[simp] theorem skipDraws_clen (n : Nat) : (s.skipDraws n).clen = s.clen := rfl
@[simp] theorem skipDraws_tmp (n : Nat) : (s.skipDraws n).tmp = s.tmp := rfl
@[simp] theorem skipDraws_st (n : Nat) : (s.skipDraws n).st = s.st := rfl
@[simp] theorem skipDraws_pollcnt (n : Nat) : (s.skipDraws n).pollcnt = s.pollcnt := rfl
@[simp] theorem skipDraws_csEe (n : Nat) : (s.skipDraws n).csEe = s.csEe := rfl
@[simp] theorem skipDraws_csNor (n : Nat) : (s.skipDraws n).csNor = s.csNor := rfl
@[simp] theorem skipDraws_ee (n : Nat) : (s.skipDraws n).ee = s.ee := rfl
@[simp] theorem skipDraws_nor (n : Nat) : (s.skipDraws n).nor = s.nor := rfl
@[simp] theorem skipDraws_buf (n : Nat) : (s.skipDraws n).buf = s.buf := rfl
@[simp] theorem skipDraws_trace (n : Nat) : (s.skipDraws n).trace = s.trace := rfl
@[simp] theorem skipDraws_frame (n : Nat) : (s.skipDraws n).frame = s.frame := rfl
@[simp] theorem skipDraws_params (n : Nat) : (s.skipDraws n).params = s.params := rfl
@[simp] theorem skipDraws_inbox (n : Nat) : (s.skipDraws n).inbox = s.inbox := rfl
@[simp] theorem skipDraws_hostData (n : Nat) : (s.skipDraws n).hostData = s.hostData := rfl
@[simp] theorem skipDraws_fuse (n : Nat) : (s.skipDraws n).fuse = s.fuse := rfl
@[simp] theorem skipDraws_tape (n : Nat) : (s.skipDraws n).tape = s.tape.drop n := rfl
@[simp] theorem skipDraws_drawn (n : Nat) : (s.skipDraws n).drawn = s.drawn + n := rfl

/-! ### setRdata -/

@[simp] theorem setRdata_reqCtrl (v : Byte) : (s.setRdata v).reqCtrl = s.reqCtrl := rfl
@[simp] theorem setRdata_reqAddr (v : Byte) : (s.setRdata v).reqAddr = s.reqAddr := rfl
@[simp] theorem setRdata_reqLen (v : Byte) : (s.setRdata v).reqLen = s.reqLen := rfl
@[simp] theorem setRdata_go (v : Byte) : (s.setRdata v).go = s.go := rfl
@[simp] theorem setRdata_busy (v : Byte) : (s.setRdata v).busy = s.busy := rfl
@[simp] theorem setRdata_phase (v : Byte) : (s.setRdata v).phase = s.phase := rfl
@[simp] theorem setRdata_outcome (v : Byte) : (s.setRdata v).outcome = s.outcome := rfl
@[simp] theorem setRdata_rdata (v : Byte) : (s.setRdata v).rdata = v := rfl
@[simp] theorem setRdata_latch (v : Byte) : (s.setRdata v).latch = s.latch := rfl
@[simp] theorem setRdata_cur (v : Byte) : (s.setRdata v).cur = s.cur := rfl
@[simp] theorem setRdata_rem (v : Byte) : (s.setRdata v).rem = s.rem := rfl
@[simp] theorem setRdata_idx (v : Byte) : (s.setRdata v).idx = s.idx := rfl
@[simp] theorem setRdata_clen (v : Byte) : (s.setRdata v).clen = s.clen := rfl
@[simp] theorem setRdata_tmp (v : Byte) : (s.setRdata v).tmp = s.tmp := rfl
@[simp] theorem setRdata_st (v : Byte) : (s.setRdata v).st = s.st := rfl
@[simp] theorem setRdata_pollcnt (v : Byte) : (s.setRdata v).pollcnt = s.pollcnt := rfl
@[simp] theorem setRdata_csEe (v : Byte) : (s.setRdata v).csEe = s.csEe := rfl
@[simp] theorem setRdata_csNor (v : Byte) : (s.setRdata v).csNor = s.csNor := rfl
@[simp] theorem setRdata_ee (v : Byte) : (s.setRdata v).ee = s.ee := rfl
@[simp] theorem setRdata_nor (v : Byte) : (s.setRdata v).nor = s.nor := rfl
@[simp] theorem setRdata_buf (v : Byte) : (s.setRdata v).buf = s.buf := rfl
@[simp] theorem setRdata_trace (v : Byte) : (s.setRdata v).trace = s.trace := rfl
@[simp] theorem setRdata_frame (v : Byte) : (s.setRdata v).frame = s.frame := rfl
@[simp] theorem setRdata_params (v : Byte) : (s.setRdata v).params = s.params := rfl
@[simp] theorem setRdata_inbox (v : Byte) : (s.setRdata v).inbox = s.inbox := rfl
@[simp] theorem setRdata_hostData (v : Byte) : (s.setRdata v).hostData = s.hostData := rfl
@[simp] theorem setRdata_fuse (v : Byte) : (s.setRdata v).fuse = s.fuse := rfl
@[simp] theorem setRdata_tape (v : Byte) : (s.setRdata v).tape = s.tape := rfl
@[simp] theorem setRdata_drawn (v : Byte) : (s.setRdata v).drawn = s.drawn := rfl

/-! ### finish -/

@[simp] theorem finish_reqCtrl (c : OpOutcome) : (finish c s).reqCtrl = s.reqCtrl := rfl
@[simp] theorem finish_reqAddr (c : OpOutcome) : (finish c s).reqAddr = s.reqAddr := rfl
@[simp] theorem finish_reqLen (c : OpOutcome) : (finish c s).reqLen = s.reqLen := rfl
@[simp] theorem finish_go (c : OpOutcome) : (finish c s).go = s.go := rfl
@[simp] theorem finish_busy (c : OpOutcome) : (finish c s).busy = false := rfl
@[simp] theorem finish_phase (c : OpOutcome) : (finish c s).phase = .idle := rfl
@[simp] theorem finish_outcome (c : OpOutcome) : (finish c s).outcome = c := rfl
@[simp] theorem finish_rdata (c : OpOutcome) : (finish c s).rdata = s.rdata := rfl
@[simp] theorem finish_latch (c : OpOutcome) : (finish c s).latch = s.latch := rfl
@[simp] theorem finish_cur (c : OpOutcome) : (finish c s).cur = s.cur := rfl
@[simp] theorem finish_rem (c : OpOutcome) : (finish c s).rem = s.rem := rfl
@[simp] theorem finish_idx (c : OpOutcome) : (finish c s).idx = s.idx := rfl
@[simp] theorem finish_clen (c : OpOutcome) : (finish c s).clen = s.clen := rfl
@[simp] theorem finish_tmp (c : OpOutcome) : (finish c s).tmp = s.tmp := rfl
@[simp] theorem finish_st (c : OpOutcome) : (finish c s).st = s.st := rfl
@[simp] theorem finish_pollcnt (c : OpOutcome) : (finish c s).pollcnt = s.pollcnt := rfl
@[simp] theorem finish_csEe (c : OpOutcome) : (finish c s).csEe = s.csEe := rfl
@[simp] theorem finish_csNor (c : OpOutcome) : (finish c s).csNor = s.csNor := rfl
@[simp] theorem finish_ee (c : OpOutcome) : (finish c s).ee = s.ee := rfl
@[simp] theorem finish_nor (c : OpOutcome) : (finish c s).nor = s.nor := rfl
@[simp] theorem finish_buf (c : OpOutcome) : (finish c s).buf = s.buf := rfl
@[simp] theorem finish_trace (c : OpOutcome) : (finish c s).trace = s.trace := rfl
@[simp] theorem finish_frame (c : OpOutcome) : (finish c s).frame = s.frame := rfl
@[simp] theorem finish_params (c : OpOutcome) : (finish c s).params = s.params := rfl
@[simp] theorem finish_inbox (c : OpOutcome) : (finish c s).inbox = s.inbox := rfl
@[simp] theorem finish_hostData (c : OpOutcome) : (finish c s).hostData = s.hostData := rfl
@[simp] theorem finish_fuse (c : OpOutcome) : (finish c s).fuse = s.fuse := rfl
@[simp] theorem finish_tape (c : OpOutcome) : (finish c s).tape = s.tape := rfl
@[simp] theorem finish_drawn (c : OpOutcome) : (finish c s).drawn = s.drawn := rfl

/-! ### accept -/

@[simp] theorem accept_reqCtrl (op : BitVec 4) (d : Dev) (r : Req) : (accept op d r s).reqCtrl = s.reqCtrl := rfl
@[simp] theorem accept_reqAddr (op : BitVec 4) (d : Dev) (r : Req) : (accept op d r s).reqAddr = s.reqAddr := rfl
@[simp] theorem accept_reqLen (op : BitVec 4) (d : Dev) (r : Req) : (accept op d r s).reqLen = s.reqLen := rfl
@[simp] theorem accept_go (op : BitVec 4) (d : Dev) (r : Req) : (accept op d r s).go = s.go := rfl
@[simp] theorem accept_busy (op : BitVec 4) (d : Dev) (r : Req) : (accept op d r s).busy = true := rfl
@[simp] theorem accept_phase (op : BitVec 4) (d : Dev) (r : Req) : (accept op d r s).phase = s.phase := rfl
@[simp] theorem accept_outcome (op : BitVec 4) (d : Dev) (r : Req) : (accept op d r s).outcome = s.outcome := rfl
@[simp] theorem accept_rdata (op : BitVec 4) (d : Dev) (r : Req) : (accept op d r s).rdata = s.rdata := rfl
@[simp] theorem accept_latch (op : BitVec 4) (d : Dev) (r : Req) : (accept op d r s).latch =
    { op := op, dev := d, bufv := r.bufv, val := r.val, bitn := r.bitn, addr := r.addr, len := r.len } := rfl
@[simp] theorem accept_cur (op : BitVec 4) (d : Dev) (r : Req) : (accept op d r s).cur = s.cur := rfl
@[simp] theorem accept_rem (op : BitVec 4) (d : Dev) (r : Req) : (accept op d r s).rem = s.rem := rfl
@[simp] theorem accept_idx (op : BitVec 4) (d : Dev) (r : Req) : (accept op d r s).idx = s.idx := rfl
@[simp] theorem accept_clen (op : BitVec 4) (d : Dev) (r : Req) : (accept op d r s).clen = s.clen := rfl
@[simp] theorem accept_tmp (op : BitVec 4) (d : Dev) (r : Req) : (accept op d r s).tmp = s.tmp := rfl
@[simp] theorem accept_st (op : BitVec 4) (d : Dev) (r : Req) : (accept op d r s).st = s.st := rfl
@[simp] theorem accept_pollcnt (op : BitVec 4) (d : Dev) (r : Req) : (accept op d r s).pollcnt = s.pollcnt := rfl
@[simp] theorem accept_csEe (op : BitVec 4) (d : Dev) (r : Req) : (accept op d r s).csEe = s.csEe := rfl
@[simp] theorem accept_csNor (op : BitVec 4) (d : Dev) (r : Req) : (accept op d r s).csNor = s.csNor := rfl
@[simp] theorem accept_ee (op : BitVec 4) (d : Dev) (r : Req) : (accept op d r s).ee = s.ee := rfl
@[simp] theorem accept_nor (op : BitVec 4) (d : Dev) (r : Req) : (accept op d r s).nor = s.nor := rfl
@[simp] theorem accept_buf (op : BitVec 4) (d : Dev) (r : Req) : (accept op d r s).buf = s.buf := rfl
@[simp] theorem accept_trace (op : BitVec 4) (d : Dev) (r : Req) : (accept op d r s).trace = s.trace := rfl
@[simp] theorem accept_frame (op : BitVec 4) (d : Dev) (r : Req) : (accept op d r s).frame = s.frame := rfl
@[simp] theorem accept_params (op : BitVec 4) (d : Dev) (r : Req) : (accept op d r s).params = s.params := rfl
@[simp] theorem accept_inbox (op : BitVec 4) (d : Dev) (r : Req) : (accept op d r s).inbox = s.inbox := rfl
@[simp] theorem accept_hostData (op : BitVec 4) (d : Dev) (r : Req) : (accept op d r s).hostData = s.hostData := rfl
@[simp] theorem accept_fuse (op : BitVec 4) (d : Dev) (r : Req) : (accept op d r s).fuse = s.fuse := rfl
@[simp] theorem accept_tape (op : BitVec 4) (d : Dev) (r : Req) : (accept op d r s).tape = s.tape := rfl
@[simp] theorem accept_drawn (op : BitVec 4) (d : Dev) (r : Req) : (accept op d r s).drawn = s.drawn := rfl

/-! ### advanceChunk -/

@[simp] theorem advanceChunk_reqCtrl : (advanceChunk s).reqCtrl = s.reqCtrl := rfl
@[simp] theorem advanceChunk_reqAddr : (advanceChunk s).reqAddr = s.reqAddr := rfl
@[simp] theorem advanceChunk_reqLen : (advanceChunk s).reqLen = s.reqLen := rfl
@[simp] theorem advanceChunk_go : (advanceChunk s).go = s.go := rfl
@[simp] theorem advanceChunk_busy : (advanceChunk s).busy = s.busy := rfl
@[simp] theorem advanceChunk_phase : (advanceChunk s).phase = s.phase := rfl
@[simp] theorem advanceChunk_outcome : (advanceChunk s).outcome = s.outcome := rfl
@[simp] theorem advanceChunk_rdata : (advanceChunk s).rdata = s.rdata := rfl
@[simp] theorem advanceChunk_latch : (advanceChunk s).latch = s.latch := rfl
@[simp] theorem advanceChunk_cur : (advanceChunk s).cur = s.cur + s.clen.setWidth 32 := rfl
@[simp] theorem advanceChunk_rem : (advanceChunk s).rem = s.rem - s.clen.setWidth 32 := rfl
@[simp] theorem advanceChunk_idx : (advanceChunk s).idx = s.idx + s.clen.setWidth 32 := rfl
@[simp] theorem advanceChunk_clen : (advanceChunk s).clen = s.clen := rfl
@[simp] theorem advanceChunk_tmp : (advanceChunk s).tmp = s.tmp := rfl
@[simp] theorem advanceChunk_st : (advanceChunk s).st = s.st := rfl
@[simp] theorem advanceChunk_pollcnt : (advanceChunk s).pollcnt = s.pollcnt := rfl
@[simp] theorem advanceChunk_csEe : (advanceChunk s).csEe = s.csEe := rfl
@[simp] theorem advanceChunk_csNor : (advanceChunk s).csNor = s.csNor := rfl
@[simp] theorem advanceChunk_ee : (advanceChunk s).ee = s.ee := rfl
@[simp] theorem advanceChunk_nor : (advanceChunk s).nor = s.nor := rfl
@[simp] theorem advanceChunk_buf : (advanceChunk s).buf = s.buf := rfl
@[simp] theorem advanceChunk_trace : (advanceChunk s).trace = s.trace := rfl
@[simp] theorem advanceChunk_frame : (advanceChunk s).frame = s.frame := rfl
@[simp] theorem advanceChunk_params : (advanceChunk s).params = s.params := rfl
@[simp] theorem advanceChunk_inbox : (advanceChunk s).inbox = s.inbox := rfl
@[simp] theorem advanceChunk_hostData : (advanceChunk s).hostData = s.hostData := rfl
@[simp] theorem advanceChunk_fuse : (advanceChunk s).fuse = s.fuse := rfl
@[simp] theorem advanceChunk_tape : (advanceChunk s).tape = s.tape := rfl
@[simp] theorem advanceChunk_drawn : (advanceChunk s).drawn = s.drawn := rfl

/-! ### loadClen -/

@[simp] theorem loadClen_reqCtrl (d : Dev) : (loadClen d s).reqCtrl = s.reqCtrl := rfl
@[simp] theorem loadClen_reqAddr (d : Dev) : (loadClen d s).reqAddr = s.reqAddr := rfl
@[simp] theorem loadClen_reqLen (d : Dev) : (loadClen d s).reqLen = s.reqLen := rfl
@[simp] theorem loadClen_go (d : Dev) : (loadClen d s).go = s.go := rfl
@[simp] theorem loadClen_busy (d : Dev) : (loadClen d s).busy = s.busy := rfl
@[simp] theorem loadClen_phase (d : Dev) : (loadClen d s).phase = s.phase := rfl
@[simp] theorem loadClen_outcome (d : Dev) : (loadClen d s).outcome = s.outcome := rfl
@[simp] theorem loadClen_rdata (d : Dev) : (loadClen d s).rdata = s.rdata := rfl
@[simp] theorem loadClen_latch (d : Dev) : (loadClen d s).latch = s.latch := rfl
@[simp] theorem loadClen_cur (d : Dev) : (loadClen d s).cur = s.cur := rfl
@[simp] theorem loadClen_rem (d : Dev) : (loadClen d s).rem = s.rem := rfl
@[simp] theorem loadClen_idx (d : Dev) : (loadClen d s).idx = s.idx := rfl
@[simp] theorem loadClen_clen (d : Dev) : (loadClen d s).clen = BitVec.ofNat 9 (chunkLen d s.cur.toNat s.rem.toNat) := rfl
@[simp] theorem loadClen_tmp (d : Dev) : (loadClen d s).tmp = s.tmp := rfl
@[simp] theorem loadClen_st (d : Dev) : (loadClen d s).st = s.st := rfl
@[simp] theorem loadClen_pollcnt (d : Dev) : (loadClen d s).pollcnt = s.pollcnt := rfl
@[simp] theorem loadClen_csEe (d : Dev) : (loadClen d s).csEe = s.csEe := rfl
@[simp] theorem loadClen_csNor (d : Dev) : (loadClen d s).csNor = s.csNor := rfl
@[simp] theorem loadClen_ee (d : Dev) : (loadClen d s).ee = s.ee := rfl
@[simp] theorem loadClen_nor (d : Dev) : (loadClen d s).nor = s.nor := rfl
@[simp] theorem loadClen_buf (d : Dev) : (loadClen d s).buf = s.buf := rfl
@[simp] theorem loadClen_trace (d : Dev) : (loadClen d s).trace = s.trace := rfl
@[simp] theorem loadClen_frame (d : Dev) : (loadClen d s).frame = s.frame := rfl
@[simp] theorem loadClen_params (d : Dev) : (loadClen d s).params = s.params := rfl
@[simp] theorem loadClen_inbox (d : Dev) : (loadClen d s).inbox = s.inbox := rfl
@[simp] theorem loadClen_hostData (d : Dev) : (loadClen d s).hostData = s.hostData := rfl
@[simp] theorem loadClen_fuse (d : Dev) : (loadClen d s).fuse = s.fuse := rfl
@[simp] theorem loadClen_tape (d : Dev) : (loadClen d s).tape = s.tape := rfl
@[simp] theorem loadClen_drawn (d : Dev) : (loadClen d s).drawn = s.drawn := rfl

/-! ### Device and exclusive access accessors -/

@[simp] theorem setDevice_ee_ee (v : Device) : (s.setDevice .ee v).ee = v := rfl
@[simp] theorem setDevice_ee_nor (v : Device) : (s.setDevice .ee v).nor = s.nor := rfl
@[simp] theorem setDevice_nor_nor (v : Device) : (s.setDevice .nor v).nor = v := rfl
@[simp] theorem setDevice_nor_ee (v : Device) : (s.setDevice .nor v).ee = s.ee := rfl
@[simp] theorem setCs_ee_csEe (b : Bool) : (s.setCs .ee b).csEe = b := rfl
@[simp] theorem setCs_ee_csNor (b : Bool) : (s.setCs .ee b).csNor = s.csNor := rfl
@[simp] theorem setCs_nor_csNor (b : Bool) : (s.setCs .nor b).csNor = b := rfl
@[simp] theorem setCs_nor_csEe (b : Bool) : (s.setCs .nor b).csEe = s.csEe := rfl
@[simp] theorem setDevice_device (d : Dev) (v : Device) : (s.setDevice d v).device d = v := by
  cases d <;> rfl
theorem setDevice_device_ne (d d' : Dev) (v : Device) (h : d' ≠ d) : (s.setDevice d v).device d' = s.device d' := by
  cases d <;> cases d' <;> first | rfl | exact absurd rfl h
@[simp] theorem setDevice_setDevice (d : Dev) (v w : Device) : (s.setDevice d v).setDevice d w = s.setDevice d w := by
  cases d <;> rfl
@[simp] theorem setCs_setCs (d : Dev) (a b : Bool) : (s.setCs d a).setCs d b = s.setCs d b := by
  cases d <;> rfl
theorem setDevice_self (d : Dev) : s.setDevice d (s.device d) = s := by
  cases d <;> rfl
@[simp] theorem device_ee : s.device .ee = s.ee := rfl
@[simp] theorem device_nor : s.device .nor = s.nor := rfl
@[simp] theorem cs_ee : s.cs .ee = s.csEe := rfl
@[simp] theorem cs_nor : s.cs .nor = s.csNor := rfl

@[simp] theorem setCs_device (d : Dev) (d' : Dev) (b : Bool) : (s.setCs d' b).device d = s.device d := by
  cases d <;> cases d' <;> rfl
@[simp] theorem log_device (d : Dev) (e : Event) : (s.log e).device d = s.device d := by
  cases d <;> rfl
@[simp] theorem toPhase_device (d : Dev) (p : Phase) : (s.toPhase p).device d = s.device d := by
  cases d <;> rfl
@[simp] theorem skipDraws_device (d : Dev) (n : Nat) : (s.skipDraws n).device d = s.device d := by
  cases d <;> rfl
@[simp] theorem setRdata_device (d : Dev) (v : Byte) : (s.setRdata v).device d = s.device d := by
  cases d <;> rfl
@[simp] theorem finish_device (d : Dev) (c : OpOutcome) : (finish c s).device d = s.device d := by
  cases d <;> rfl
@[simp] theorem accept_device (d : Dev) (op : BitVec 4) (d' : Dev) (r : Req) : (accept op d' r s).device d = s.device d := by
  cases d <;> rfl
@[simp] theorem advanceChunk_device (d : Dev) : (advanceChunk s).device d = s.device d := by
  cases d <;> rfl
@[simp] theorem loadClen_device (d : Dev) (d' : Dev) : (loadClen d' s).device d = s.device d := by
  cases d <;> rfl

/-! ### hostPoint and enterPhase -/

/-- A move on a register changes the host's side of the registers alone while `BUSY` = 1 (R29, R73). -/
theorem regMove_eq (m : RegMove) (s : State) (h : s.busy = true) : ∃ c a l d,
    regMove m s = { s with reqCtrl := c, reqAddr := a, reqLen := l, hostData := d } := by
  cases m with
  | read r => exact ⟨_, _, _, _, rfl⟩
  | write r v =>
    cases r with
    | go => exact ⟨s.reqCtrl, s.reqAddr, s.reqLen, s.hostData, if_neg (by simp [h])⟩
    | reqCtrl => exact ⟨_, _, _, _, rfl⟩
    | reqAddr => exact ⟨_, _, _, _, rfl⟩
    | reqLen => exact ⟨_, _, _, _, rfl⟩
    | status => exact ⟨_, _, _, _, rfl⟩

/-- All the moves that land at one moment change the host's side alone. -/
theorem landMoves_eq (ms : List HostMove) (s : State) (hb : s.busy = true) : ∃ c a l h ns,
    landMoves ms s = { s with reqCtrl := c, reqAddr := a, reqLen := l, hostData := h, inbox := ns } := by
  induction ms, s using landMoves.induct with
  | case1 m ms s ih =>
    obtain ⟨_, _, _, _, e⟩ := regMove_eq m s hb
    obtain ⟨c, a, l, h, ns, e'⟩ := ih (by rw [e]; exact hb)
    exact ⟨c, a, l, h, ns, by rw [landMoves, e', e]⟩
  | case2 k m ms s => exact ⟨_, _, _, _, _, rfl⟩
  | case3 ms s h1 h2 => exact ⟨_, _, _, _, _, landMoves.eq_3 ms s h1 h2⟩

/-- A moment at which the host may look changes the host's side of the registers alone, whatever moves land there (R247, R73). -/
theorem hostPoint_eq : ∃ c a l h ms,
    hostPoint s = { s with reqCtrl := c, reqAddr := a, reqLen := l, hostData := h, inbox := ms } := by
  unfold hostPoint
  split
  · exact landMoves_eq s.inbox s ‹_›
  · exact ⟨s.reqCtrl, s.reqAddr, s.reqLen, s.hostData, s.inbox, rfl⟩

/-- No move lands at a moment when the next move has none there. -/
theorem landMoves_unobserved {ms : List HostMove} (h : unobserved ms = true) (s : State) :
    landMoves ms s = { s with inbox := ms } := by
  induction ms, s using landMoves.induct with
  | case1 m ms s ih => simp [unobserved] at h
  | case2 k m ms s => simp [unobserved] at h
  | case3 ms s h1 h2 => exact landMoves.eq_3 ms s h1 h2

/-- Without a move of the host inside the operation nothing changes there. -/
theorem hostPoint_self {s : State} (h : Unobserved s) : hostPoint s = s := by
  unfold hostPoint
  split
  · exact landMoves_unobserved h s
  · rfl

theorem Unobserved.of {s t : State} (h : Unobserved s) (he : t.inbox = s.inbox) : Unobserved t := by
  rwa [Unobserved, he]

@[simp] theorem hostPoint_go : (hostPoint s).go = s.go := by
  obtain ⟨_, _, _, _, _, h⟩ := hostPoint_eq s; rw [h]
@[simp] theorem hostPoint_busy : (hostPoint s).busy = s.busy := by
  obtain ⟨_, _, _, _, _, h⟩ := hostPoint_eq s; rw [h]
@[simp] theorem hostPoint_phase : (hostPoint s).phase = s.phase := by
  obtain ⟨_, _, _, _, _, h⟩ := hostPoint_eq s; rw [h]
@[simp] theorem hostPoint_outcome : (hostPoint s).outcome = s.outcome := by
  obtain ⟨_, _, _, _, _, h⟩ := hostPoint_eq s; rw [h]
@[simp] theorem hostPoint_rdata : (hostPoint s).rdata = s.rdata := by
  obtain ⟨_, _, _, _, _, h⟩ := hostPoint_eq s; rw [h]
@[simp] theorem hostPoint_latch : (hostPoint s).latch = s.latch := by
  obtain ⟨_, _, _, _, _, h⟩ := hostPoint_eq s; rw [h]
@[simp] theorem hostPoint_cur : (hostPoint s).cur = s.cur := by
  obtain ⟨_, _, _, _, _, h⟩ := hostPoint_eq s; rw [h]
@[simp] theorem hostPoint_rem : (hostPoint s).rem = s.rem := by
  obtain ⟨_, _, _, _, _, h⟩ := hostPoint_eq s; rw [h]
@[simp] theorem hostPoint_idx : (hostPoint s).idx = s.idx := by
  obtain ⟨_, _, _, _, _, h⟩ := hostPoint_eq s; rw [h]
@[simp] theorem hostPoint_clen : (hostPoint s).clen = s.clen := by
  obtain ⟨_, _, _, _, _, h⟩ := hostPoint_eq s; rw [h]
@[simp] theorem hostPoint_tmp : (hostPoint s).tmp = s.tmp := by
  obtain ⟨_, _, _, _, _, h⟩ := hostPoint_eq s; rw [h]
@[simp] theorem hostPoint_st : (hostPoint s).st = s.st := by
  obtain ⟨_, _, _, _, _, h⟩ := hostPoint_eq s; rw [h]
@[simp] theorem hostPoint_pollcnt : (hostPoint s).pollcnt = s.pollcnt := by
  obtain ⟨_, _, _, _, _, h⟩ := hostPoint_eq s; rw [h]
@[simp] theorem hostPoint_csEe : (hostPoint s).csEe = s.csEe := by
  obtain ⟨_, _, _, _, _, h⟩ := hostPoint_eq s; rw [h]
@[simp] theorem hostPoint_csNor : (hostPoint s).csNor = s.csNor := by
  obtain ⟨_, _, _, _, _, h⟩ := hostPoint_eq s; rw [h]
@[simp] theorem hostPoint_ee : (hostPoint s).ee = s.ee := by
  obtain ⟨_, _, _, _, _, h⟩ := hostPoint_eq s; rw [h]
@[simp] theorem hostPoint_nor : (hostPoint s).nor = s.nor := by
  obtain ⟨_, _, _, _, _, h⟩ := hostPoint_eq s; rw [h]
@[simp] theorem hostPoint_buf : (hostPoint s).buf = s.buf := by
  obtain ⟨_, _, _, _, _, h⟩ := hostPoint_eq s; rw [h]
@[simp] theorem hostPoint_trace : (hostPoint s).trace = s.trace := by
  obtain ⟨_, _, _, _, _, h⟩ := hostPoint_eq s; rw [h]
@[simp] theorem hostPoint_frame : (hostPoint s).frame = s.frame := by
  obtain ⟨_, _, _, _, _, h⟩ := hostPoint_eq s; rw [h]
@[simp] theorem hostPoint_params : (hostPoint s).params = s.params := by
  obtain ⟨_, _, _, _, _, h⟩ := hostPoint_eq s; rw [h]
@[simp] theorem hostPoint_fuse : (hostPoint s).fuse = s.fuse := by
  obtain ⟨_, _, _, _, _, h⟩ := hostPoint_eq s; rw [h]
@[simp] theorem hostPoint_tape : (hostPoint s).tape = s.tape := by
  obtain ⟨_, _, _, _, _, h⟩ := hostPoint_eq s; rw [h]
@[simp] theorem hostPoint_drawn : (hostPoint s).drawn = s.drawn := by
  obtain ⟨_, _, _, _, _, h⟩ := hostPoint_eq s; rw [h]
@[simp] theorem enterPhase_go (p : Phase) : (enterPhase p s).go = s.go := hostPoint_go _
@[simp] theorem enterPhase_busy (p : Phase) : (enterPhase p s).busy = s.busy := hostPoint_busy _
@[simp] theorem enterPhase_phase (p : Phase) : (enterPhase p s).phase = p := hostPoint_phase _
@[simp] theorem enterPhase_outcome (p : Phase) : (enterPhase p s).outcome = s.outcome := hostPoint_outcome _
@[simp] theorem enterPhase_rdata (p : Phase) : (enterPhase p s).rdata = s.rdata := hostPoint_rdata _
@[simp] theorem enterPhase_latch (p : Phase) : (enterPhase p s).latch = s.latch := hostPoint_latch _
@[simp] theorem enterPhase_cur (p : Phase) : (enterPhase p s).cur = s.cur := hostPoint_cur _
@[simp] theorem enterPhase_rem (p : Phase) : (enterPhase p s).rem = s.rem := hostPoint_rem _
@[simp] theorem enterPhase_idx (p : Phase) : (enterPhase p s).idx = s.idx := hostPoint_idx _
@[simp] theorem enterPhase_clen (p : Phase) : (enterPhase p s).clen = s.clen := hostPoint_clen _
@[simp] theorem enterPhase_tmp (p : Phase) : (enterPhase p s).tmp = s.tmp := hostPoint_tmp _
@[simp] theorem enterPhase_st (p : Phase) : (enterPhase p s).st = s.st := hostPoint_st _
@[simp] theorem enterPhase_pollcnt (p : Phase) : (enterPhase p s).pollcnt = s.pollcnt := hostPoint_pollcnt _
@[simp] theorem enterPhase_csEe (p : Phase) : (enterPhase p s).csEe = s.csEe := hostPoint_csEe _
@[simp] theorem enterPhase_csNor (p : Phase) : (enterPhase p s).csNor = s.csNor := hostPoint_csNor _
@[simp] theorem enterPhase_ee (p : Phase) : (enterPhase p s).ee = s.ee := hostPoint_ee _
@[simp] theorem enterPhase_nor (p : Phase) : (enterPhase p s).nor = s.nor := hostPoint_nor _
@[simp] theorem enterPhase_buf (p : Phase) : (enterPhase p s).buf = s.buf := hostPoint_buf _
@[simp] theorem enterPhase_trace (p : Phase) : (enterPhase p s).trace = s.trace ++ [.ph p] := hostPoint_trace _
@[simp] theorem enterPhase_frame (p : Phase) : (enterPhase p s).frame = s.frame := hostPoint_frame _
@[simp] theorem enterPhase_params (p : Phase) : (enterPhase p s).params = s.params := hostPoint_params _
@[simp] theorem enterPhase_fuse (p : Phase) : (enterPhase p s).fuse = s.fuse := hostPoint_fuse _
@[simp] theorem enterPhase_tape (p : Phase) : (enterPhase p s).tape = s.tape := hostPoint_tape _
@[simp] theorem enterPhase_drawn (p : Phase) : (enterPhase p s).drawn = s.drawn := hostPoint_drawn _
@[simp] theorem hostPoint_device (d : Dev) : (hostPoint s).device d = s.device d := by cases d <;> simp [State.device]
@[simp] theorem enterPhase_device (d : Dev) (p : Phase) : (enterPhase p s).device d = s.device d := by
  cases d <;> simp [State.device]
@[simp] theorem hostPoint_drawAt (j : Nat) : (hostPoint s).drawAt j = s.drawAt j := by simp [State.drawAt]
@[simp] theorem enterPhase_drawAt (j : Nat) (p : Phase) : (enterPhase p s).drawAt j = s.drawAt j := by simp [State.drawAt]
theorem enterPhase_self {s : State} (p : Phase) (h : Unobserved s) : enterPhase p s = s.toPhase p :=
  hostPoint_self h

/-! ### Draws -/

@[simp] theorem drawAt_skipDraws (n j : Nat) : (s.skipDraws n).drawAt j = s.drawAt (n + j) := by
  simp [State.drawAt, State.skipDraws, List.getElem?_drop, Nat.add_assoc]
@[simp] theorem skipDraws_skipDraws (m n : Nat) : (s.skipDraws m).skipDraws n = s.skipDraws (m + n) := by
  simp [State.skipDraws, Nat.add_assoc]
@[simp] theorem skipDraws_zero : s.skipDraws 0 = s := by
  simp [State.skipDraws]

/-! ### The flow of a procedure -/

@[simp] theorem Flow.bind_go {α β : Type} (a : α) (f : α → State → Flow β) : (Flow.go a s).bind f = f a s := rfl
@[simp] theorem Flow.bind_halt {α β : Type} (f : α → State → Flow β) : (Flow.halt s : Flow α).bind f = .halt s := rfl
@[simp] theorem Flow.state_go {α : Type} (a : α) : (Flow.go a s).state = s := rfl
@[simp] theorem Flow.state_halt {α : Type} : (Flow.halt s : Flow α).state = s := rfl
@[simp] theorem Flow.finally_go {α : Type} (a : α) (f : α → State → State) : (Flow.go a s).finally f = f a s := rfl
@[simp] theorem Flow.finally_halt {α : Type} (f : α → State → State) : (Flow.halt s : Flow α).finally f = s := rfl

/-! ### Frame end -/

@[simp] theorem close_mem (v : Device) : v.close.mem = v.mem := rfl
@[simp] theorem close_dbusy (v : Device) : v.close.dbusy = v.dbusy := rfl
@[simp] theorem close_busyReads (v : Device) : v.close.busyReads = v.busyReads := rfl
@[simp] theorem close_wel (v : Device) : v.close.wel = v.wel := rfl
@[simp] theorem close_counter (v : Device) : v.close.counter = 0 := rfl
@[simp] theorem close_rx (v : Device) : v.close.rx = [] := rfl
@[simp] theorem close_lost (v : Device) : v.close.lost = v.lost := rfl
@[simp] theorem close_close (v : Device) : v.close.close = v.close := rfl

end Sys2Proof.Machine
end

