-- ==== Sys2Proof/Laws/Frames.lean ====
section
/-! SUPPORT. What a frame does: once for any device, and once for each of the five frames on a device that follows its
protocol. Callers cite these lemmas and do not unfold the exchanges. -/

namespace Sys2Proof.Machine

/-! ### A state after a frame on device `d` -/

/-- `s` after a frame on device `d` that left the device as `v` and performed the events `es`. -/
def State.framed (s : State) (d : Dev) (v : Device) (es : List Event) : State :=
  { (s.setDevice d v).setCs d false with trace := s.trace ++ es }

section
variable (s : State) (d : Dev) (v : Device) (es : List Event)

@[simp] theorem framed_reqCtrl : (s.framed d v es).reqCtrl = s.reqCtrl := by cases d <;> rfl
@[simp] theorem framed_reqAddr : (s.framed d v es).reqAddr = s.reqAddr := by cases d <;> rfl
@[simp] theorem framed_reqLen : (s.framed d v es).reqLen = s.reqLen := by cases d <;> rfl
@[simp] theorem framed_go : (s.framed d v es).go = s.go := by cases d <;> rfl
@[simp] theorem framed_busy : (s.framed d v es).busy = s.busy := by cases d <;> rfl
@[simp] theorem framed_phase : (s.framed d v es).phase = s.phase := by cases d <;> rfl
@[simp] theorem framed_outcome : (s.framed d v es).outcome = s.outcome := by cases d <;> rfl
@[simp] theorem framed_rdata : (s.framed d v es).rdata = s.rdata := by cases d <;> rfl
@[simp] theorem framed_latch : (s.framed d v es).latch = s.latch := by cases d <;> rfl
@[simp] theorem framed_cur : (s.framed d v es).cur = s.cur := by cases d <;> rfl
@[simp] theorem framed_rem : (s.framed d v es).rem = s.rem := by cases d <;> rfl
@[simp] theorem framed_idx : (s.framed d v es).idx = s.idx := by cases d <;> rfl
@[simp] theorem framed_clen : (s.framed d v es).clen = s.clen := by cases d <;> rfl
@[simp] theorem framed_tmp : (s.framed d v es).tmp = s.tmp := by cases d <;> rfl
@[simp] theorem framed_st : (s.framed d v es).st = s.st := by cases d <;> rfl
@[simp] theorem framed_pollcnt : (s.framed d v es).pollcnt = s.pollcnt := by cases d <;> rfl
@[simp] theorem framed_buf : (s.framed d v es).buf = s.buf := by cases d <;> rfl
@[simp] theorem framed_trace : (s.framed d v es).trace = s.trace ++ es := by cases d <;> rfl
@[simp] theorem framed_frame : (s.framed d v es).frame = s.frame := by cases d <;> rfl
@[simp] theorem framed_params : (s.framed d v es).params = s.params := by cases d <;> rfl
@[simp] theorem framed_inbox : (s.framed d v es).inbox = s.inbox := by cases d <;> rfl
@[simp] theorem framed_hostData : (s.framed d v es).hostData = s.hostData := by cases d <;> rfl
@[simp] theorem framed_fuse : (s.framed d v es).fuse = s.fuse := by cases d <;> rfl
@[simp] theorem framed_tape : (s.framed d v es).tape = s.tape := by cases d <;> rfl
@[simp] theorem framed_drawn : (s.framed d v es).drawn = s.drawn := by cases d <;> rfl
@[simp] theorem framed_device : (s.framed d v es).device d = v := by cases d <;> rfl
@[simp] theorem framed_cs : (s.framed d v es).cs d = false := by cases d <;> rfl
theorem framed_device_ne {d' : Dev} (h : d' ≠ d) : (s.framed d v es).device d' = s.device d' := by
  cases d <;> cases d' <;> first | rfl | exact absurd rfl h
theorem framed_cs_ne {d' : Dev} (h : d' ≠ d) : (s.framed d v es).cs d' = s.cs d' := by
  cases d <;> cases d' <;> first | rfl | exact absurd rfl h
@[simp] theorem framed_drawAt (j : Nat) : (s.framed d v es).drawAt j = s.drawAt j := by cases d <;> rfl
@[simp] theorem framed_ee : (s.framed .ee v es) = { s with ee := v, csEe := false, trace := s.trace ++ es } := rfl
@[simp] theorem framed_nor : (s.framed .nor v es) = { s with nor := v, csNor := false, trace := s.trace ++ es } := rfl
end

/-! ### The exchanges of a frame -/

/-- What device `d` is after hearing `os`. -/
def Device.feed (d : Dev) : List Byte → Device → Device
  | [], v => v
  | o :: os, v => Device.feed d os (v.hear d o).2

theorem feed_append (d : Dev) (os ps : List Byte) (v : Device) :
    Device.feed d (os ++ ps) v = Device.feed d ps (Device.feed d os v) := by
  induction os generalizing v with
  | nil => rfl
  | cons o os ih => exact ih _

/-- Sending bytes performs their exchanges in order and changes nothing else but the device (R120). -/
theorem sendAll_eq (d : Dev) (os : List Byte) (s : State) :
    sendAll d os s =
      { s.setDevice d (Device.feed d os (s.device d)) with trace := s.trace ++ os.map (fun o => Event.x d o none) } := by
  induction os generalizing s with
  | nil => cases d <;> simp [sendAll, Device.feed, State.setDevice, State.device]
  | cons o os ih =>
    rw [sendAll, ih]
    cases d <;> simp [send, Device.feed, State.setDevice, State.device, State.log]

/-- Receiving bytes performs their exchanges in order, makes some draws, and changes nothing else but the device. -/
theorem receiveAll_eq (d : Dev) (os : List Byte) (s : State) :
    ∃ (bs : List Byte) (v : Device) (n : Nat), bs.length = os.length ∧
      receiveAll d os s = (bs, { (s.skipDraws n).setDevice d v with
        trace := s.trace ++ List.zipWith (fun o i => Event.x d o (some i)) os bs }) := by
  induction os generalizing s with
  | nil => exact ⟨[], s.device d, 0, rfl, by cases d <;> simp [receiveAll, State.setDevice, State.device]⟩
  | cons o os ih =>
    obtain ⟨bs, v, n, hl, he⟩ := ih (receive d o s).2
    refine ⟨(receive d o s).1 :: bs, v, ((s.device d).hear d o).1.draws + n, by simp [hl], ?_⟩
    rw [receiveAll, he]
    cases d <;>
      simp [receive, State.setDevice, State.device, State.log, State.skipDraws, Nat.add_assoc]

/-- The release of exclusive access changes nothing but the device and the draws (R61 to R67). -/
theorem endFrame_eq (d : Dev) (s : State) :
    ∃ (v : Device) (n : Nat), endFrame d s = (s.skipDraws n).setDevice d v := by
  unfold endFrame
  simp only
  split
  · exact ⟨_, 0, by rw [skipDraws_zero]⟩
  · split
    · exact ⟨_, 0, by rw [skipDraws_zero]⟩
    · exact ⟨_, 0, by rw [skipDraws_zero]⟩
    · exact ⟨_, 0, by rw [skipDraws_zero]⟩
    · split
      · exact ⟨_, 1, rfl⟩
      · exact ⟨_, 0, by rw [skipDraws_zero]⟩

/-- All that a whole frame can do: it performs its events, draws, changes its own device, and leaves exclusive access
released; as many bytes come back as were asked for. -/
theorem wholeFrame_eq (d : Dev) (sends recvs : List Byte) (s : State) :
    ∃ (bs : List Byte) (v : Device) (n : Nat), bs.length = recvs.length ∧
      wholeFrame d sends recvs s = (bs, (s.skipDraws n).framed d v (frameEvents d sends recvs bs)) := by
  obtain ⟨bs, v, n, hl, he⟩ := receiveAll_eq d recvs (sendAll d sends (select d s))
  obtain ⟨w, m, hw⟩ := endFrame_eq d (receiveAll d recvs (sendAll d sends (select d s))).2
  refine ⟨bs, w, n + m, hl, ?_⟩
  simp only [wholeFrame, deselect, hw]
  rw [he, sendAll_eq]
  cases d <;>
    simp [select, State.framed, frameEvents, State.setDevice, State.setCs, State.log, State.skipDraws, Nat.add_assoc]

/-- Without a reset on its way a frame is performed whole. -/
theorem performFrame_none (d : Dev) (sends recvs : List Byte) (s : State) (h : s.fuse = none) :
    performFrame d sends recvs s = .go (wholeFrame d sends recvs s).1 (wholeFrame d sends recvs s).2 := by
  simp [performFrame, h]

/-! ### A device that follows its protocol -/

/-- A device that is not busy and has recorded no fault only takes in what it hears. -/
theorem hear_quiet (d : Dev) (o : Byte) (v : Device) (hl : v.lost = none) (hb : v.dbusy = false) :
    ∃ n, (v.hear d o).2 = { v with rx := v.rx ++ [o], counter := n } := by
  obtain ⟨mem, dbusy, busyReads, wel, counter, rx, lost⟩ := v
  simp only at hl hb
  subst hl hb
  unfold Device.hear
  simp only [Option.isSome_none, Bool.false_eq_true, if_false, false_and]
  split
  · exact ⟨_, rfl⟩
  · split
    · exact ⟨_, rfl⟩
    · split
      · exact ⟨counter + 1, rfl⟩
      · exact ⟨_, rfl⟩

theorem feed_quiet (d : Dev) (os : List Byte) (v : Device) (hl : v.lost = none) (hb : v.dbusy = false) :
    ∃ n, Device.feed d os v = { v with rx := v.rx ++ os, counter := n } := by
  induction os generalizing v with
  | nil => exact ⟨v.counter, by simp [Device.feed]⟩
  | cons o os ih =>
    obtain ⟨n, hn⟩ := hear_quiet d o v hl hb
    obtain ⟨m, hm⟩ := ih (v.hear d o).2 (by rw [hn]; exact hl) (by rw [hn]; exact hb)
    exact ⟨m, by rw [Device.feed, hm, hn]; simp⟩

/-- What the bytes of a header and what follows them parse to: the address is the one that was cut into bytes (R92, R93, R99). -/
theorem takeAddr_header (d : Dev) (c : Byte) (a : Word) (tl : List Byte) (h : a.toNat < d.size) :
    takeAddr d ((headerBytes d c a ++ tl).tail) = some (a.toNat, tl) := by
  cases d
  · simp only [Dev.size, Config.eeSize] at h
    simp only [headerBytes, List.cons_append, List.tail_cons, List.nil_append, takeAddr,
      BitVec.extractLsb'_toNat, Nat.shiftRight_eq_div_pow, Option.some.injEq, Prod.mk.injEq, and_true]
    omega
  · simp only [Dev.size, Config.norSize] at h
    simp only [headerBytes, List.cons_append, List.tail_cons, List.nil_append, takeAddr,
      BitVec.extractLsb'_toNat, Nat.shiftRight_eq_div_pow, Option.some.injEq, Prod.mk.injEq, and_true]
    omega

theorem header_append_eq (d : Dev) (c : Byte) (a : Word) (tl : List Byte) :
    headerBytes d c a ++ tl = c :: (headerBytes d c a ++ tl).tail := by
  cases d <;> rfl

theorem parse_read (d : Dev) (a : Word) (outs : List Byte) (h : a.toNat < d.size) :
    parseFrame d (headerBytes d Config.opcRead a ++ outs) = .ok (.read a.toNat outs) := by
  rw [header_append_eq]
  have h0 := takeAddr_header d Config.opcRead a outs h
  simp only [parseFrame, h0]
  simp [Config.opcRead, Config.opcWren, Config.opcRdsr]

theorem parse_program (d : Dev) (a : Word) (b : Byte) (data : List Byte) (h : a.toNat < d.size) :
    parseFrame d (headerBytes d Config.opcProgram a ++ b :: data) = .ok (.program a.toNat (b :: data)) := by
  rw [header_append_eq]
  have h0 := takeAddr_header d Config.opcProgram a (b :: data) h
  simp only [parseFrame, h0]
  simp [Config.opcProgram, Config.opcRead, Config.opcWren, Config.opcRdsr]

theorem parse_erase (a : Word) (h : a.toNat < Dev.nor.size) :
    parseFrame .nor (headerBytes .nor Config.opcSe a) = .ok (.erase a.toNat) := by
  have h0 := takeAddr_header .nor Config.opcSe a [] h
  rw [List.append_nil] at h0
  have h1 := header_append_eq .nor Config.opcSe a []
  rw [List.append_nil] at h1
  rw [h1]
  simp only [parseFrame, h0]
  simp [Config.opcSe, Config.opcProgram, Config.opcRead, Config.opcWren, Config.opcRdsr]

/-! ### The five frames -/

/-- The release of exclusive access after the bytes of frame `f`, on a device that holds no fault. -/
theorem endFrame_ok (d : Dev) (s : State) (v : Device) (f : Frame) (hd : s.device d = v) (hl : v.lost = none)
    (hp : parseFrame d v.rx = .ok f) :
    endFrame d s =
      if v.starts d f then (s.skipDraws 1).setDevice d (v.obey d f (s.drawAt 0)).close
      else s.setDevice d (v.obey d f 0).close := by
  simp [endFrame, hd, hl, hp]

/-- What was heard decides what a device obeys; how far its address counter came does not matter. -/
theorem obey_heard (d : Dev) (f : Frame) (v : Device) (rx : List Byte) (k m : Nat) :
    (({ v.close with rx := rx, counter := k } : Device).obey d f m).close = (v.obey d f m).close := by
  cases f with
  | wren => rfl
  | rdsr x => rfl
  | read a outs => rfl
  | program a data =>
    simp only [Device.obey]
    (repeat' split) <;> first | rfl | contradiction
  | erase a =>
    simp only [Device.obey]
    (repeat' split) <;> first | rfl | contradiction

theorem starts_heard (d : Dev) (f : Frame) (v : Device) (rx : List Byte) (k : Nat) :
    ({ v.close with rx := rx, counter := k } : Device).starts d f = v.starts d f := by
  cases f <;> rfl

/-- A frame whose answers are all discarded, on a device that is ready: the device obeys what the bytes say (R61 to R64). -/
theorem frame_sends (d : Dev) (sends : List Byte) (f : Frame) (s : State) (h : Quiet d s)
    (hp : parseFrame d sends = .ok f) :
    performFrame d sends [] s = .go []
      (if (s.device d).starts d f then
        (s.skipDraws 1).framed d ((s.device d).obey d f (s.drawAt 0)).close (frameEvents d sends [] [])
      else s.framed d ((s.device d).obey d f 0).close (frameEvents d sends [] [])) := by
  obtain ⟨hf, hl, hb⟩ := h
  rw [performFrame_none _ _ _ _ hf]
  obtain ⟨n, hn⟩ := feed_quiet d sends (s.device d).close hl hb
  have hd : (select d s).device d = (s.device d).close := by cases d <;> rfl
  have hs : (sendAll d sends (select d s)).device d = { (s.device d).close with rx := sends, counter := n } := by
    rw [sendAll_eq, hd, hn]
    cases d <;> simp [State.setDevice, State.device]
  have hw : (wholeFrame d sends [] s).2 = deselect d (sendAll d sends (select d s)) := rfl
  have h1 : (wholeFrame d sends [] s).1 = [] := rfl
  have hdr : (sendAll d sends (select d s)).drawAt 0 = s.drawAt 0 := by
    rw [sendAll_eq]; simp [State.drawAt, select]
  rw [hw, h1, deselect, endFrame_ok d _ _ f hs hl hp, starts_heard, obey_heard, obey_heard, hdr]
  congr 1
  rw [sendAll_eq]
  split <;> cases d <;>
    simp [select, State.framed, frameEvents, State.setDevice, State.setCs, State.log, State.skipDraws]

/-- A write-enable frame sets the latch (R61, R94). -/
theorem frameWren_quiet (d : Dev) (s : State) (h : Quiet d s) :
    frameWren d s = .go () (s.framed d { (s.device d).close with wel := true } (wrenEvents d)) := by
  simp only [frameWren]
  rw [frame_sends d [Config.opcWren] .wren s h (by cases d <;> rfl)]
  rfl

/-- A program frame inside one page, after a write-enable: the data are in storage, the device is busy for a drawn time, and the
latch is clear again (R62, R63). -/
theorem frameProgram_quiet (d : Dev) (a : Word) (data : List Byte) (s : State) (h : Quiet d s)
    (hw : (s.device d).wel = true) (hf : programFits d a.toNat data.length = true) :
    frameProgram d a data s = .go () ((s.skipDraws 1).framed d
      (({ s.device d with mem := programMem d (s.device d).mem a.toNat data }.startBusy (s.drawAt 0)).close)
      (programEvents d a data)) := by
  simp only [programFits, Bool.and_eq_true, decide_eq_true_eq] at hf
  obtain ⟨⟨h1, h2⟩, h3⟩ := hf
  cases data with
  | nil => simp at h1
  | cons b data =>
    simp only [frameProgram]
    rw [frame_sends d _ _ s h (parse_program d a b data h2)]
    have hns : ¬ d.page < a.toNat % d.page + (b :: data).length := by omega
    have hna : ¬ d.size ≤ a.toNat := by omega
    simp only [Device.starts, Device.obey, hw, decide_eq_true h2, decide_eq_true h3, Bool.and_self, if_true,
      Bool.true_eq_false, if_false, hns, hna, Flow.bind_go]
    rfl

/-- A sector-erase frame after a write-enable: the sector is erased, the device is busy for a drawn time (R64). -/
theorem frameErase_quiet (a : Word) (s : State) (h : Quiet .nor s) (hw : s.nor.wel = true)
    (ha : a.toNat < Dev.nor.size) :
    frameErase a s = .go () ((s.skipDraws 1).framed .nor
      (({ s.nor with mem := Memory.erase s.nor.mem (sectorBase a.toNat) Config.norSector }.startBusy (s.drawAt 0)).close)
      (eraseEvents a)) := by
  simp only [frameErase]
  rw [frame_sends .nor _ _ s h (parse_erase a ha)]
  simp only [Device.starts, Device.obey, device_nor, hw, if_true, Bool.true_eq_false, if_false, Flow.bind_go]
  rfl

/-- The busy flag is sampled whatever was heard so far. -/
theorem sample_heard (v : Device) (rx : List Byte) (k : Nat) :
    ({ v.close with rx := rx, counter := k } : Device).sample =
      (v.sample.1, { v.sample.2.close with rx := rx, counter := k }) := by
  obtain ⟨mem, dbusy, busyReads, wel, counter, rx', lost⟩ := v
  cases dbusy with
  | false => rfl
  | true => rcases busyReads with _ | _ | n <;> rfl

@[simp] theorem sample_lost (v : Device) : v.sample.2.lost = v.lost := by
  unfold Device.sample
  (repeat' split) <;> rfl

@[simp] theorem sample_mem (v : Device) : v.sample.2.mem = v.mem := by
  unfold Device.sample
  (repeat' split) <;> rfl

@[simp] theorem sample_wel (v : Device) : v.sample.2.wel = v.wel := by
  unfold Device.sample
  (repeat' split) <;> rfl

/-- What a frame leaves, given what its exchanges gave back and made of the device, and what the device then obeys. -/
theorem performFrame_answers (d : Dev) (sends recvs bs : List Byte) (f : Frame) (s : State) (v w : Device) (n : Nat)
    (hf : s.fuse = none) (hs : Device.feed d sends (s.device d).close = v)
    (hr : ∀ t : State, t.device d = v → (∀ j, t.drawAt j = s.drawAt j) → receiveAll d recvs t =
      (bs, { (t.skipDraws n).setDevice d w with
        trace := t.trace ++ List.zipWith (fun o i => Event.x d o (some i)) recvs bs }))
    (hl : w.lost = none) (hp : parseFrame d w.rx = .ok f) (hst : w.starts d f = false) (ho : w.obey d f 0 = w) :
    performFrame d sends recvs s =
      .go bs ((s.skipDraws n).framed d w.close (frameEvents d sends recvs bs)) := by
  rw [performFrame_none _ _ _ _ hf]
  have hd : (select d s).device d = (s.device d).close := by cases d <;> rfl
  have hsd : (sendAll d sends (select d s)).device d = v := by
    rw [sendAll_eq, hd, hs]
    cases d <;> simp [State.setDevice, State.device]
  have hrr := hr (sendAll d sends (select d s)) hsd (by
    intro j; rw [sendAll_eq]; simp [State.drawAt, select])
  have h1 : (wholeFrame d sends recvs s).1 = bs := by
    simp only [wholeFrame]; rw [hrr]
  have hw : (wholeFrame d sends recvs s).2 = deselect d (receiveAll d recvs (sendAll d sends (select d s))).2 := rfl
  have hwd : (receiveAll d recvs (sendAll d sends (select d s))).2.device d = w := by
    rw [hrr]; cases d <;> rfl
  rw [h1, hw, deselect, endFrame_ok d _ w f hwd hl hp, hst, ho, hrr]
  congr 1
  rw [sendAll_eq]
  cases d <;>
    simp [select, State.framed, frameEvents, State.setDevice, State.setCs, State.log, State.skipDraws]

/-- The second exchange of a read-status frame (R65). -/
theorem hear_status (d : Dev) (x : Byte) (v : Device) (hl : v.lost = none) :
    ({ v.close with rx := [Config.opcRdsr], counter := 0 } : Device).hear d x =
      (.status v.sample.1, { v.sample.2.close with rx := [Config.opcRdsr, x], counter := 0 }) := by
  obtain ⟨mem, dbusy, busyReads, wel, counter, rx, lost⟩ := v
  simp only at hl
  subst hl
  cases dbusy <;> rcases busyReads with _ | _ | n <;> cases d <;> rfl

/-- A read-status frame samples the busy flag of a device that holds no fault, busy or not (R65, R66). -/
theorem frameRdsr_lostFree (d : Dev) (x : Byte) (s : State) (hf : s.fuse = none) (hl : (s.device d).lost = none) :
    frameRdsr d x s = .go ()
      { (s.skipDraws 1).framed d (s.device d).sample.2.close
          (rdsrEvents d x (statusOfDraw (s.device d).sample.1 (s.drawAt 0))) with
        st := statusOfDraw (s.device d).sample.1 (s.drawAt 0) } := by
  have hlen : headerLen d ≠ 1 ∧ headerLen d ≠ 2 := by cases d <;> decide
  have hs : Device.feed d [Config.opcRdsr] (s.device d).close =
      { (s.device d).close with rx := [Config.opcRdsr], counter := 0 } := by
    simp [Device.feed, Device.hear, Device.take, hl, Ne.symm hlen.1]
  have hp : performFrame d [Config.opcRdsr] [x] s =
      .go [statusOfDraw (s.device d).sample.1 (s.drawAt 0)] ((s.skipDraws 1).framed d
        (({ (s.device d).sample.2.close with rx := [Config.opcRdsr, x], counter := 0 } : Device).close)
        (frameEvents d [Config.opcRdsr] [x] [statusOfDraw (s.device d).sample.1 (s.drawAt 0)])) := by
    refine performFrame_answers d _ _ _ (.rdsr x) s _ _ 1 hf hs ?_ (by simp [hl]) (by cases d <;> rfl) rfl rfl
    intro t ht hd
    have hh : (t.device d).hear d x =
        (.status (s.device d).sample.1,
          { (s.device d).sample.2.close with rx := [Config.opcRdsr, x], counter := 0 }) := by
      rw [ht, hear_status d x _ hl]
    simp only [receiveAll, receive, hh, Answer.toByte, Answer.draws, hd]
    cases d <;> simp [State.setDevice, State.log]
  rw [frameRdsr, hp]
  rfl

/-- The exchanges of a read frame past its header give back the bytes from the address counter on (R60). -/
theorem receiveAll_read (d : Dev) (outs : List Byte) (s : State) (v : Device) (tl : List Byte)
    (hv : s.device d = v) (hl : v.lost = none) (hrx : v.rx = Config.opcRead :: tl) (hlen : headerLen d ≤ v.rx.length) :
    receiveAll d outs s = (Memory.readMany v.mem v.counter outs.length,
      { s.setDevice d { v with rx := v.rx ++ outs, counter := v.counter + outs.length } with
        trace := s.trace ++ List.zipWith (fun o i => Event.x d o (some i)) outs
          (Memory.readMany v.mem v.counter outs.length) }) := by
  induction outs generalizing s v tl with
  | nil =>
    subst hv
    cases d <;> simp [receiveAll, Memory.readMany, State.setDevice, State.device]
  | cons o outs ih =>
    have hh : v.hear d o = (.byte (Memory.read v.mem v.counter),
        { v with rx := v.rx ++ [o], counter := v.counter + 1 }) := by
      obtain ⟨mem, dbusy, busyReads, wel, counter, rx, lost⟩ := v
      simp only at hl hrx hlen
      subst hl hrx
      have hne : ¬ (Config.opcRead = Config.opcRdsr ∧ tl = []) := by simp [Config.opcRead, Config.opcRdsr]
      simp only [Device.hear, Option.isSome_none, Bool.false_eq_true, if_false, hne, true_and, hlen, if_true]
      rfl
    have hr : receive d o s = (Memory.read v.mem v.counter,
        (s.setDevice d { v with rx := v.rx ++ [o], counter := v.counter + 1 }).log
          (.x d o (some (Memory.read v.mem v.counter)))) := by
      simp only [receive, hv, hh, Answer.toByte, Answer.draws, skipDraws_zero]
    have hi := ih ((s.setDevice d { v with rx := v.rx ++ [o], counter := v.counter + 1 }).log
          (.x d o (some (Memory.read v.mem v.counter)))) { v with rx := v.rx ++ [o], counter := v.counter + 1 }
          (tl ++ [o]) (by cases d <;> rfl) hl (by simp [hrx]) (by simp; omega)
    rw [receiveAll, hr, hi]
    simp only [List.length_cons, Memory.readMany, List.append_assoc, List.singleton_append, Nat.add_assoc,
      Nat.add_comm 1 outs.length, Prod.mk.injEq, true_and]
    cases d <;> simp [State.setDevice, State.log]

/-- The header of a read frame loads the address counter (R59, R60). -/
theorem feed_readHeader (d : Dev) (a : Word) (v : Device) (hl : v.lost = none) (hb : v.dbusy = false)
    (ha : a.toNat < d.size) :
    Device.feed d (headerBytes d Config.opcRead a) v.close =
      { v.close with rx := headerBytes d Config.opcRead a, counter := a.toNat } := by
  have h0 := takeAddr_header d Config.opcRead a [] ha
  rw [List.append_nil] at h0
  obtain ⟨mem, dbusy, busyReads, wel, counter, rx, lost⟩ := v
  simp only at hl hb
  subst hl hb
  cases d <;>
    simp only [headerBytes, List.tail_cons] at h0 <;>
    simp [headerBytes, Device.feed, Device.hear, Device.take, Device.close, headerLen, Dev.addrBytes,
      Config.opcRead, Config.opcRdsr, headerAddr, h0]

/-- A read frame on a device that is ready gives back its storage, byte by byte, and changes nothing of it (R58, R60, R96). -/
theorem frameReadOuts_quiet (d : Dev) (a : Word) (outs : List Byte) (s : State) (h : Quiet d s)
    (ha : a.toNat < d.size) :
    frameReadOuts d a outs s = .go (Memory.readMany (s.device d).mem a.toNat outs.length)
      (s.framed d (s.device d).close
        (readEvents d a outs (Memory.readMany (s.device d).mem a.toNat outs.length))) := by
  obtain ⟨hf, hl, hb⟩ := h
  have hlen : headerLen d ≤ (headerBytes d Config.opcRead a).length := by
    cases d <;> exact Nat.le_refl _
  obtain ⟨tl, htl⟩ : ∃ tl, headerBytes d Config.opcRead a = Config.opcRead :: tl := by cases d <;> exact ⟨_, rfl⟩
  have := performFrame_answers d (headerBytes d Config.opcRead a) outs
    (Memory.readMany (s.device d).mem a.toNat outs.length) (.read a.toNat outs) s _
    { (s.device d).close with
      rx := headerBytes d Config.opcRead a ++ outs, counter := a.toNat + outs.length } 0 hf
    (feed_readHeader d a (s.device d) hl hb ha)
    (by
      intro t ht _
      rw [receiveAll_read d outs t _ tl ht hl htl hlen, skipDraws_zero]
      rfl)
    hl (parse_read d a outs ha) rfl rfl
  rw [frameReadOuts, this, skipDraws_zero]
  rfl

/-! ### A device that has left its protocol (R68) -/

/-- It only takes in what it hears, and its answers are any bytes. -/
theorem hear_lost (d : Dev) (o : Byte) (v : Device) (h : v.lost.isSome = true) :
    v.hear d o = (.any, v.take d o) := by
  simp [Device.hear, h]

theorem feed_lost (d : Dev) (os : List Byte) (v : Device) (h : v.lost.isSome = true) :
    ∃ rx n, Device.feed d os v = { v with rx := rx, counter := n } := by
  induction os generalizing v with
  | nil => exact ⟨v.rx, v.counter, rfl⟩
  | cons o os ih =>
    obtain ⟨rx, n, hn⟩ := ih (v.take d o) h
    exact ⟨rx, n, by rw [Device.feed, hear_lost d o v h, hn]; rfl⟩

theorem drawnBytes_succ (n : Nat) (s : State) :
    drawnBytes (n + 1) s = byteOfDraw (s.drawAt 0) :: drawnBytes n (s.skipDraws 1) := by
  simp only [drawnBytes, List.range_succ_eq_map, List.map_cons, List.map_map, List.cons.injEq, true_and]
  refine List.map_congr_left fun j _ => ?_
  simp [Nat.add_comm]

theorem drawnBytes_congr {s t : State} (h : ∀ j, t.drawAt j = s.drawAt j) (n : Nat) : drawnBytes n t = drawnBytes n s := by
  simp [drawnBytes, h]

/-- The bytes it answers are draws, one for each. -/
theorem receiveAll_lost (d : Dev) (os : List Byte) (s : State) (h : (s.device d).lost.isSome = true) :
    ∃ rx n, receiveAll d os s = (drawnBytes os.length s,
      { (s.skipDraws os.length).setDevice d { s.device d with rx := rx, counter := n } with
        trace := s.trace ++ List.zipWith (fun o i => Event.x d o (some i)) os (drawnBytes os.length s) }) := by
  induction os generalizing s with
  | nil => exact ⟨(s.device d).rx, (s.device d).counter, 
      by cases d <;> simp [receiveAll, drawnBytes, skipDraws_zero, State.setDevice, State.device]⟩
  | cons o os ih =>
    have hr : receive d o s = (byteOfDraw (s.drawAt 0), (((s.skipDraws 1).setDevice d ((s.device d).take d o)).log
        (.x d o (some (byteOfDraw (s.drawAt 0)))))) := by
      simp [receive, hear_lost d o _ h, Answer.toByte, Answer.draws]
    obtain ⟨rx, n, hi⟩ := ih (receive d o s).2 (by rw [hr]; simpa [Device.take] using h)
    refine ⟨rx, n, ?_⟩
    have hd : drawnBytes os.length (receive d o s).2 = drawnBytes os.length (s.skipDraws 1) := by
      rw [hr]; refine drawnBytes_congr (fun j => ?_) _
      cases d <;> rfl
    rw [receiveAll, hi, hd, hr, List.length_cons, drawnBytes_succ]
    simp only [List.zipWith_cons_cons]
    cases d <;>
      simp [State.setDevice, State.device, State.log, State.skipDraws, Device.take, Nat.add_comm os.length 1, Nat.add_assoc]

/-- A frame on a device that has left its protocol, or, but for a read-status frame, on one that is busy (R68 (b)): its storage
is as it was, its answers are draws, and the reason is recorded. -/
theorem performFrame_misused (d : Dev) (c : Byte) (tl recvs : List Byte) (s : State) (hf : s.fuse = none)
    (h : (s.device d).lost.isSome = true ∨ ((s.device d).dbusy = true ∧ c ≠ Config.opcRdsr)) :
    performFrame d (c :: tl) recvs s = .go (drawnBytes recvs.length s)
      (misused d ((s.device d).lost.getD .whileBusy) recvs.length
        (frameEvents d (c :: tl) recvs (drawnBytes recvs.length s)) s) := by
  have hd : (select d s).device d = (s.device d).close := by cases d <;> rfl
  -- after the opcode the fault is there
  have h1 : ∃ rx n, (send d c (select d s)).device d =
      { (s.device d).close with lost := some ((s.device d).lost.getD .whileBusy), rx := rx, counter := n } := by
    have : ((s.device d).close.hear d c).2.lost = some ((s.device d).lost.getD .whileBusy) ∧
        ∃ rx n, ((s.device d).close.hear d c).2 =
          { (s.device d).close with lost := ((s.device d).close.hear d c).2.lost, rx := rx, counter := n } := by
      rcases hl : (s.device d).lost with _ | w
      · rw [hl] at h
        simp only [Option.isSome_none, Bool.false_eq_true, false_or] at h
        simp only [Device.hear, Device.close, hl, Option.isSome_none, Bool.false_eq_true, if_false, h.1, h.2, ne_eq,
          not_false_eq_true, and_self, if_true]
        exact ⟨rfl, _, _, rfl⟩
      · have : (s.device d).close.lost.isSome = true := by simp [Device.close, hl]
        rw [hear_lost d c _ this]
        exact ⟨by simp [Device.take, Device.close, hl], _, _, rfl⟩
    obtain ⟨ha, rx, n, hb⟩ := this
    exact ⟨rx, n, by rw [send, hd, log_device, setDevice_device, hb, ha]⟩
  obtain ⟨rx, n, h1⟩ := h1
  obtain ⟨rx2, n2, h2⟩ := feed_lost d tl ((send d c (select d s)).device d) (by rw [h1]; rfl)
  have hsd : (sendAll d (c :: tl) (select d s)).device d =
      { (s.device d).close with lost := some ((s.device d).lost.getD .whileBusy), rx := rx2, counter := n2 } := by
    rw [sendAll, sendAll_eq, h2, h1]; cases d <;> rfl
  obtain ⟨rx3, n3, h3⟩ := receiveAll_lost d recvs (sendAll d (c :: tl) (select d s)) (by rw [hsd]; rfl)
  have hdr : drawnBytes recvs.length (sendAll d (c :: tl) (select d s)) = drawnBytes recvs.length s :=
    drawnBytes_congr (fun j => by rw [sendAll_eq]; simp [State.drawAt, select]) _
  rw [hdr, hsd] at h3
  rw [performFrame_none _ _ _ _ hf]
  have hw1 : (wholeFrame d (c :: tl) recvs s).1 = drawnBytes recvs.length s := by simp only [wholeFrame]; rw [h3]
  have hw2 : (wholeFrame d (c :: tl) recvs s).2 = deselect d (receiveAll d recvs (sendAll d (c :: tl) (select d s))).2 := rfl
  rw [hw1, hw2, h3, sendAll_eq]
  congr 1
  cases d <;>
    simp [deselect, endFrame, misused, select, frameEvents, State.setDevice, State.setCs, State.log, State.skipDraws, State.device,
      Device.close]

end Sys2Proof.Machine
end

