-- ==== Sys2Proof/Laws/Sequencer.lean ====
section
/-! SUPPORT. What the shared procedures of the sequencer do: the judgement of a status byte, one write cycle, and the operations
made of them. Callers cite these lemmas and do not unfold the procedures. -/

namespace Sys2Proof.Machine

/-! ### The status byte -/

/-- Bit 0 of a status byte is the busy flag, whatever the other bits are (R65, R127). -/
@[simp] theorem busyBit_statusOfDraw (b : Bool) (n : Nat) : busyBit (statusOfDraw b n) = b := by
  simp only [busyBit, statusOfDraw, BitVec.getLsbD_ofNat]
  cases b
  · simp
  · simp [Nat.testBit_zero, Nat.add_mod]

/-! ### Draws are not touched by anything but a draw -/

theorem drawAt_congr {s t : State} (h1 : t.tape = s.tape) (h2 : t.drawn = s.drawn) (j : Nat) :
    t.drawAt j = s.drawAt j := by
  simp [State.drawAt, h1, h2]

/-! ### Two frames in a row on one device -/

theorem framed_framed (s : State) (d : Dev) (v w : Device) (es fs : List Event) :
    (s.framed d v es).framed d w fs = s.framed d w (es ++ fs) := by
  cases d <;> simp [State.framed, State.setDevice, State.setCs]

/-- A body of a write cycle: after a write-enable, a frame that leaves storage as `mem` and the device busy (R62 to R64). -/
def Body (d : Dev) (s : State) (body : State → Flow Unit) (mem : List Host.Cell) (es : List Event) : Prop :=
  ∀ t : State, Quiet d t → (t.device d).wel = true → (t.device d).mem = (s.device d).mem →
    body t = .go () ((t.skipDraws 1).framed d
      (({ t.device d with mem := mem }.startBusy (t.drawAt 0)).close) es)

theorem body_program (d : Dev) (s : State) (a : Word) (data : List Byte)
    (hf : programFits d a.toNat data.length = true) :
    Body d s (frameProgram d a data) (programMem d (s.device d).mem a.toNat data) (programEvents d a data) := by
  intro t hq hw hm
  rw [frameProgram_quiet d a data t hq hw hf, hm]

theorem body_erase (s : State) (a : Word) (ha : a.toNat < Dev.nor.size) :
    Body .nor s (frameErase a) (Memory.erase s.nor.mem (sectorBase a.toNat) Config.norSector) (eraseEvents a) := by
  intro t hq hw hm
  rw [frameErase_quiet a t hq hw ha]
  simp only [device_nor] at hm ⊢
  rw [hm]

/-- A write cycle up to its first status byte (R128): the three frames, the busy draw and the status draw. -/
theorem writeCycle_eq (d : Dev) (body : State → Flow Unit) (mem : List Host.Cell) (es : List Event) (s : State)
    (hq : Quiet d s) (hu : Unobserved s) (hb : Body d s body mem es) :
    writeCycle d body s =
      let v : Device := ({ s.device d with mem := mem }.startBusy (s.drawAt 0)).close
      let st := statusOfDraw v.sample.1 (s.drawAt 1)
      judgeStatus d
        { (s.skipDraws 2).framed d v.sample.2.close
            (wrenEvents d ++ [.ph .writeEnabled] ++ es ++ [.ph .commandIssued, .ph .polling] ++
              rdsrEvents d s.params.dummyOut st) with
          st := st, pollcnt := 0, phase := .polling } := by
  obtain ⟨hf, hl, hd⟩ := hq
  have h1 := frameWren_quiet d s ⟨hf, hl, hd⟩
  rw [writeCycle, h1, Flow.bind_go, enterPhase_self _ (hu.of (by simp))]
  set s1 := (s.framed d { (s.device d).close with wel := true } (wrenEvents d)).toPhase .writeEnabled with hs1
  have hdev1 : s1.device d = { (s.device d).close with wel := true } := by simp [hs1]
  have hb1 := hb s1 ⟨by simp [hs1, hf], by rw [hdev1]; exact hl, by rw [hdev1]; exact hd⟩
    (by rw [hdev1]) (by rw [hdev1]; rfl)
  have hdr1 : s1.drawAt 0 = s.drawAt 0 := drawAt_congr (by simp [hs1]) (by simp [hs1]) 0
  rw [hb1, Flow.bind_go, hdev1, hdr1, enterPhase_self _ (hu.of (by simp [hs1])), waitReady,
    enterPhase_self _ (hu.of (by simp [hs1]))]
  set v : Device := ({ ({ (s.device d).close with wel := true } : Device) with mem := mem }.startBusy (s.drawAt 0)).close
    with hv
  have hvv : v = ({ s.device d with mem := mem }.startBusy (s.drawAt 0)).close := rfl
  set s2 : State := { (((s1.skipDraws 1).framed d v es).toPhase .commandIssued).toPhase .polling with pollcnt := 0 } with hs2
  have hdev2 : s2.device d = v := by
    rw [hs2]; cases d <;> rfl
  have hl2 : (s2.device d).lost = none := by rw [hdev2]; exact hl
  have hf2 : s2.fuse = none := by simp [hs2, hs1, hf]
  have hdr2 : s2.drawAt 0 = s.drawAt 1 := by
    have : s2.drawAt 0 = (s.skipDraws 1).drawAt 0 := drawAt_congr (by simp [hs2, hs1]) (by simp [hs2, hs1]) 0
    simpa using this
  have hpar : ((((s1.skipDraws 1).framed d v es).toPhase .commandIssued)).params.dummyOut = s.params.dummyOut := by
    simp [hs1]
  rw [hpar, frameRdsr_lostFree d s.params.dummyOut s2 hf2 hl2, Flow.bind_go, hdev2, hdr2]
  simp only [← hvv]
  congr 1
  cases d <;>
    simp [hs2, hs1, State.framed, State.setDevice, State.setCs, State.toPhase, State.skipDraws]

/-- The status read of a wait that is over at once (R66, R127). -/
theorem sample_startBusy_ready (v : Device) (mem : List Host.Cell) (n : Nat) (h : busyOfDraw n = some 0) :
    ((({ v with mem := mem } : Device).startBusy n).close).sample =
      (false, { v with mem := mem, dbusy := false, busyReads := some 0, wel := false, counter := 0, rx := [] }) := by
  simp only [Device.startBusy, Device.close, Device.sample, h, if_true]

/-- The first status read of a wait that is not over (R66, R127). -/
theorem sample_startBusy_busy (v : Device) (mem : List Host.Cell) (n : Nat) (h : busyOfDraw n ≠ some 0) :
    ((({ v with mem := mem } : Device).startBusy n).close).sample =
      (true, v.writing mem (lessOne (busyOfDraw n))) := by
  simp only [Device.startBusy, Device.close, Device.sample, if_true]
  rcases hb : busyOfDraw n with _ | _ | k
  · simp [Device.writing, lessOne]
  · exact absurd hb h
  · simp [Device.writing, lessOne]

/-- A write cycle whose wait is over at once: ready, `phase` back at `Idle` (R127, R128). -/
theorem writeCycle_ready (d : Dev) (body : State → Flow Unit) (mem : List Host.Cell) (es : List Event) (s : State)
    (hq : Quiet d s) (hu : Unobserved s) (hr : ReadyAtOnce s) (hb : Body d s body mem es) :
    writeCycle d body s = .go true
      { (s.skipDraws 2).framed d ((s.device d).written mem)
          (cycleEvents d es s.params.dummyOut (statusOfDraw false (s.drawAt 1))) with
        st := statusOfDraw false (s.drawAt 1), pollcnt := 0, phase := .idle } := by
  rw [writeCycle_eq d body mem es s hq hu hb]
  simp only [sample_startBusy_ready _ mem _ hr, judgeStatus, busyBit_statusOfDraw, if_true]
  rw [enterPhase_self _ (hu.of (by simp))]
  cases d <;> simp [State.toPhase, cycleEvents, Device.written, Device.close, State.framed]

/-- A write cycle whose first status read returns busy, the limit not reached: the delay, and the loop waits with its next frame
ready (R127). -/
theorem writeCycle_waiting (d : Dev) (body : State → Flow Unit) (mem : List Host.Cell) (es : List Event) (s : State)
    (hq : Quiet d s) (hu : Unobserved s) (hr : ¬ ReadyAtOnce s) (hlim : limitHit s.params.pollLimit 1 = false)
    (hb : Body d s body mem es) :
    writeCycle d body s = .halt
      { (s.skipDraws 2).framed d ((s.device d).writing mem (lessOne (busyOfDraw (s.drawAt 0))))
          (waitingEvents d es s.params.dummyOut (statusOfDraw true (s.drawAt 1)) s.params.pollDelayUs) with
        st := statusOfDraw true (s.drawAt 1), pollcnt := 1, phase := .polling,
        frame := some (d, rdsrBytes s) } := by
  rw [writeCycle_eq d body mem es s hq hu hb]
  have hf := hq.1
  simp only [sample_startBusy_busy _ mem _ hr, judgeStatus, busyBit_statusOfDraw, Bool.true_eq_false, if_false,
    framed_params, skipDraws_params, Nat.zero_add, hlim, Bool.false_eq_true, delay, framed_fuse, skipDraws_fuse, hf, Flow.bind_go]
  cases d <;> simp [State.log, waitingEvents, Device.close, Device.writing, State.framed, rdsrBytes]

/-- A write cycle whose first status read returns busy and exhausts the limit: not ready, no delay (R127, R206). -/
theorem writeCycle_gaveUp (d : Dev) (body : State → Flow Unit) (mem : List Host.Cell) (es : List Event) (s : State)
    (hq : Quiet d s) (hu : Unobserved s) (hr : ¬ ReadyAtOnce s) (hlim : limitHit s.params.pollLimit 1 = true)
    (hb : Body d s body mem es) :
    writeCycle d body s = .go false
      { (s.skipDraws 2).framed d ((s.device d).writing mem (lessOne (busyOfDraw (s.drawAt 0))))
          (cycleEvents d es s.params.dummyOut (statusOfDraw true (s.drawAt 1))) with
        st := statusOfDraw true (s.drawAt 1), pollcnt := 1, phase := .idle } := by
  rw [writeCycle_eq d body mem es s hq hu hb]
  simp only [sample_startBusy_busy _ mem _ hr, judgeStatus, busyBit_statusOfDraw, Bool.true_eq_false, if_false,
    framed_params, skipDraws_params, Nat.zero_add, hlim, if_true]
  rw [enterPhase_self _ (hu.of (by simp))]
  cases d <;> simp [State.toPhase, cycleEvents, Device.close, Device.writing, State.framed]

/-! ### Acceptance (R132) -/

/-- A request that finds the block free runs its operation from the latched state, when no move of the host lands inside. -/
theorem request_accepted {op : BitVec 4} {d : Dev} {r : Req} {body : State → State} {s : State} (hb : s.busy = false)
    (hu : Unobserved s) : request op d r body s = .next (body (accept op d r s)) := by
  rw [request, hb, hostPoint_self (s := accept op d r s) (hu.of rfl)]
  rfl

/-- The end of a `readByte` and of a skipped one, when no move of the host lands inside. -/
theorem hostPoint_setRdata {s : State} {v : Byte} (hu : Unobserved s) : hostPoint (s.setRdata v) = s.setRdata v :=
  hostPoint_self (hu.of rfl)

end Sys2Proof.Machine
end

