-- ==== Sys2Proof/Laws/Chunks.lean ====
section
/-! SUPPORT. The chunk loop of a bulk write (spec/41_chunker.md R151): one chunk, a run of chunks whose waits are over at once,
and what it leaves. -/

namespace Sys2Proof.Machine

/-- A chunk is never empty and never leaves its page (R150). -/
theorem chunkLen_pos (d : Dev) (c r : Nat) (h : 0 < r) :
    0 < chunkLen d c r ∧ chunkLen d c r ≤ r ∧ c % d.page + chunkLen d c r ≤ d.page ∧ chunkLen d c r ≤ d.page := by
  have : c % d.page < d.page := Nat.mod_lt _ (by cases d <;> decide)
  simp only [chunkLen]; omega

theorem size_le (d : Dev) : d.size ≤ 16777216 ∧ d.page ≤ 256 := by cases d <;> decide

/-- The chunks from `a` on start at or after `a`, and are no more than `n` bytes together. -/
theorem chunksFuel_bounds (d : Dev) (f a n : Nat) :
    (∀ c ∈ chunksFuel d f a n, a ≤ c.1) ∧ ((chunksFuel d f a n).map (·.2)).sum ≤ n := by
  induction f generalizing a n with
  | zero => simp [chunksFuel]
  | succ f ih =>
    rw [chunksFuel]
    split
    · simp
    · have hc := (chunkLen_pos d a n (by omega)).2.1
      obtain ⟨h1, h2⟩ := ih (a + chunkLen d a n) (n - chunkLen d a n)
      refine ⟨?_, ?_⟩
      · intro c hm
        rcases List.mem_cons.1 hm with rfl | hm
        · exact Nat.le_refl _
        · have := h1 c hm; omega
      · simp only [List.map_cons, List.sum_cons]; omega

/-- The chunks of a range add up to it, when there is fuel for each byte. -/
theorem chunksFuel_sum (d : Dev) (f a n : Nat) (h : n ≤ f) : ((chunksFuel d f a n).map (·.2)).sum = n := by
  induction f generalizing a n with
  | zero => simp [chunksFuel]; omega
  | succ f ih =>
    rw [chunksFuel]
    split
    · simp [*]
    · obtain ⟨h1, h2, _⟩ := chunkLen_pos d a n (by omega)
      simp only [List.map_cons, List.sum_cons, ih (a + chunkLen d a n) (n - chunkLen d a n) (by omega)]
      omega

/-- What a byte of storage becomes when `new` is programmed over `old` (R62, R63). -/
def mixed (d : Dev) (old new : Byte) : Byte :=
  match d with
  | .ee => new
  | .nor => old &&& new

theorem read_programMem (d : Dev) (m : List Host.Cell) (a x : Nat) (vs : List Byte) :
    Memory.read (programMem d m a vs) x =
      if a ≤ x ∧ x < a + vs.length then mixed d (Memory.read m x) (vs.getD (x - a) 0) else Memory.read m x := by
  cases d
  · exact Memory.read_writeMany ..
  · exact Memory.read_andMany ..

theorem programMem_append (d : Dev) (m : List Host.Cell) (a : Nat) (vs ws : List Byte) :
    programMem d (programMem d m a vs) (a + vs.length) ws = programMem d m a (vs ++ ws) := by
  induction vs generalizing m a with
  | nil => cases d <;> rfl
  | cons v vs ih =>
    cases d
    · have := ih (Memory.write m a v) (a + 1)
      simp only [programMem, List.cons_append, Memory.writeMany, List.length_cons] at this ⊢
      rw [← this]; congr 1; omega
    · have := ih (Memory.write m a (Memory.read m a &&& v)) (a + 1)
      simp only [programMem, List.cons_append, Memory.andMany, List.length_cons] at this ⊢
      rw [← this]; congr 1; omega

theorem readMany_append (m : List Host.Cell) (a n k : Nat) :
    Memory.readMany m a (n + k) = Memory.readMany m a n ++ Memory.readMany m (a + n) k := by
  induction n generalizing a with
  | zero => simp [Memory.readMany]
  | succ n ih =>
    rw [Nat.add_right_comm, Memory.readMany, ih, Memory.readMany, List.cons_append]
    congr 3; omega

/-! ### Runs of chunks -/

/-- The registers and the device after some chunks. -/
theorem bulkDone_cons (d : Dev) (u : State) (c : Nat × Nat) (cs : List (Nat × Nat)) (h0 : c.1 = u.cur.toNat)
    (hge : ∀ c' ∈ cs, u.cur.toNat + c.2 ≤ c'.1) (hcur : u.cur.toNat + c.2 < 2 ^ 32) (hidx : u.idx.toNat + c.2 < 2 ^ 32) :
    bulkDone d (bulkDone d u [c]) cs = bulkDone d u (c :: cs) := by
  cases hl : cs.getLast? with
  | none =>
    have : cs = [] := List.getLast?_eq_none_iff.1 hl
    subst this
    rfl
  | some e =>
    have hne : cs ≠ [] := by rintro rfl; simp at hl
    have hlen : 1 ≤ cs.length := List.length_pos_iff.2 hne
    have hl' : (c :: cs).getLast? = some e := by
      rw [List.getLast?_cons, hl]; rfl
    set w := bulkDone d u [c] with hw
    have hwe : w = { ((u.skipDraws 2).setDevice d ((u.device d).written
        (programMem d (u.device d).mem u.cur.toNat (Memory.readMany u.buf u.idx.toNat c.2)))).setCs d false with
      cur := u.cur + BitVec.ofNat 32 c.2
      idx := u.idx + BitVec.ofNat 32 c.2
      rem := u.rem - BitVec.ofNat 32 c.2
      clen := BitVec.ofNat 9 c.2
      st := statusOfDraw false (u.drawAt 1)
      pollcnt := 0
      phase := .idle
      trace := u.trace ++ chunkEvents d u 0 [c] } := by
      rw [hw]; simp [bulkDone]
    have hwc : w.cur.toNat = u.cur.toNat + c.2 := by
      rw [hwe, BitVec.toNat_add, BitVec.toNat_ofNat]; omega
    have hwi : w.idx.toNat = u.idx.toNat + c.2 := by
      rw [hwe, BitVec.toNat_add, BitVec.toNat_ofNat]; omega
    have hwb : w.buf = u.buf := by rw [hwe]; cases d <;> rfl
    have hwp : w.params = u.params := by rw [hwe]; cases d <;> rfl
    have hwd : ∀ j, w.drawAt j = u.drawAt (2 + j) := by
      intro j
      have : w.drawAt j = (u.skipDraws 2).drawAt j := drawAt_congr (by rw [hwe]; cases d <;> rfl) (by rw [hwe]; cases d <;> rfl) j
      rw [this, drawAt_skipDraws]
    have hwdev : w.device d = (u.device d).written
        (programMem d (u.device d).mem u.cur.toNat (Memory.readMany u.buf u.idx.toNat c.2)) := by
      rw [hwe]; cases d <;> rfl
    have hev : ∀ (es : List (Nat × Nat)) j, (∀ c' ∈ es, u.cur.toNat + c.2 ≤ c'.1) →
        chunkEvents d w j es = chunkEvents d u (j + 1) es := by
      intro es
      induction es with
      | nil => intros; rfl
      | cons c' es ih =>
        intro j h
        have h' := h c' (by simp)
        have hb : chunkBytes w c' = chunkBytes u c' := by
          simp only [chunkBytes, hwb, hwi, hwc]; congr 1; omega
        simp only [chunkEvents, hb, hwp, hwd, ih (j + 1) (fun e he => h e (by simp [he]))]
        congr 4; omega
    rw [bulkDone, hl, bulkDone, hl']
    simp only [List.map_cons, List.sum_cons, List.length_cons, hwdev, hwi, hwb, hwc, hev cs 0 hge, hwd]
    generalize (cs.map (·.2)).sum = n
    have hp := programMem_append d (u.device d).mem u.cur.toNat (Memory.readMany u.buf u.idx.toNat c.2)
      (Memory.readMany u.buf (u.idx.toNat + c.2) n)
    rw [Memory.length_readMany, ← readMany_append] at hp
    have hwm : ((u.device d).written
        (programMem d (u.device d).mem u.cur.toNat (Memory.readMany u.buf u.idx.toNat c.2))).mem =
        (programMem d (u.device d).mem u.cur.toNat (Memory.readMany u.buf u.idx.toNat c.2)) := rfl
    rw [hwm, hp, hwe]
    have hx : u.cur + BitVec.ofNat 32 c.2 + BitVec.ofNat 32 n = u.cur + BitVec.ofNat 32 (c.2 + n) := by
      rw [BitVec.ofNat_add, BitVec.add_assoc]
    have hy : u.idx + BitVec.ofNat 32 c.2 + BitVec.ofNat 32 n = u.idx + BitVec.ofNat 32 (c.2 + n) := by
      rw [BitVec.ofNat_add, BitVec.add_assoc]
    have hz : u.rem - BitVec.ofNat 32 c.2 - BitVec.ofNat 32 n = u.rem - BitVec.ofNat 32 (c.2 + n) := by
      rw [BitVec.ofNat_add, BitVec.sub_sub]
    have ha : 2 + (2 * cs.length - 1) = 2 * (cs.length + 1) - 1 := by omega
    rw [ha]
    simp only [hx, hy, hz]
    cases d <;>
      simp [State.setDevice, State.setCs, State.skipDraws, chunkEvents, Device.written, Nat.mul_add, Nat.add_assoc,
        Nat.add_comm 2]

/-- What the chunk loop needs of where its registers stand: the range is inside the device and the bytes inside the buffer's
index range (R153 (e)). -/
structure InRange (d : Dev) (u : State) : Prop where
  cur : u.cur.toNat + u.rem.toNat ≤ d.size
  idx : u.idx.toNat + u.rem.toNat ≤ d.size

/-- The chunk the loop comes to (R151). -/
theorem loadClen_facts (d : Dev) (u : State) (hin : InRange d u) (h0 : u.rem ≠ 0) :
    0 < u.rem.toNat ∧ (loadClen d u).clen.toNat = chunkLen d u.cur.toNat u.rem.toNat ∧
      chunkData (loadClen d u) = chunkBytes u (u.cur.toNat, chunkLen d u.cur.toNat u.rem.toNat) ∧
      programFits d u.cur.toNat (chunkData (loadClen d u)).length = true := by
  have hpos : 0 < u.rem.toNat := by
    rcases Nat.eq_zero_or_pos u.rem.toNat with h | h
    · exact absurd (BitVec.eq_of_toNat_eq (by simpa using h)) h0
    · exact h
  obtain ⟨hc1, hc2, hc3, hc4⟩ := chunkLen_pos d u.cur.toNat u.rem.toNat hpos
  have hs := size_le d
  have hcl : (loadClen d u).clen.toNat = chunkLen d u.cur.toNat u.rem.toNat := by
    show (BitVec.ofNat 9 _).toNat = _
    rw [BitVec.toNat_ofNat, Nat.mod_eq_of_lt (by omega)]
  have hin := hin.cur
  refine ⟨hpos, hcl, ?_, ?_⟩
  · simp only [chunkData, hcl, chunkBytes, Nat.sub_self, Nat.add_zero]; rfl
  · simp only [programFits, chunkData, Memory.length_readMany, hcl, Bool.and_eq_true, decide_eq_true_eq]
    omega

/-- One turn of the chunk loop whose wait is over at once (R151). -/
theorem chunkLoop_one (d : Dev) (fuel : Nat) (u : State) (hq : Quiet d u) (hu : Unobserved u) (hin : InRange d u)
    (h0 : u.rem ≠ 0) (hr : ReadyAtOnce u) :
    chunkLoop d (fuel + 1) u =
      chunkLoop d fuel (bulkDone d u [(u.cur.toNat, chunkLen d u.cur.toNat u.rem.toNat)]) := by
  obtain ⟨hpos, hcl, hdat, hfit⟩ := loadClen_facts d u hin h0
  have hw := writeCycle_ready d _ _ _ (loadClen d u) hq (hu.of rfl) hr
    (body_program d (loadClen d u) (loadClen d u).cur (chunkData (loadClen d u)) hfit)
  have hc := (chunkLen_pos d u.cur.toNat u.rem.toNat hpos).2.1
  have hs := size_le d
  have hin := hin.cur
  rw [chunkLoop, if_neg h0, writeChunk, hw, Flow.bind_go, if_pos rfl, hdat]
  congr 1
  have h32 : (loadClen d u).clen.setWidth 32 = BitVec.ofNat 32 (chunkLen d u.cur.toNat u.rem.toNat) := by
    apply BitVec.eq_of_toNat_eq
    rw [BitVec.toNat_setWidth, hcl, BitVec.toNat_ofNat]
  have hcur : (loadClen d u).cur = u.cur := rfl
  have hcl9 : (loadClen d u).clen = BitVec.ofNat 9 (chunkLen d u.cur.toNat u.rem.toNat) := rfl
  have h1 : BitVec.ofNat 32 u.cur.toNat = u.cur := by simp
  simp only [bulkDone, List.getLast?_singleton, List.map_cons, List.map_nil, List.sum_cons, List.sum_nil, Nat.add_zero,
    List.length_singleton, Nat.mul_one, chunkEvents, List.append_nil, h1]
  rw [hcl9] at h32
  cases d <;>
    simp [advanceChunk, h32, loadClen, State.setDevice, State.setCs, State.skipDraws, chunkBytes, State.drawAt]

/-- A run of chunks, the wait of each over at its first status read (R151): the loop is where `bulkDone` has it. -/
theorem chunkLoop_run (d : Dev) (done : List (Nat × Nat)) (fuel : Nat) (u : State) (rest : List (Nat × Nat)) (hq : Quiet d u)
    (hu : Unobserved u) (hin : InRange d u) (hc : chunksFuel d fuel u.cur.toNat u.rem.toNat = done ++ rest)
    (hr : ReadyEachTime done.length u) :
    chunkLoop d fuel u = chunkLoop d (fuel - done.length) (bulkDone d u done) ∧ done.length ≤ fuel ∧
      Quiet d (bulkDone d u done) ∧ Unobserved (bulkDone d u done) ∧ InRange d (bulkDone d u done) ∧
      chunksFuel d (fuel - done.length) (bulkDone d u done).cur.toNat (bulkDone d u done).rem.toNat = rest ∧
      (bulkDone d u done).rem.toNat = u.rem.toNat - (done.map (·.2)).sum ∧
      (bulkDone d u done).cur.toNat = u.cur.toNat + (done.map (·.2)).sum := by
  induction done generalizing fuel u with
  | nil => exact ⟨rfl, Nat.zero_le _, hq, hu, hin, by simpa [bulkDone] using hc, by simp [bulkDone], by simp [bulkDone]⟩
  | cons c done ih =>
    obtain ⟨f, rfl⟩ : ∃ f, fuel = f + 1 := by
      cases fuel with
      | zero => simp [chunksFuel] at hc
      | succ f => exact ⟨f, rfl⟩
    have h0 : u.rem ≠ 0 := by
      intro h; rw [chunksFuel, if_pos (by simp [h])] at hc; simp at hc
    obtain ⟨hpos, -, -, -⟩ := loadClen_facts d u hin h0
    have hk := (chunkLen_pos d u.cur.toNat u.rem.toNat hpos).2.1
    rw [chunksFuel, if_neg (by omega), List.cons_append, List.cons.injEq] at hc
    obtain ⟨rfl, hc⟩ := hc
    set c : Nat × Nat := (u.cur.toNat, chunkLen d u.cur.toNat u.rem.toNat) with hcdef
    have hsz := size_le d
    have hin1 := hin.cur
    have hin2 := hin.idx
    have hc2 : c.2 ≤ u.rem.toNat := hk
    set w := bulkDone d u [c] with hw
    have hwc : w.cur.toNat = u.cur.toNat + c.2 := by
      show (u.cur + BitVec.ofNat 32 _).toNat = _
      rw [BitVec.toNat_add, BitVec.toNat_ofNat]; simp only [hcdef, List.map_cons, List.map_nil, List.sum_cons, List.sum_nil]; omega
    have hwi : w.idx.toNat = u.idx.toNat + c.2 := by
      show (u.idx + BitVec.ofNat 32 _).toNat = _
      rw [BitVec.toNat_add, BitVec.toNat_ofNat]; simp only [hcdef, List.map_cons, List.map_nil, List.sum_cons, List.sum_nil]; omega
    have hwr : w.rem.toNat = u.rem.toNat - c.2 := by
      show (u.rem - BitVec.ofNat 32 _).toNat = _
      rw [BitVec.toNat_sub, BitVec.toNat_ofNat]; simp only [hcdef, List.map_cons, List.map_nil, List.sum_cons, List.sum_nil]; omega
    have hwd : ∀ j, w.drawAt j = u.drawAt (2 + j) := by
      intro j
      have : w.drawAt j = (u.skipDraws 2).drawAt j := drawAt_congr (by cases d <;> rfl) (by cases d <;> rfl) j
      rw [this, drawAt_skipDraws]
    have hq' : Quiet d w := ⟨by rw [← hq.1]; cases d <;> rfl, by rw [← hq.2.1]; cases d <;> rfl, by cases d <;> rfl⟩
    have hu' : Unobserved w := hu.of (by cases d <;> rfl)
    have hin' : InRange d w := ⟨by rw [hwc, hwr]; omega, by rw [hwi, hwr]; omega⟩
    have hc' : chunksFuel d f w.cur.toNat w.rem.toNat = done ++ rest := by rw [hwc, hwr]; exact hc
    have hb := chunksFuel_bounds d f w.cur.toNat w.rem.toNat
    rw [hc'] at hb
    obtain ⟨h1, h2, h3, h4, h5, h6, h7, h8⟩ := ih f w hq' hu' hin' hc' (by
      intro j hj
      rw [hwd]
      have := hr (j + 1) (by simp; omega)
      rwa [Nat.mul_add, Nat.add_comm] at this)
    have he : bulkDone d w done = bulkDone d u (c :: done) :=
      bulkDone_cons d u c done rfl (fun c' hm => by have := hb.1 c' (by simp [hm]); omega)
        (by simp only [hcdef]; omega) (by simp only [hcdef]; omega)
    rw [he] at h1 h3 h4 h5 h6 h7 h8
    have hl : f + 1 - (c :: done).length = f - done.length := by simp
    refine ⟨?_, by simp; omega, h3, h4, h5, by rw [hl]; exact h6, ?_, ?_⟩
    · rw [chunkLoop_one d f u hq hu hin h0 (hr 0 (by simp)), h1, hl]
    · rw [h7, hwr, List.map_cons, List.sum_cons]; omega
    · rw [h8, hwc, List.map_cons, List.sum_cons]; omega

/-- The chunk loop at its end (R151). -/
theorem chunkLoop_end (d : Dev) (fuel : Nat) (u : State) (h : u.rem.toNat = 0) : chunkLoop d fuel u = .go true u := by
  have h0 : u.rem = 0 := BitVec.eq_of_toNat_eq (by simpa using h)
  cases fuel with
  | zero => rfl
  | succ f => rw [chunkLoop, if_pos h0]

/-- Every wait over at once: all the chunks (R151, R152). -/
theorem chunkLoop_ready (d : Dev) (fuel : Nat) (u : State) (hq : Quiet d u) (hu : Unobserved u) (hin : InRange d u)
    (hf : u.rem.toNat ≤ fuel) (hr : ReadyEachTime (chunksFuel d fuel u.cur.toNat u.rem.toNat).length u) :
    chunkLoop d fuel u = .go true (bulkDone d u (chunksFuel d fuel u.cur.toNat u.rem.toNat)) := by
  obtain ⟨h1, -, -, -, -, -, h7, -⟩ := chunkLoop_run d _ fuel u [] hq hu hin (by rw [List.append_nil]) hr
  rw [h1, chunkLoop_end _ _ _ (by rw [h7, chunksFuel_sum d fuel _ _ hf]; omega)]

/-- A chunk whose first status read returns busy, the limit not reached (R127). -/
theorem chunkLoop_waiting (d : Dev) (fuel : Nat) (w : State) (hq : Quiet d w) (hu : Unobserved w) (hin : InRange d w)
    (c : Nat × Nat) (rest : List (Nat × Nat)) (hc : chunksFuel d fuel w.cur.toNat w.rem.toNat = c :: rest)
    (hr : ¬ ReadyAtOnce w) (hl : limitHit w.params.pollLimit 1 = false) :
    chunkLoop d fuel w = .halt (bulkWaits d w c) := by
  obtain ⟨f, rfl⟩ : ∃ f, fuel = f + 1 := by
    cases fuel with
    | zero => simp [chunksFuel] at hc
    | succ f => exact ⟨f, rfl⟩
  have h0 : w.rem ≠ 0 := by
    intro h; rw [chunksFuel, if_pos (by simp [h])] at hc; simp at hc
  obtain ⟨hpos, hcl, hdat, hfit⟩ := loadClen_facts d w hin h0
  rw [chunksFuel, if_neg (by omega), List.cons.injEq] at hc
  obtain ⟨rfl, -⟩ := hc
  have hw := writeCycle_waiting d _ _ _ (loadClen d w) hq (hu.of rfl) hr hl
    (body_program d (loadClen d w) (loadClen d w).cur (chunkData (loadClen d w)) hfit)
  rw [chunkLoop, if_neg h0, writeChunk, hw, hdat]
  simp only [Flow.bind_halt, bulkWaits, bulkBusy]
  cases d <;> simp [loadClen, State.setDevice, State.setCs, State.skipDraws, State.drawAt, rdsrBytes]

/-- The same with the limit reached (R127, R206). -/
theorem chunkLoop_gaveUp (d : Dev) (fuel : Nat) (w : State) (hq : Quiet d w) (hu : Unobserved w) (hin : InRange d w)
    (c : Nat × Nat) (rest : List (Nat × Nat)) (hc : chunksFuel d fuel w.cur.toNat w.rem.toNat = c :: rest)
    (hr : ¬ ReadyAtOnce w) (hl : limitHit w.params.pollLimit 1 = true) :
    (chunkLoop d fuel w).finally finishReady = bulkGivesUp d w c := by
  obtain ⟨f, rfl⟩ : ∃ f, fuel = f + 1 := by
    cases fuel with
    | zero => simp [chunksFuel] at hc
    | succ f => exact ⟨f, rfl⟩
  have h0 : w.rem ≠ 0 := by
    intro h; rw [chunksFuel, if_pos (by simp [h])] at hc; simp at hc
  obtain ⟨hpos, hcl, hdat, hfit⟩ := loadClen_facts d w hin h0
  rw [chunksFuel, if_neg (by omega), List.cons.injEq] at hc
  obtain ⟨rfl, -⟩ := hc
  have hw := writeCycle_gaveUp d _ _ _ (loadClen d w) hq (hu.of rfl) hr hl
    (body_program d (loadClen d w) (loadClen d w).cur (chunkData (loadClen d w)) hfit)
  rw [chunkLoop, if_neg h0, writeChunk, hw, hdat]
  simp only [Flow.bind_go, Bool.false_eq_true, if_false, Flow.finally_go, finishReady, bulkGivesUp, bulkBusy]
  cases d <;> simp [loadClen, State.setDevice, State.setCs, State.skipDraws, State.drawAt, finish]

end Sys2Proof.Machine
end

