-- ==== Sys2Proof/Laws/Flow.lean ====
section
/-! SUPPORT. All that a frame can do to any device in any state, also when a reset strikes inside it. -/

namespace Sys2Proof.Machine

/-- A device takes in every byte it hears, and hearing alone changes nothing of its storage (R69). -/
theorem hear_rx (d : Dev) (o : Byte) (v : Device) :
    (v.hear d o).2.rx = v.rx ++ [o] ∧ (v.hear d o).2.mem = v.mem := by
  have hs : v.sample.2.rx = v.rx := by unfold Device.sample; (repeat' split) <;> rfl
  unfold Device.hear
  split
  · exact ⟨rfl, rfl⟩
  · split
    · split <;> (rename_i h _; simp [Device.take, h])
    · (repeat' split) <;> simp [Device.take, hs]

theorem feed_rx (d : Dev) (os : List Byte) (v : Device) :
    (Device.feed d os v).rx = v.rx ++ os ∧ (Device.feed d os v).mem = v.mem := by
  induction os generalizing v with
  | nil => simp [Device.feed]
  | cons o os ih =>
    have h := hear_rx d o v
    have := ih (v.hear d o).2
    simp [Device.feed, this, h]

theorem receiveAll_device (d : Dev) (os : List Byte) (s : State) :
    (receiveAll d os s).2.device d = Device.feed d os (s.device d) := by
  induction os generalizing s with
  | nil => rfl
  | cons o os ih =>
    rw [receiveAll, ih]
    cases d <;> rfl

/-- What the device is when the release of exclusive access ends its frame: it has heard all of it. -/
theorem heard_device (d : Dev) (sends recvs : List Byte) (s : State) :
    (receiveAll d recvs (sendAll d sends (select d s))).2.device d = Device.feed d (sends ++ recvs) (s.device d).close := by
  rw [receiveAll_device, sendAll_eq, feed_append]
  cases d <;> rfl

/-- What the release makes of storage: nothing, or what the device obeys of the bytes it heard (R62 to R64). -/
theorem endFrame_mem (d : Dev) (s : State) :
    ((endFrame d s).device d).mem = (s.device d).mem ∨
      ∃ f n, parseFrame d (s.device d).rx = .ok f ∧ ((endFrame d s).device d).mem = ((s.device d).obey d f n).mem := by
  unfold endFrame
  simp only
  split
  · exact .inl (by cases d <;> rfl)
  · split
    · exact .inl (by cases d <;> rfl)
    · exact .inl (by cases d <;> rfl)
    · exact .inl (by cases d <;> rfl)
    · rename_i f hf
      split
      · exact .inr ⟨f, _, hf, by cases d <;> rfl⟩
      · exact .inr ⟨f, _, hf, by cases d <;> rfl⟩

/-- What the bytes of a frame can do to storage `m` (R62 to R64). -/
def obeyMem (d : Dev) (bytes : List Byte) (m m' : List Host.Cell) : Prop :=
  m' = m ∨
    (∃ a data, parseFrame d bytes = .ok (.program a data) ∧ a < d.size ∧ a % d.page + data.length ≤ d.page ∧
      m' = programMem d m a data) ∨
    ∃ a, parseFrame d bytes = .ok (.erase a) ∧ m' = Memory.erase m (sectorBase a) Config.norSector

theorem obey_mem (d : Dev) (f : Frame) (n : Nat) (v : Device) (bytes : List Byte) (h : parseFrame d bytes = .ok f) :
    obeyMem d bytes v.mem (v.obey d f n).mem := by
  cases f with
  | wren => exact .inl rfl
  | rdsr _ => exact .inl rfl
  | read _ _ => exact .inl rfl
  | program a data =>
    simp only [Device.obey]
    (repeat' split)
    · exact .inl rfl
    · exact .inl rfl
    · exact .inl rfl
    · exact .inr (.inl ⟨a, data, h, by omega, by omega, rfl⟩)
  | erase a =>
    simp only [Device.obey]
    split
    · exact .inl rfl
    · exact .inr (.inr ⟨a, h, rfl⟩)

/-- What a whole frame does to the storage of its device. -/
theorem wholeFrame_mem (d : Dev) (sends recvs : List Byte) (s : State) :
    obeyMem d (sends ++ recvs) (s.device d).mem ((wholeFrame d sends recvs s).2.device d).mem := by
  have hd : ((wholeFrame d sends recvs s).2.device d).mem =
      ((endFrame d (receiveAll d recvs (sendAll d sends (select d s))).2).device d).mem := by
    cases d <;> rfl
  have hf := feed_rx d (sends ++ recvs) (s.device d).close
  have hr : (Device.feed d (sends ++ recvs) (s.device d).close).rx = sends ++ recvs := by simpa [Device.close] using hf.1
  rw [hd]
  rcases endFrame_mem d (receiveAll d recvs (sendAll d sends (select d s))).2 with h | ⟨f, n, hp, h⟩
  · rw [h, heard_device, hf.2]; exact .inl rfl
  · rw [heard_device] at hp h
    rw [h]
    have := obey_mem d f n (Device.feed d (sends ++ recvs) (s.device d).close) (sends ++ recvs) (by rw [← hr]; exact hp)
    rwa [hf.2] at this

/-- A property of the storage of device `d` that no write inside the device and no erase destroys. -/
def Kept (d : Dev) (P : List Host.Cell → Prop) : Prop :=
  (∀ m x b, x < d.size → P m → P (Memory.write m x b)) ∧ ∀ m lo n, P m → P (Memory.erase m lo n)

theorem page_inside (d : Dev) {a k : Nat} (ha : a < d.size) (h : a % d.page + k ≤ d.page) : a + k ≤ d.size := by
  cases d
  · simp only [Dev.size, Dev.page, Config.eeSize, Config.eePage] at *; omega
  · simp only [Dev.size, Dev.page, Config.norSize, Config.norPage] at *; omega

theorem kept_programMem {d : Dev} {P : List Host.Cell → Prop} (hP : Kept d P) (m : List Host.Cell) (a : Nat)
    (data : List Byte) (h : a + data.length ≤ d.size) (hm : P m) : P (programMem d m a data) := by
  cases d with
  | ee =>
    simp only [programMem]
    induction data generalizing m a with
    | nil => exact hm
    | cons b bs ih =>
      simp only [List.length_cons] at h
      exact ih _ _ (hP.1 m a b (by omega) hm) (by omega)
  | nor =>
    simp only [programMem]
    induction data generalizing m a with
    | nil => exact hm
    | cons b bs ih =>
      simp only [List.length_cons] at h
      exact ih _ _ (hP.1 m a _ (by omega) hm) (by omega)

theorem kept_obeyMem {d : Dev} {P : List Host.Cell → Prop} (hP : Kept d P) {bytes : List Byte} {m m' : List Host.Cell}
    (h : obeyMem d bytes m m') (hm : P m) : P m' := by
  rcases h with rfl | ⟨a, data, _, ha, hp, rfl⟩ | ⟨a, _, rfl⟩
  · exact hm
  · exact kept_programMem hP m a data (page_inside d ha hp) hm
  · exact hP.2 _ _ _ hm

/-- The address a parsed frame carries is one its address bytes can hold. -/
theorem parse_erase_lt {d : Dev} {bytes : List Byte} {a : Nat} (h : parseFrame d bytes = .ok (.erase a)) :
    d = .nor ∧ a < Dev.nor.size := by
  cases bytes with
  | nil => simp [parseFrame] at h
  | cons c rest =>
    simp only [parseFrame] at h
    split at h
    · split at h <;> simp at h
    split at h
    · split at h <;> simp at h
    split at h
    · split at h <;> simp at h
    split at h
    · split at h <;> simp at h
    split at h
    · rename_i hc
      obtain ⟨_, rfl⟩ := hc
      split at h
      · simp at h
      · rename_i a' ha
        simp only [Except.ok.injEq, Frame.erase.injEq] at h
        subst h
        refine ⟨rfl, ?_⟩
        match rest, ha with
        | b2 :: b1 :: b0 :: [], ha =>
          simp only [takeAddr, Option.some.injEq, Prod.mk.injEq, and_true] at ha
          have := b2.isLt; have := b1.isLt; have := b0.isLt
          simp only [Dev.size, Config.norSize]; omega
      · simp at h
    · simp at h

theorem scramble_eq (d : Dev) (lo n : Nat) (s : State) (h : lo + n ≤ d.size) :
    ∃ m, scramble d lo n s = (s.skipDraws n).setDevice d { s.device d with mem := m } ∧
      ∀ P, Kept d P → P (s.device d).mem → P m := by
  induction n generalizing lo s with
  | zero => exact ⟨_, by cases d <;> simp [scramble, State.setDevice, State.device], fun _ _ hm => hm⟩
  | succ n ih =>
    obtain ⟨m, he, hm⟩ := ih (lo + 1) ((s.skipDraws 1).setDevice d
        { s.device d with mem := Memory.write (s.device d).mem lo (byteOfDraw (s.drawAt 0)) }) (by omega)
    refine ⟨m, ?_, fun P hP h0 => hm P hP ?_⟩
    · rw [scramble, he]
      cases d <;> simp [State.setDevice, State.device, State.skipDraws, Nat.add_comm, Nat.add_left_comm]
    · cases d
      · exact hP.1 _ _ _ (by omega) h0
      · exact hP.1 _ _ _ (by omega) h0

/-- What a reset inside a frame leaves of the device: any bytes in the page or sector addressed at worst (R231). -/
theorem damage_eq (d : Dev) (bytes : List Byte) (s : State) :
    ∃ v n, damage d bytes s = (s.skipDraws n).setDevice d v ∧ ∀ P, Kept d P → P (s.device d).mem → P v.mem := by
  have hz : ∀ v : Device, v.mem = (s.device d).mem →
      ∃ w n, s.setDevice d v = (s.skipDraws n).setDevice d w ∧ ∀ P, Kept d P → P (s.device d).mem → P w.mem :=
    fun v hv => ⟨v, 0, by rw [skipDraws_zero], fun P _ h => by rw [hv]; exact h⟩
  have hset : ∀ v w : Device, (s.setDevice d v).setDevice d w = s.setDevice d w := by intros; cases d <;> rfl
  have hdev : ∀ v : Device, (s.setDevice d v).device d = v := by intros; cases d <;> rfl
  have hb : ∀ lo k, lo + k ≤ d.size → ∃ w n, startBusyUnknown d (scramble d lo k (s.setDevice d (s.device d).close)) =
      (s.skipDraws n).setDevice d w ∧ ∀ P, Kept d P → P (s.device d).mem → P w.mem := by
    intro lo k hk
    obtain ⟨m, he, hm⟩ := scramble_eq d lo k (s.setDevice d (s.device d).close) hk
    rw [hdev] at he hm
    refine ⟨{ (s.device d).close with
        mem := m, dbusy := true,
        busyReads := busyOfDraw ((((s.setDevice d (s.device d).close).skipDraws k).setDevice d
          { (s.device d).close with mem := m }).drawAt 0) }, k + 1, ?_, fun P hP h0 => hm P hP h0⟩
    rw [he]; cases d <;> simp [startBusyUnknown, State.setDevice, State.device, State.skipDraws, Nat.add_assoc]
  unfold damage
  simp only [hdev, hset]
  split
  · exact hz _ rfl
  · split
    · split
      · exact hz _ rfl
      · rename_i a _ _ _
        refine hb _ _ ?_
        cases d <;> simp only [Dev.size, Dev.page, Config.eeSize, Config.eePage, Config.norSize, Config.norPage] at * <;> omega
    · rename_i a hp
      refine hb _ _ ?_
      obtain ⟨rfl, ha⟩ := parse_erase_lt hp
      simp only [sectorBase, Dev.size, Config.norSize, Config.norSector] at *
      omega
    all_goals exact hz _ rfl

/-- What a reset inside a frame can leave (R231). -/
theorem cutFrame_eq (d : Dev) (sends recvs : List Byte) (k : Nat) (s : State) (hk : k < frameOps sends recvs) :
    ∃ bs v n j, bs.length = recvs.length ∧ (∀ P, Kept d P → P (s.device d).mem → P v.mem) ∧
      cutFrame d sends recvs k s =
        applyReset { (s.skipDraws n).setDevice d v with
          trace := s.trace ++ (frameEvents d sends recvs bs).take j } := by
  cases k with
  | zero =>
    refine ⟨recvs, s.device d, 0, 0, rfl, fun _ _ h => h, ?_⟩
    cases d <;> simp [cutFrame, State.setDevice, State.device, skipDraws_zero]
  | succ j =>
    simp only [frameOps] at hk
    obtain ⟨bs, v, n, hl, he⟩ := receiveAll_eq d (recvs.take (j - sends.length)) (sendAll d (sends.take j) (select d s))
    have hl' : (bs ++ List.replicate (recvs.length - bs.length) (0 : Byte)).length = recvs.length := by
      simp at hl ⊢; omega
    have hm : ((receiveAll d (recvs.take (j - sends.length)) (sendAll d (sends.take j) (select d s))).2.device d).mem =
        (s.device d).mem := by
      rw [heard_device, (feed_rx _ _ _).2]; rfl
    -- the events performed are the first of the whole frame's
    have hev : (Event.sel d true :: ((sends.take j).map (fun o => Event.x d o none) ++
        List.zipWith (fun o i => Event.x d o (some i)) (recvs.take (j - sends.length)) bs)) =
        (frameEvents d sends recvs (bs ++ List.replicate (recvs.length - bs.length) 0)).take (j + 1) := by
      simp only [frameEvents, List.take_succ_cons, List.cons.injEq, true_and]
      have hbs : bs.length = j - sends.length := by simp at hl; omega
      rw [List.take_append_of_le_length (by rw [List.length_append, List.length_map, List.length_zipWith, hl']; omega),
        List.take_append, List.length_map, List.map_take, List.take_zipWith, List.take_left' hbs]
    have htr : ∀ w m, applyReset
        (((receiveAll d (recvs.take (j - sends.length)) (sendAll d (sends.take j) (select d s))).2.skipDraws m).setDevice d w) =
        applyReset { (s.skipDraws (n + m)).setDevice d w with
          trace := s.trace ++
            (frameEvents d sends recvs (bs ++ List.replicate (recvs.length - bs.length) 0)).take (j + 1) } := by
      intro w m
      rw [he, sendAll_eq, ← hev]
      cases d <;> simp [applyReset, select, State.setDevice, State.setCs, State.log, State.skipDraws, Nat.add_assoc]
    set t := (receiveAll d (recvs.take (j - sends.length)) (sendAll d (sends.take j) (select d s))).2 with ht
    obtain ⟨w, m, hw, hk'⟩ := damage_eq d (sends ++ recvs) t
    refine ⟨_, w, n + m, j + 1, hl', fun P hP h0 => hk' P hP (by rw [hm]; exact h0), ?_⟩
    rw [cutFrame, ← ht, hw]
    exact htr w m

/-- A frame is performed whole, or a reset strikes inside it: all that a frame procedure can do (R90, R231). -/
theorem performFrame_cases (d : Dev) (sends recvs : List Byte) (s : State) :
    (∃ bs v n k, bs.length = recvs.length ∧ (s.fuse = none → k = none) ∧
      obeyMem d (sends ++ recvs) (s.device d).mem v.mem ∧
      performFrame d sends recvs s =
        .go bs { (s.skipDraws n).framed d v (frameEvents d sends recvs bs) with fuse := k }) ∨
    (s.fuse ≠ none ∧ ∃ bs v n j, bs.length = recvs.length ∧
      (∀ P, Kept d P → P (s.device d).mem → P v.mem) ∧
      performFrame d sends recvs s =
        .halt (applyReset { (s.skipDraws n).setDevice d v with
          trace := s.trace ++ (frameEvents d sends recvs bs).take j })) := by
  have hgo : ∀ k t, t = { s with fuse := k } → (s.fuse = none → k = none) → 
      performFrame d sends recvs s = .go (wholeFrame d sends recvs t).1 (wholeFrame d sends recvs t).2 →
      ∃ bs v n k, bs.length = recvs.length ∧ (s.fuse = none → k = none) ∧
      obeyMem d (sends ++ recvs) (s.device d).mem v.mem ∧
      performFrame d sends recvs s =
        .go bs { (s.skipDraws n).framed d v (frameEvents d sends recvs bs) with fuse := k } := by
    rintro k t rfl hk hp
    obtain ⟨bs, v, n, hl, he⟩ := wholeFrame_eq d sends recvs { s with fuse := k }
    have hm := wholeFrame_mem d sends recvs { s with fuse := k }
    rw [he] at hm hp
    refine ⟨bs, v, n, k, hl, hk, ?_, ?_⟩
    · have h1 : (State.device { s with fuse := k } d) = s.device d := by cases d <;> rfl
      rw [h1] at hm
      simpa using hm
    · rw [hp]; cases d <;> simp [State.framed, State.setDevice, State.setCs, State.skipDraws]
  unfold performFrame at hgo ⊢
  split
  · rename_i hf
    exact .inl (by simpa [hf] using hgo none s (by rw [← hf]) (fun _ => rfl))
  · rename_i k hf
    split
    · rename_i hk
      refine .inr ⟨by simp [hf], ?_⟩
      obtain ⟨bs, v, n, j, h1, h2, h3⟩ := cutFrame_eq d sends recvs k s hk
      exact ⟨bs, v, n, j, h1, h2, by rw [h3]⟩
    · rename_i hk
      simp only [hf, hk, if_false] at hgo
      exact .inl (by simpa [hf, hk] using hgo (some (k - frameOps sends recvs)) _ rfl (by simp))

/-! ### Where a frame leaves the devices and exclusive access -/

theorem device_went (s : State) (d d' : Dev) (v : Device) (es : List Event) (n : Nat) (k : Option Nat) :
    State.device { (s.skipDraws n).framed d v es with fuse := k } d' = (s.setDevice d v).device d' := by
  cases d <;> cases d' <;> simp [State.device, State.setDevice]

theorem cs_went (s : State) (d d' : Dev) (v : Device) (es : List Event) (n : Nat) (k : Option Nat) (h : d' ≠ d) :
    State.cs { (s.skipDraws n).framed d v es with fuse := k } d' = s.cs d' := by
  cases d <;> cases d' <;> first | exact absurd rfl h | simp [State.cs]

theorem device_cut (s : State) (d d' : Dev) (v : Device) (es : List Event) (n : Nat) :
    State.device (applyReset { (s.skipDraws n).setDevice d v with trace := es }) d' = (s.setDevice d v).device d' := by
  cases d <;> cases d' <;> simp [State.device, State.setDevice, applyReset]

theorem setDevice_ne (s : State) (d d' : Dev) (v : Device) (h : d' ≠ d) : (s.setDevice d v).device d' = s.device d' := by
  cases d <;> cases d' <;> first | rfl | exact absurd rfl h

end Sys2Proof.Machine
end

