-- ==== Sys2Proof/Laws/Reach.lean ====
section
/-! SUPPORT. One induction for every relation between the state before and the state after a procedure: it holds of every
procedure and every operation if it holds of each frame, of each change of the sequencer's own registers and of a reset. -/

namespace Sys2Proof.Machine

/-- The state in which a procedure goes on or ends is related to the one it started from. -/
def Flow.To {α : Type} (R : State → State → Prop) (s : State) (m : Flow α) : Prop := R s m.state

/-- A change of the sequencer's own registers, of the buffer by bytes written one by one, or of the trace by marks and delays. -/
structure Local (d : Dev) (s t : State) : Prop where
  ee : t.ee = s.ee
  nor : t.nor = s.nor
  csEe : t.csEe = s.csEe
  csNor : t.csNor = s.csNor
  params : t.params = s.params
  fuse : s.fuse = none → t.fuse = none
  buf : t.buf = s.buf ∨ ∃ bs, t.buf = Memory.writeMany s.buf 0 bs
  trace : ∃ es, t.trace = s.trace ++ es ∧ ∀ e ∈ es, (∃ p, e = .ph p) ∨ ∃ us, e = .dly d us

/-- `R` relates what every procedure on device `d` does, if its frames have opcodes in `ok`. -/
structure Closed (d : Dev) (ok : Byte → Prop) (R : State → State → Prop) : Prop where
  trans : ∀ {s t u}, R s t → R t u → R s u
  frame : ∀ c tl recvs s, ok c → R s (performFrame d (c :: tl) recvs s).state
  stay : ∀ s t, Local d s t → R s t
  reset : ∀ s, s.fuse ≠ none → R s (applyReset s)

variable {d : Dev} {ok : Byte → Prop} {R : State → State → Prop}

/-- A change that does not touch the trace. -/
theorem Closed.quiet (h : Closed d ok R) {s t : State} (h1 : t.ee = s.ee) (h2 : t.nor = s.nor) (h3 : t.csEe = s.csEe)
    (h4 : t.csNor = s.csNor) (h5 : t.params = s.params) (h6 : t.fuse = s.fuse) (h7 : t.buf = s.buf)
    (h8 : t.trace = s.trace) : R s t :=
  h.stay s t ⟨h1, h2, h3, h4, h5, fun h => by rw [h6, h], .inl h7, [], by simp [h8], by simp⟩

theorem Closed.refl (h : Closed d ok R) (s : State) : R s s := h.quiet rfl rfl rfl rfl rfl rfl rfl rfl

theorem Closed.hostPoint (h : Closed d ok R) (s : State) : R s (hostPoint s) :=
  h.quiet (by simp) (by simp) (by simp) (by simp) (by simp) (by simp) (by simp) (by simp)

theorem Closed.enterPhase (h : Closed d ok R) (s : State) (p : Phase) : R s (enterPhase p s) :=
  h.stay s _ ⟨by simp, by simp, by simp, by simp, by simp, fun h => by simp [h], .inl (by simp), [.ph p], by simp, by simp⟩

theorem Closed.bind (h : Closed d ok R) {α β : Type} {s : State} {m : Flow α} {f : α → State → Flow β}
    (hm : m.To R s) (hf : ∀ a t, m = .go a t → (f a t).To R t) : (m.bind f).To R s := by
  cases m with
  | go a t => exact h.trans hm (hf a t rfl)
  | halt t => exact hm

theorem Closed.finally (h : Closed d ok R) {α : Type} {s : State} {m : Flow α} {f : α → State → State}
    (hm : m.To R s) (hf : ∀ a t, m = .go a t → R t (f a t)) : R s (m.finally f) := by
  cases m with
  | go a t => exact h.trans hm (hf a t rfl)
  | halt t => exact hm

theorem Closed.frameWren (h : Closed d ok R) (hw : ok Config.opcWren) (s : State) : (frameWren d s).To R s :=
  h.bind (h.frame _ _ _ s hw) fun _ t _ => h.refl t

theorem Closed.frameRdsr (h : Closed d ok R) (hr : ok Config.opcRdsr) (x : Byte) (s : State) :
    (frameRdsr d x s).To R s :=
  h.bind (h.frame _ _ _ s hr) fun _ _ _ => h.quiet rfl rfl rfl rfl rfl rfl rfl rfl

theorem Closed.frameReadOuts (h : Closed d ok R) (hr : ok Config.opcRead) (a : Word) (outs : List Byte) (s : State) :
    (frameReadOuts d a outs s).To R s := by
  obtain ⟨tl, htl⟩ : ∃ tl, headerBytes d Config.opcRead a = Config.opcRead :: tl := by cases d <;> exact ⟨_, rfl⟩
  unfold Machine.frameReadOuts
  rw [htl]
  exact h.frame _ _ _ s hr

theorem Closed.frameProgram (h : Closed d ok R) (hp : ok Config.opcProgram) (a : Word) (data : List Byte) (s : State) :
    (frameProgram d a data s).To R s := by
  obtain ⟨tl, htl⟩ : ∃ tl, headerBytes d Config.opcProgram a ++ data = Config.opcProgram :: tl := by
    cases d <;> exact ⟨_, rfl⟩
  unfold Machine.frameProgram
  rw [htl]
  exact h.bind (h.frame _ _ _ s hp) fun _ t _ => h.refl t

theorem Closed.frameErase (h : Closed .nor ok R) (he : ok Config.opcSe) (a : Word) (s : State) :
    (frameErase a s).To R s :=
  h.bind (h.frame _ _ _ s he) fun _ t _ => h.refl t

theorem Closed.judgeStatus (h : Closed d ok R) (s : State) : (judgeStatus d s).To R s := by
  unfold Machine.judgeStatus
  split
  · exact h.enterPhase s _
  · simp only
    have h0 : R s { s with pollcnt := s.pollcnt + 1 } := h.quiet rfl rfl rfl rfl rfl rfl rfl rfl
    split
    · exact h.trans h0 (h.enterPhase _ _)
    · unfold delay
      split
      · exact h.stay _ _ ⟨rfl, rfl, rfl, rfl, rfl, fun h => h, .inl rfl, [_], rfl, by simp⟩
      · rename_i hf
        exact h.trans h0 (h.reset _ (by simp at hf; simp [hf]))
      · rename_i k hf
        simp only at hf
        exact h.stay _ _ ⟨rfl, rfl, rfl, rfl, rfl, fun h => absurd (hf.symm.trans h) (by simp), .inl rfl, [_], rfl, by simp⟩

theorem Closed.waitReady (h : Closed d ok R) (hr : ok Config.opcRdsr) (s : State) : (waitReady d s).To R s := by
  have h0 : R s { Machine.enterPhase .polling s with pollcnt := 0 } :=
    h.trans (h.enterPhase s .polling) (h.quiet rfl rfl rfl rfl rfl rfl rfl rfl)
  exact h.trans h0 (h.bind (h.frameRdsr hr _ _) fun _ t _ => h.judgeStatus t)

theorem Closed.writeCycle (h : Closed d ok R) (hw : ok Config.opcWren) (hr : ok Config.opcRdsr)
    {body : State → Flow Unit} (hb : ∀ s, (body s).To R s) (s : State) : (writeCycle d body s).To R s :=
  h.bind (h.frameWren hw s) fun _ t _ => h.trans (h.enterPhase t _) (h.bind (hb _) fun _ u _ =>
    h.trans (h.enterPhase u _) (h.waitReady hr _))

theorem Closed.writeChunk (h : Closed d ok R) (hw : ok Config.opcWren) (hr : ok Config.opcRdsr)
    (hp : ok Config.opcProgram) (a : Word) (data : List Byte) (s : State) : (writeChunk d a data s).To R s :=
  h.writeCycle hw hr (h.frameProgram hp a data) s

theorem Closed.chunkLoop (h : Closed d ok R) (hw : ok Config.opcWren) (hr : ok Config.opcRdsr)
    (hp : ok Config.opcProgram) (fuel : Nat) (s : State) : (chunkLoop d fuel s).To R s := by
  induction fuel generalizing s with
  | zero => exact h.refl s
  | succ fuel ih =>
    rw [Machine.chunkLoop]
    split
    · exact h.refl s
    · refine h.trans (t := loadClen d s) (h.quiet rfl rfl rfl rfl rfl rfl rfl rfl) ?_
      refine h.bind (h.writeChunk hw hr hp _ _ _) fun b t _ => ?_
      split
      · exact h.trans (t := advanceChunk t) (h.quiet rfl rfl rfl rfl rfl rfl rfl rfl) (ih _)
      · exact h.refl t

theorem Closed.finish (h : Closed d ok R) (c : OpOutcome) (s : State) : R s (finish c s) :=
  h.quiet rfl rfl rfl rfl rfl rfl rfl rfl

theorem Closed.afterFrame (h : Closed d ok R) (hw : ok Config.opcWren) (hr : ok Config.opcRdsr)
    (hp : ok Config.opcProgram) (bytes : List Byte) (s : State) : R s (afterFrame d bytes s) := by
  unfold Machine.afterFrame
  split
  · refine h.finally (h.judgeStatus s) fun b t _ => ?_
    unfold afterWait
    split
    · exact h.trans (t := advanceChunk t) (h.quiet rfl rfl rfl rfl rfl rfl rfl rfl)
        (h.finally (h.chunkLoop hw hr hp (advanceChunk t).rem.toNat _) fun _ _ _ => h.finish _ _)
    · exact h.finish _ _
  · exact h.refl s

theorem Closed.request (h : Closed d ok R) {op : BitVec 4} {r : Req} {body : State → State} {s t : State}
    (hb : ∀ u, R u (body u)) (ht : request op d r body s = .next t) : R s t := by
  simp only [Machine.request, Host.Outcome.next.injEq] at ht
  subst ht
  split
  · exact h.refl s
  · exact h.trans (t := accept op d r s) (h.quiet rfl rfl rfl rfl rfl rfl rfl rfl)
      (h.trans (h.hostPoint _) (hb _))

theorem Closed.setRdata (h : Closed d ok R) {c : OpOutcome} (v : Byte) (s : State) :
    R s (Machine.finish c (Machine.hostPoint (s.setRdata v))) :=
  h.trans (t := s.setRdata v) (h.quiet rfl rfl rfl rfl rfl rfl rfl rfl) (h.trans (h.hostPoint _) (h.finish _ _))

theorem Closed.opReadByte (h : Closed d ok R) (hr : ok Config.opcRead) (s : State) : R s (opReadByte d s) := by
  unfold Machine.opReadByte
  split
  · exact h.finally (h.frameReadOuts hr _ _ _) fun b t _ => h.setRdata _ t
  · exact h.setRdata _ s

/-- The read frame of a `readArray`, cut by a reset or not. -/
theorem Closed.frameReadInto (h : Closed d ok R) (hr : ok Config.opcRead) (a : Word) (n : Nat) (s : State) :
    (frameReadInto d a n s).To R s := by
  have h0 := h.frameReadOuts hr a (List.replicate n s.params.dummyOut) s
  have hb : ∀ (t : State) bs, R t { t with buf := Memory.writeMany t.buf 0 bs } := fun t bs =>
    h.stay _ _ ⟨rfl, rfl, rfl, rfl, rfl, fun h => h, .inr ⟨bs, rfl⟩, [], by simp, by simp⟩
  unfold Machine.frameReadInto Machine.frameRead
  cases hf : Machine.frameReadOuts d a (List.replicate n s.params.dummyOut) s with
  | go b t => rw [hf] at h0; exact h.trans h0 (hb t _)
  | halt t => rw [hf] at h0; exact h.trans h0 (hb t _)

theorem Closed.opReadArray (h : Closed d ok R) (hr : ok Config.opcRead) (s : State) : R s (opReadArray d s) := by
  unfold Machine.opReadArray
  split
  · split
    · exact h.finally (h.frameReadInto hr _ _ _) fun _ t _ => h.finish _ t
    · exact h.finish _ _
  · exact h.finish _ _

theorem Closed.opWriteArray (h : Closed d ok R) (hw : ok Config.opcWren) (hr : ok Config.opcRdsr)
    (hp : ok Config.opcProgram) (s : State) : R s (opWriteArray d s) := by
  unfold Machine.opWriteArray
  split
  · split
    · refine h.finally ?_ fun _ _ _ => h.finish _ _
      exact h.trans (t := { s with cur := s.latch.addr, rem := s.latch.len, idx := 0 })
        (h.quiet rfl rfl rfl rfl rfl rfl rfl rfl) (h.chunkLoop hw hr hp s.latch.len.toNat _)
    · exact h.finish _ _
  · exact h.finish _ _

theorem Closed.writeChunkEnds (h : Closed d ok R) (hw : ok Config.opcWren) (hr : ok Config.opcRdsr)
    (hp : ok Config.opcProgram) (a : Word) (data : List Byte) (s : State) :
    R s ((Machine.writeChunk d a data s).finally finishReady) :=
  h.finally (h.writeChunk hw hr hp a data s) fun _ _ _ => h.finish _ _

theorem Closed.eeModifyBit (h : Closed .ee ok R) (hd : ok Config.opcRead) (hw : ok Config.opcWren)
    (hr : ok Config.opcRdsr) (hp : ok Config.opcProgram) (f : Byte → Byte → Byte) (s : State) :
    R s (eeModifyBit f s) := by
  unfold Machine.eeModifyBit
  split
  · split
    · refine h.finally (h.bind (h.frameReadOuts hd _ _ _) fun b t _ => ?_) fun _ _ _ => h.finish _ _
      exact h.trans (t := { t with tmp := f (b.headD 0) t.latch.bitn }) (h.quiet rfl rfl rfl rfl rfl rfl rfl rfl)
        (h.writeChunk hw hr hp _ _ _)
    · exact h.finish _ _
  · exact h.finish _ _

theorem Closed.clearOnlyWrite (h : Closed .nor ok R) (hd : ok Config.opcRead) (hw : ok Config.opcWren)
    (hr : ok Config.opcRdsr) (hp : ok Config.opcProgram) (v : Byte) (s : State) : R s (clearOnlyWrite v s) := by
  unfold Machine.clearOnlyWrite
  refine h.finally (h.frameReadOuts hd _ _ _) fun b t _ => ?_
  have h0 : R t { t with tmp := b.headD 0 } := h.quiet rfl rfl rfl rfl rfl rfl rfl rfl
  dsimp only
  split
  · exact h.trans h0 (h.writeChunkEnds hw hr hp _ _ _)
  · exact h.trans h0 (h.finish _ _)

/-- Every instruction. -/
theorem Closed.exec {i : Instr} (h : Closed (deviceOf i) (fun _ => True) R) {s t : State} (ht : exec i s = .next t) : R s t := by
  cases i with
  | eeReadByte r => exact h.request (fun u => h.opReadByte trivial u) ht
  | norReadByte r => exact h.request (fun u => h.opReadByte trivial u) ht
  | eeReadArray r => exact h.request (fun u => h.opReadArray trivial u) ht
  | norReadArray r => exact h.request (fun u => h.opReadArray trivial u) ht
  | eeWriteArray r => exact h.request (fun u => h.opWriteArray trivial trivial trivial u) ht
  | norWriteArray r => exact h.request (fun u => h.opWriteArray trivial trivial trivial u) ht
  | eeSetBit r => exact h.request (fun u => h.eeModifyBit trivial trivial trivial trivial _ u) ht
  | eeClearBit r => exact h.request (fun u => h.eeModifyBit trivial trivial trivial trivial _ u) ht
  | norSetBit r => exact h.request (fun u => h.finish _ u) ht
  | eeWriteByte r =>
    simp only [Machine.exec, execEeWriteByte] at ht
    refine Closed.request h ?_ ht
    intro u
    split
    · exact h.writeChunkEnds trivial trivial trivial _ _ _
    · exact h.finish _ _
  | norWriteByte r =>
    simp only [Machine.exec, execNorWriteByte] at ht
    refine Closed.request h ?_ ht
    intro u
    split
    · exact h.clearOnlyWrite trivial trivial trivial trivial _ _
    · exact h.finish _ _
  | norClearBit r =>
    simp only [Machine.exec, execNorClearBit] at ht
    refine Closed.request h ?_ ht
    intro u
    split
    · split
      · exact h.finally (h.frameReadOuts trivial _ _ _) fun _ _ _ => h.clearOnlyWrite trivial trivial trivial trivial _ _
      · exact h.finish _ _
    · exact h.finish _ _
  | norEraseSector r =>
    simp only [Machine.exec, execNorEraseSector] at ht
    refine Closed.request h ?_ ht
    intro u
    split
    · exact h.finally (h.writeCycle trivial trivial (h.frameErase trivial _) _) fun _ _ _ => h.finish _ _
    · exact h.finish _ _
  | eeWren => cases ht; exact h.frameWren trivial s
  | norWren => cases ht; exact h.frameWren trivial s
  | eeRdsr x => cases ht; exact h.frameRdsr trivial x s
  | norRdsr x => cases ht; exact h.frameRdsr trivial x s
  | eeRead a outs =>
    simp only [Machine.exec, execEeRead, runRead] at ht
    split at ht <;> cases ht
    exact h.frameReadOuts trivial _ outs s
  | norRead a outs =>
    simp only [Machine.exec, execNorRead, runRead] at ht
    split at ht <;> cases ht
    exact h.frameReadOuts trivial _ outs s
  | eeProgram a data =>
    simp only [Machine.exec, execEeProgram, runProgram] at ht
    split at ht <;> cases ht
    exact h.frameProgram trivial _ data s
  | norProgram a data =>
    simp only [Machine.exec, execNorProgram, runProgram] at ht
    split at ht <;> cases ht
    exact h.frameProgram trivial _ data s
  | norSe a => cases ht; exact h.frameErase trivial _ s

end Sys2Proof.Machine
end

