-- ==== Sys2Proof/Laws/Alike.lean ====
section
/-! SUPPORT. States that differ only on the host's side, and that every procedure takes such states to such states: what the
host does on its registers inside an operation does not reach the operation (spec/20_memory.md R73). -/

namespace Sys2Proof.Machine

/-- `t` is `s` but for the request registers, what the host read, and the moves still to come. -/
def Alike (s t : State) : Prop :=
  t = { s with
    reqCtrl := t.reqCtrl, reqAddr := t.reqAddr, reqLen := t.reqLen, hostData := t.hostData, inbox := t.inbox }

theorem Alike.refl (s : State) : Alike s s := rfl

theorem alike_iff {s t : State} : Alike s t ↔ ∃ c a l h ms,
    t = { s with reqCtrl := c, reqAddr := a, reqLen := l, hostData := h, inbox := ms } :=
  ⟨fun h => ⟨_, _, _, _, _, h⟩, fun ⟨_, _, _, _, _, h⟩ => by subst h; rfl⟩

theorem Alike.trans {s t u : State} (h : Alike s t) (k : Alike t u) : Alike s u := by
  obtain ⟨_, _, _, _, _, rfl⟩ := alike_iff.1 h
  obtain ⟨_, _, _, _, _, rfl⟩ := alike_iff.1 k
  rfl

theorem Alike.symm {s t : State} (h : Alike s t) : Alike t s := by
  obtain ⟨_, _, _, _, _, rfl⟩ := alike_iff.1 h
  rfl

/-- A function of the state that does not touch the host's side takes alike states to alike states. -/
theorem Alike.map {s t : State} (h : Alike s t) (f : State → State)
    (hf : ∀ (s : State) c a l d ms,
      f { s with reqCtrl := c, reqAddr := a, reqLen := l, hostData := d, inbox := ms } =
        { f s with reqCtrl := c, reqAddr := a, reqLen := l, hostData := d, inbox := ms }) : Alike (f s) (f t) := by
  obtain ⟨_, _, _, _, _, rfl⟩ := alike_iff.1 h
  exact alike_iff.2 ⟨_, _, _, _, _, hf ..⟩

theorem Alike.device {s t : State} (h : Alike s t) (d : Dev) : t.device d = s.device d := by
  obtain ⟨_, _, _, _, _, rfl⟩ := alike_iff.1 h
  cases d <;> rfl
theorem Alike.drawAt {s t : State} (h : Alike s t) (j : Nat) : t.drawAt j = s.drawAt j := by
  obtain ⟨_, _, _, _, _, rfl⟩ := alike_iff.1 h
  rfl
theorem Alike.fuse {s t : State} (h : Alike s t) : t.fuse = s.fuse := by rw [h]
theorem Alike.params {s t : State} (h : Alike s t) : t.params = s.params := by rw [h]
theorem Alike.latch {s t : State} (h : Alike s t) : t.latch = s.latch := by rw [h]
theorem Alike.busy {s t : State} (h : Alike s t) : t.busy = s.busy := by rw [h]
theorem Alike.phase {s t : State} (h : Alike s t) : t.phase = s.phase := by rw [h]
theorem Alike.st {s t : State} (h : Alike s t) : t.st = s.st := by rw [h]
theorem Alike.tmp {s t : State} (h : Alike s t) : t.tmp = s.tmp := by rw [h]
theorem Alike.rem {s t : State} (h : Alike s t) : t.rem = s.rem := by rw [h]
theorem Alike.cur {s t : State} (h : Alike s t) : t.cur = s.cur := by rw [h]
theorem Alike.idx {s t : State} (h : Alike s t) : t.idx = s.idx := by rw [h]
theorem Alike.clen {s t : State} (h : Alike s t) : t.clen = s.clen := by rw [h]
theorem Alike.buf {s t : State} (h : Alike s t) : t.buf = s.buf := by rw [h]
theorem Alike.frame {s t : State} (h : Alike s t) : t.frame = s.frame := by rw [h]
theorem Alike.pollcnt {s t : State} (h : Alike s t) : t.pollcnt = s.pollcnt := by rw [h]

theorem Alike.setDevice {s t : State} (h : Alike s t) (d : Dev) (v : Device) : Alike (s.setDevice d v) (t.setDevice d v) :=
  h.map (·.setDevice d v) fun _ _ _ _ _ _ => by cases d <;> rfl
theorem Alike.setCs {s t : State} (h : Alike s t) (d : Dev) (b : Bool) : Alike (s.setCs d b) (t.setCs d b) :=
  h.map (·.setCs d b) fun _ _ _ _ _ _ => by cases d <;> rfl
theorem Alike.log {s t : State} (h : Alike s t) (e : Event) : Alike (s.log e) (t.log e) :=
  h.map (·.log e) fun _ _ _ _ _ _ => rfl
theorem Alike.skipDraws {s t : State} (h : Alike s t) (n : Nat) : Alike (s.skipDraws n) (t.skipDraws n) :=
  h.map (·.skipDraws n) fun _ _ _ _ _ _ => rfl
theorem Alike.finish {s t : State} (h : Alike s t) (c : OpOutcome) : Alike (finish c s) (finish c t) :=
  h.map (Machine.finish c) fun _ _ _ _ _ _ => rfl
theorem Alike.setRdata {s t : State} (h : Alike s t) (v : Byte) : Alike (s.setRdata v) (t.setRdata v) :=
  h.map (·.setRdata v) fun _ _ _ _ _ _ => rfl
theorem Alike.toPhase {s t : State} (h : Alike s t) (p : Phase) : Alike (s.toPhase p) (t.toPhase p) :=
  h.map (·.toPhase p) fun _ _ _ _ _ _ => rfl

/-- A reset makes the request registers zero on both sides (R35). -/
theorem Alike.applyReset {s t : State} (h : Alike s t) : Alike (applyReset s) (applyReset t) := by
  obtain ⟨_, _, _, _, _, rfl⟩ := alike_iff.1 h
  rfl

/-- The moment at which the host may look changes only its side (R247). -/
theorem alike_hostPoint (s : State) : Alike s (hostPoint s) := alike_iff.2 (hostPoint_eq s)

theorem Alike.hostPoint {s t : State} (h : Alike s t) : Alike (hostPoint s) (hostPoint t) :=
  ((alike_hostPoint s).symm.trans h).trans (alike_hostPoint t)

theorem Alike.enterPhase {s t : State} (h : Alike s t) (p : Phase) : Alike (enterPhase p s) (enterPhase p t) :=
  (h.toPhase p).hostPoint

/-! ### Frames -/

theorem Alike.select {s t : State} (h : Alike s t) (d : Dev) : Alike (select d s) (select d t) := by
  unfold Machine.select
  rw [h.device d]
  exact ((h.setDevice d _).setCs d true).log _

theorem Alike.send {s t : State} (h : Alike s t) (d : Dev) (o : Byte) : Alike (send d o s) (send d o t) := by
  unfold Machine.send
  rw [h.device d]
  exact (h.setDevice d _).log _

theorem Alike.sendAll {s t : State} (h : Alike s t) (d : Dev) (os : List Byte) : Alike (sendAll d os s) (sendAll d os t) := by
  induction os generalizing s t with
  | nil => exact h
  | cons o os ih => exact ih (h.send d o)

theorem Alike.receive {s t : State} (h : Alike s t) (d : Dev) (o : Byte) :
    (receive d o t).1 = (receive d o s).1 ∧ Alike (receive d o s).2 (receive d o t).2 := by
  unfold Machine.receive
  rw [h.device d, h.drawAt 0]
  exact ⟨rfl, ((h.skipDraws _).setDevice d _).log _⟩

theorem Alike.receiveAll {s t : State} (h : Alike s t) (d : Dev) (os : List Byte) :
    (receiveAll d os t).1 = (receiveAll d os s).1 ∧ Alike (receiveAll d os s).2 (receiveAll d os t).2 := by
  induction os generalizing s t with
  | nil => exact ⟨rfl, h⟩
  | cons o os ih =>
    obtain ⟨h1, h2⟩ := h.receive d o
    obtain ⟨h3, h4⟩ := ih h2
    exact ⟨by rw [Machine.receiveAll, Machine.receiveAll, h1, h3], h4⟩

theorem Alike.endFrame {s t : State} (h : Alike s t) (d : Dev) : Alike (endFrame d s) (endFrame d t) := by
  unfold Machine.endFrame
  simp only [h.device d, h.drawAt 0]
  split
  · exact h.setDevice d _
  · split
    · exact h.setDevice d _
    · exact h.setDevice d _
    · exact h.setDevice d _
    · split
      · exact (h.skipDraws 1).setDevice d _
      · exact h.setDevice d _

theorem Alike.wholeFrame {s t : State} (h : Alike s t) (d : Dev) (sends recvs : List Byte) :
    (wholeFrame d sends recvs t).1 = (wholeFrame d sends recvs s).1 ∧
      Alike (wholeFrame d sends recvs s).2 (wholeFrame d sends recvs t).2 := by
  obtain ⟨h1, h2⟩ := ((h.select d).sendAll d sends).receiveAll d recvs
  exact ⟨h1, ((h2.endFrame d).setCs d false).log _⟩

theorem Alike.scramble {s t : State} (h : Alike s t) (d : Dev) (lo n : Nat) :
    Alike (scramble d lo n s) (scramble d lo n t) := by
  induction n generalizing s t lo with
  | zero => exact h
  | succ n ih =>
    unfold Machine.scramble
    rw [h.device d, h.drawAt 0]
    exact ih ((h.skipDraws 1).setDevice d _) _

theorem Alike.startBusyUnknown {s t : State} (h : Alike s t) (d : Dev) :
    Alike (startBusyUnknown d s) (startBusyUnknown d t) := by
  unfold Machine.startBusyUnknown
  rw [h.device d, h.drawAt 0]
  exact (h.skipDraws 1).setDevice d _

theorem Alike.damage {s t : State} (h : Alike s t) (d : Dev) (bytes : List Byte) :
    Alike (damage d bytes s) (damage d bytes t) := by
  unfold Machine.damage
  simp only [h.device d, setDevice_device]
  have h0 := h.setDevice d (s.device d).close
  split
  · exact h0
  · split
    · split
      · exact h0.setDevice d _
      · exact (h0.scramble d _ _).startBusyUnknown d
    · exact (h0.scramble d _ _).startBusyUnknown d
    · exact h0.setDevice d _
    · exact h0.setDevice d _
    · exact h0.setDevice d _
    · exact h0.setDevice d _

theorem Alike.cutFrame {s t : State} (h : Alike s t) (d : Dev) (sends recvs : List Byte) (k : Nat) :
    Alike (cutFrame d sends recvs k s) (cutFrame d sends recvs k t) := by
  cases k with
  | zero => exact h.applyReset
  | succ j => exact ((((h.select d).sendAll d _).receiveAll d _).2.damage d _).applyReset

/-! ### Procedures -/

/-- Two procedures that end alike. -/
def Flow.Alike {α : Type} : Flow α → Flow α → Prop
  | .go a s, .go b t => b = a ∧ Machine.Alike s t
  | .halt s, .halt t => Machine.Alike s t
  | .go _ _, .halt _ => False
  | .halt _, .go _ _ => False

theorem Flow.Alike.bind {α β : Type} {m n : Flow α} {f g : α → State → Flow β} (h : m.Alike n)
    (hf : ∀ a s t, Machine.Alike s t → (f a s).Alike (g a t)) : (m.bind f).Alike (n.bind g) := by
  cases m <;> cases n
  · obtain ⟨rfl, h⟩ := h; exact hf _ _ _ h
  · exact h.elim
  · exact h.elim
  · exact h

theorem Flow.Alike.finally {α : Type} {m n : Flow α} {f g : α → State → State} (h : m.Alike n)
    (hf : ∀ a s t, Machine.Alike s t → Machine.Alike (f a s) (g a t)) : Machine.Alike (m.finally f) (n.finally g) := by
  cases m <;> cases n
  · obtain ⟨rfl, h⟩ := h; exact hf _ _ _ h
  · exact h.elim
  · exact h.elim
  · exact h

theorem Alike.performFrame {s t : State} (h : Alike s t) (d : Dev) (sends recvs : List Byte) :
    (performFrame d sends recvs s).Alike (performFrame d sends recvs t) := by
  unfold Machine.performFrame
  rw [h.fuse]
  split
  · exact h.wholeFrame d sends recvs
  · split
    · exact h.cutFrame d sends recvs _
    · exact (h.map (fun s => { s with fuse := _ }) fun _ _ _ _ _ _ => rfl).wholeFrame d sends recvs

theorem Alike.frameWren {s t : State} (h : Alike s t) (d : Dev) : (frameWren d s).Alike (frameWren d t) :=
  (h.performFrame d _ _).bind fun _ _ _ k => ⟨rfl, k⟩
theorem Alike.frameRdsr {s t : State} (h : Alike s t) (d : Dev) (x : Byte) : (frameRdsr d x s).Alike (frameRdsr d x t) :=
  (h.performFrame d _ _).bind fun b _ _ k => ⟨rfl, k.map (fun s => { s with st := b.headD 0 }) fun _ _ _ _ _ _ => rfl⟩
theorem Alike.frameProgram {s t : State} (h : Alike s t) (d : Dev) (a : Word) (data : List Byte) :
    (frameProgram d a data s).Alike (frameProgram d a data t) :=
  (h.performFrame d _ _).bind fun _ _ _ k => ⟨rfl, k⟩
theorem Alike.frameErase {s t : State} (h : Alike s t) (a : Word) : (frameErase a s).Alike (frameErase a t) :=
  (h.performFrame .nor _ _).bind fun _ _ _ k => ⟨rfl, k⟩
theorem Alike.frameRead {s t : State} (h : Alike s t) (d : Dev) (a : Word) (n : Nat) :
    (frameRead d a n s).Alike (frameRead d a n t) := by
  unfold Machine.frameRead
  rw [h.params]
  exact h.performFrame d _ _

theorem Alike.arrived {s t : State} (h : Alike s t) (d : Dev) (sends recvs : List Byte) :
    arrived d sends recvs t = arrived d sends recvs s := by
  unfold Machine.arrived
  rw [h.fuse]
  split
  · rfl
  · exact (((h.select d).sendAll d _).receiveAll d _).1

theorem Alike.putBuf {s t : State} (h : Alike s t) (bs : List Byte) :
    Alike { s with buf := Memory.writeMany s.buf 0 bs } { t with buf := Memory.writeMany t.buf 0 bs } :=
  h.map (fun s => { s with buf := Memory.writeMany s.buf 0 bs }) fun _ _ _ _ _ _ => rfl

theorem Alike.frameReadInto {s t : State} (h : Alike s t) (d : Dev) (a : Word) (n : Nat) :
    (frameReadInto d a n s).Alike (frameReadInto d a n t) := by
  have h0 := h.frameRead d a n
  unfold Machine.frameReadInto
  rw [h.params, h.arrived]
  generalize Machine.frameRead d a n s = x at *
  generalize Machine.frameRead d a n t = y at *
  cases x <;> cases y
  · exact ⟨rfl, by rw [h0.1]; exact h0.2.putBuf _⟩
  · exact h0.elim
  · exact h0.elim
  · exact Alike.putBuf h0 _

theorem Alike.judgeStatus {s t : State} (h : Alike s t) (d : Dev) : (judgeStatus d s).Alike (judgeStatus d t) := by
  obtain ⟨_, _, _, _, _, rfl⟩ := alike_iff.1 h
  unfold Machine.judgeStatus delay
  dsimp only
  split
  · exact ⟨rfl, h.enterPhase _⟩
  · split
    · exact ⟨rfl, Alike.enterPhase (alike_iff.2 ⟨_, _, _, _, _, rfl⟩) _⟩
    · split <;> rfl

theorem Alike.waitReady {s t : State} (h : Alike s t) (d : Dev) : (waitReady d s).Alike (waitReady d t) := by
  unfold Machine.waitReady
  rw [h.params]
  exact (((h.enterPhase .polling).map (fun s => { s with pollcnt := 0 }) fun _ _ _ _ _ _ => rfl).frameRdsr d _).bind
    fun _ _ _ k => k.judgeStatus d

theorem Alike.writeCycle {s t : State} (h : Alike s t) (d : Dev) {body : State → Flow Unit}
    (hb : ∀ s t, Alike s t → (body s).Alike (body t)) : (writeCycle d body s).Alike (writeCycle d body t) :=
  (h.frameWren d).bind fun _ _ _ k => (hb _ _ (k.enterPhase _)).bind fun _ _ _ l => (l.enterPhase _).waitReady d

theorem Alike.writeChunk {s t : State} (h : Alike s t) (d : Dev) (a : Word) (data : List Byte) :
    (writeChunk d a data s).Alike (writeChunk d a data t) :=
  h.writeCycle d fun _ _ k => k.frameProgram d a data

theorem Alike.chunkLoop {s t : State} (h : Alike s t) (d : Dev) (fuel : Nat) :
    (chunkLoop d fuel s).Alike (chunkLoop d fuel t) := by
  induction fuel generalizing s t with
  | zero => exact ⟨rfl, h⟩
  | succ fuel ih =>
    have hl : Alike (loadClen d s) (loadClen d t) := h.map (loadClen d) fun _ _ _ _ _ _ => rfl
    have hd : chunkData (loadClen d t) = chunkData (loadClen d s) := by
      unfold chunkData; rw [hl.buf, hl.idx, hl.clen]
    rw [Machine.chunkLoop, Machine.chunkLoop, h.rem, hl.cur, hd]
    split
    · exact ⟨rfl, h⟩
    · refine (hl.writeChunk d _ _).bind fun b _ _ k => ?_
      split
      · exact ih (k.map advanceChunk fun _ _ _ _ _ _ => rfl)
      · exact ⟨rfl, k⟩

theorem Alike.runChunks {s t : State} (h : Alike s t) (d : Dev) : (runChunks d s).Alike (runChunks d t) := by
  unfold Machine.runChunks
  rw [h.rem]
  exact h.chunkLoop d _

theorem Alike.afterFrame {s t : State} (h : Alike s t) (d : Dev) (bytes : List Byte) :
    Alike (afterFrame d bytes s) (afterFrame d bytes t) := by
  unfold Machine.afterFrame
  rw [h.busy, h.phase, h.latch]
  split
  · refine (h.judgeStatus d).finally fun b _ _ k => ?_
    unfold afterWait
    rw [k.latch]
    split
    · exact ((k.map advanceChunk fun _ _ _ _ _ _ => rfl).runChunks d).finally fun _ _ _ l => l.finish _
    · exact k.finish _
  · exact h

/-! ### Operations -/

theorem Alike.opReadByte {s t : State} (h : Alike s t) (d : Dev) : Alike (opReadByte d s) (opReadByte d t) := by
  unfold Machine.opReadByte
  rw [h.latch]
  split
  · exact (h.frameRead d _ _).finally fun _ _ _ k => (k.setRdata _).hostPoint.finish _
  · exact (h.setRdata _).hostPoint.finish _

theorem Alike.opReadArray {s t : State} (h : Alike s t) (d : Dev) : Alike (opReadArray d s) (opReadArray d t) := by
  unfold Machine.opReadArray
  rw [h.latch]
  split
  · split
    · exact (h.frameReadInto d _ _).finally fun _ _ _ k => k.finish _
    · exact h.finish _
  · exact h.finish _

theorem Alike.opWriteArray {s t : State} (h : Alike s t) (d : Dev) : Alike (opWriteArray d s) (opWriteArray d t) := by
  have h1 := h.map (fun u => { u with cur := u.latch.addr, rem := u.latch.len, idx := 0 }) fun _ _ _ _ _ _ => rfl
  unfold Machine.opWriteArray
  rw [show validRange d t.latch.addr t.latch.len = validRange d s.latch.addr s.latch.len by rw [h.latch],
    show t.latch.bufv = s.latch.bufv by rw [h.latch]]
  split
  · split
    · exact (h1.runChunks d).finally fun b _ _ k => k.finish (if b then .ok else .deviceNotReady)
    · exact h.finish _
  · exact h.finish _

theorem Alike.writeChunkEnds {s t : State} (h : Alike s t) (d : Dev) (a : Word) (data : List Byte) :
    Alike ((Machine.writeChunk d a data s).finally finishReady) ((Machine.writeChunk d a data t).finally finishReady) :=
  (h.writeChunk d a data).finally fun _ _ _ k => k.finish _

theorem Alike.eeModifyBit {s t : State} (h : Alike s t) (f : Byte → Byte → Byte) :
    Alike (eeModifyBit f s) (eeModifyBit f t) := by
  unfold Machine.eeModifyBit
  rw [h.latch]
  split
  · split
    · refine ((h.frameRead .ee _ _).bind fun b u v k => ?_).finally fun _ _ _ k => k.finish _
      obtain ⟨_, _, _, _, _, rfl⟩ := alike_iff.1 k
      exact (k.map (fun w => { w with tmp := f (b.headD 0) u.latch.bitn }) fun _ _ _ _ _ _ => rfl).writeChunk .ee _ _
    · exact h.finish _
  · exact h.finish _

theorem Alike.clearOnlyWrite {s t : State} (h : Alike s t) (v : Byte) : Alike (clearOnlyWrite v s) (clearOnlyWrite v t) := by
  unfold Machine.clearOnlyWrite
  rw [h.latch]
  refine (h.frameRead .nor _ _).finally fun b _ _ k => ?_
  have k1 := k.map (fun w => { w with tmp := b.headD 0 }) fun _ _ _ _ _ _ => rfl
  obtain ⟨_, _, _, _, _, rfl⟩ := alike_iff.1 k
  dsimp only
  split
  · exact k1.writeChunkEnds .nor _ _
  · exact k1.finish _

end Sys2Proof.Machine
end

