-- ==== Sys2Proof/Laws/Bulk.lean ====
section
/-! SUPPORT. The registers of a bulk write (spec/41_chunker.md R151): which procedures leave them, and where the chunk loop
leaves them when a wait ends the step. -/

namespace Sys2Proof.Machine

/-- The registers of a bulk write are as they were. -/
structure SameBulk (s t : State) : Prop where
  busy : t.busy = s.busy
  latch : t.latch = s.latch
  cur : t.cur = s.cur
  rem : t.rem = s.rem
  idx : t.idx = s.idx
  clen : t.clen = s.clen

theorem SameBulk.refl (s : State) : SameBulk s s := ⟨rfl, rfl, rfl, rfl, rfl, rfl⟩
theorem SameBulk.trans {s t u : State} (h : SameBulk s t) (k : SameBulk t u) : SameBulk s u :=
  ⟨k.busy.trans h.busy, k.latch.trans h.latch, k.cur.trans h.cur, k.rem.trans h.rem, k.idx.trans h.idx, k.clen.trans h.clen⟩

/-- A procedure that leaves those registers, or in which a reset strikes. -/
def KeepsBulk {α : Type} (s : State) : Flow α → Prop
  | .go _ t => SameBulk s t
  | .halt t => SameBulk s t ∨ t.busy = false

theorem KeepsBulk.bind {α β : Type} {s : State} {m : Flow α} {f : α → State → Flow β} (hm : KeepsBulk s m)
    (hf : ∀ a t, KeepsBulk t (f a t)) : KeepsBulk s (m.bind f) := by
  cases m with
  | halt t => exact hm
  | go a t =>
    have := hf a t
    show KeepsBulk s (f a t)
    cases hx : f a t with
    | go b u => rw [hx] at this; exact SameBulk.trans hm this
    | halt u => rw [hx] at this; exact this.imp (SameBulk.trans hm) id

theorem KeepsBulk.of {α : Type} {s t : State} {m : Flow α} (h : KeepsBulk t m) (k : SameBulk s t) : KeepsBulk s m := by
  cases m with
  | go b u => exact k.trans h
  | halt u => exact h.imp k.trans id

theorem performFrame_bulk (d : Dev) (sends recvs : List Byte) (s : State) : KeepsBulk s (performFrame d sends recvs s) := by
  rcases performFrame_cases d sends recvs s with ⟨bs, v, n, k, _, _, _, he⟩ | ⟨_, bs, v, n, j, _, _, he⟩ <;> rw [he]
  · exact ⟨by simp, by simp, by simp, by simp, by simp, by simp⟩
  · exact .inr rfl

theorem frameWren_bulk (d : Dev) (s : State) : KeepsBulk s (frameWren d s) :=
  (performFrame_bulk ..).bind fun _ t => .refl t
theorem frameRdsr_bulk (d : Dev) (x : Byte) (s : State) : KeepsBulk s (frameRdsr d x s) :=
  (performFrame_bulk ..).bind fun _ _ => ⟨rfl, rfl, rfl, rfl, rfl, rfl⟩
theorem frameProgram_bulk (d : Dev) (a : Word) (data : List Byte) (s : State) : KeepsBulk s (frameProgram d a data s) :=
  (performFrame_bulk ..).bind fun _ t => .refl t
theorem frameErase_bulk (a : Word) (s : State) : KeepsBulk s (frameErase a s) :=
  (performFrame_bulk ..).bind fun _ t => .refl t
theorem enterPhase_bulk (p : Phase) (s : State) : SameBulk s (enterPhase p s) :=
  ⟨by simp, by simp, by simp, by simp, by simp, by simp⟩

theorem judgeStatus_bulk (d : Dev) (s : State) : KeepsBulk s (judgeStatus d s) := by
  unfold judgeStatus
  split
  · exact enterPhase_bulk _ s
  · simp only
    split
    · exact SameBulk.trans (t := { s with pollcnt := s.pollcnt + 1 }) ⟨rfl, rfl, rfl, rfl, rfl, rfl⟩ (enterPhase_bulk _ _)
    · unfold delay
      split
      · exact .inl ⟨rfl, rfl, rfl, rfl, rfl, rfl⟩
      · exact .inr rfl
      · exact .inl ⟨rfl, rfl, rfl, rfl, rfl, rfl⟩

theorem waitReady_bulk (d : Dev) (s : State) : KeepsBulk s (waitReady d s) :=
  (KeepsBulk.bind (frameRdsr_bulk ..) fun _ t => judgeStatus_bulk d t).of
    ((enterPhase_bulk .polling s).trans ⟨rfl, rfl, rfl, rfl, rfl, rfl⟩)

theorem writeChunk_bulk (d : Dev) (a : Word) (data : List Byte) (s : State) : KeepsBulk s (writeChunk d a data s) :=
  (frameWren_bulk d s).bind fun _ t => (KeepsBulk.bind (frameProgram_bulk ..) fun _ u =>
    (waitReady_bulk d _).of (enterPhase_bulk _ u)).of (enterPhase_bulk _ t)

/-- Where the registers of a bulk write of device `d` may stand between two chunks. -/
structure BulkAt (d : Dev) (s : State) : Prop where
  dev : s.latch.dev = d
  range : validRange d s.latch.addr s.latch.len = true
  bufv : s.latch.bufv = true
  cur : s.cur.toNat = s.latch.addr.toNat + s.idx.toNat
  rest : s.idx.toNat + s.rem.toNat = s.latch.len.toNat

theorem bulkWf_iff (s : State) (hb : s.busy = true) (ho : s.latch.op = 4) : bulkWf s = true ↔ BulkAt s.latch.dev s ∧
    1 ≤ s.clen.toNat ∧ s.clen.toNat ≤ s.rem.toNat ∧ s.cur.toNat % s.latch.dev.page + s.clen.toNat ≤ s.latch.dev.page := by
  simp only [bulkWf, hb, ho, decide_true, Bool.and_self, if_true, Bool.and_eq_true, decide_eq_true_eq]
  constructor
  · rintro ⟨⟨⟨⟨⟨⟨h1, h2⟩, h3⟩, h4⟩, h5⟩, h6⟩, h7⟩; exact ⟨⟨rfl, h1, h2, h3, h4⟩, h5, h6, h7⟩
  · rintro ⟨⟨_, h1, h2, h3, h4⟩, h5, h6, h7⟩; exact ⟨⟨⟨⟨⟨⟨h1, h2⟩, h3⟩, h4⟩, h5⟩, h6⟩, h7⟩

theorem bulkWf_idle {s : State} (h : s.busy = false) : bulkWf s = true := by simp [bulkWf, h]
theorem bulkWf_op {s : State} (h : s.latch.op ≠ 4) : bulkWf s = true := by
  simp only [bulkWf, decide_eq_false h, Bool.and_false, Bool.false_eq_true, if_false]

theorem bulkWf_same {s t : State} (h : SameBulk s t) : bulkWf t = bulkWf s := by
  simp only [bulkWf, h.busy, h.latch, h.cur, h.rem, h.idx, h.clen]

/-- The chunks still to write lie in the device and in the buffer. -/
theorem BulkAt.inRange {d : Dev} {s : State} (h : BulkAt d s) :
    s.cur.toNat + s.rem.toNat ≤ d.size ∧ s.idx.toNat + s.rem.toNat ≤ d.size := by
  have := h.range
  simp only [validRange, Bool.and_eq_true, decide_eq_true_eq] at this
  have := h.cur; have := h.rest; omega

/-- A chunk is counted off. -/
theorem BulkAt.advance {d : Dev} {s : State} (h : BulkAt d s) (hc : s.clen.toNat ≤ s.rem.toNat) :
    BulkAt d (advanceChunk s) := by
  have h1 := h.inRange
  have hs := size_le d
  have e : (s.clen.setWidth 32).toNat = s.clen.toNat := by rw [BitVec.toNat_setWidth]; have := s.clen.isLt; omega
  refine ⟨h.dev, h.range, h.bufv, ?_, ?_⟩
  · simp only [advanceChunk_cur, advanceChunk_idx, advanceChunk_latch, BitVec.toNat_add, e]; have := h.cur; omega
  · simp only [advanceChunk_rem, advanceChunk_idx, advanceChunk_latch, BitVec.toNat_add, BitVec.toNat_sub, e]
    have := h.rest; omega

/-- Where the chunk loop ends or waits, the registers are those of a bulk write in its place. -/
theorem chunkLoop_bulk (d : Dev) (fuel : Nat) (s : State) (h : BulkAt d s) :
    bulkWf ((chunkLoop d fuel s).finally finishReady) = true := by
  induction fuel generalizing s with
  | zero => exact bulkWf_idle rfl
  | succ fuel ih =>
    rw [chunkLoop]
    split
    · exact bulkWf_idle rfl
    · rename_i h0
      obtain ⟨hpos, hcl, _, _⟩ := loadClen_facts d s ⟨h.inRange.1, h.inRange.2⟩ h0
      obtain ⟨hc1, hc2, hc3, hc4⟩ := chunkLen_pos d s.cur.toNat s.rem.toNat hpos
      have hw := writeChunk_bulk d (loadClen d s).cur (chunkData (loadClen d s)) (loadClen d s)
      cases hx : writeChunk d (loadClen d s).cur (chunkData (loadClen d s)) (loadClen d s) with
      | go b t =>
        rw [hx] at hw
        rw [Flow.bind_go]
        split
        · refine ih _ (BulkAt.advance ⟨?_, ?_, ?_, ?_, ?_⟩ ?_)
          · rw [hw.latch]; exact h.dev
          · rw [hw.latch]; exact h.range
          · rw [hw.latch]; exact h.bufv
          · rw [hw.latch, hw.cur, hw.idx]; exact h.cur
          · rw [hw.latch, hw.rem, hw.idx]; exact h.rest
          · rw [hw.clen, hw.rem, hcl]; exact hc2
        · exact bulkWf_idle rfl
      | halt t =>
        rw [hx] at hw
        show bulkWf t = true
        rcases hw with hw | hw
        · rw [bulkWf_same hw]
          by_cases hb : (loadClen d s).busy = true
          · by_cases ho : (loadClen d s).latch.op = 4
            · rw [bulkWf_iff _ hb ho]
              have hd : (loadClen d s).latch.dev = d := h.dev
              rw [hd, hcl]
              exact ⟨⟨h.dev, h.range, h.bufv, h.cur, h.rest⟩, hc1, hc2, hc3⟩
            · exact bulkWf_op ho
          · exact bulkWf_idle (by simpa using hb)
        · exact bulkWf_idle hw

theorem other_bulk {s : State} {m : Flow Bool} (h : KeepsBulk s m) (hs : bulkWf s = true) :
    bulkWf (m.finally finishReady) = true := by
  cases m with
  | go b t => exact bulkWf_idle rfl
  | halt t =>
    rcases h with h | h
    · show bulkWf t = true
      rw [bulkWf_same h]; exact hs
    · exact bulkWf_idle h
end Sys2Proof.Machine
end

