-- ==== Sys2Proof/Laws/PerInstr.lean ====
section
/-! SUPPORT. One lemma for each instruction: its encoding is the row of spec/opcode_table.json that it stands for. -/

namespace Sys2Proof.Laws.EncodeMatchesTable

open Sys2Proof.Machine

/-- The `match` value of a host row (spec/30_encoding.md R106). -/
def requestMatch : Instr → Option Word
  | .eeReadByte _ => some 0x01
  | .eeWriteByte _ => some 0x02
  | .eeReadArray _ => some 0x03
  | .eeWriteArray _ => some 0x04
  | .eeSetBit _ => some 0x05
  | .eeClearBit _ => some 0x06
  | .norReadByte _ => some 0x11
  | .norWriteByte _ => some 0x12
  | .norReadArray _ => some 0x13
  | .norWriteArray _ => some 0x14
  | .norSetBit _ => some 0x15
  | .norClearBit _ => some 0x16
  | .norEraseSector _ => some 0x17
  | .eeWren => none
  | .norWren => none
  | .eeRdsr _ => none
  | .norRdsr _ => none
  | .eeRead _ _ => none
  | .norRead _ _ => none
  | .eeProgram _ _ => none
  | .norProgram _ _ => none
  | .norSe _ => none

/-- The device, the opcode and the number of bytes of a wire frame (R91, R100). -/
def frameShape : Instr → Option (Dev × Byte × Nat)
  | .eeReadByte _ => none
  | .eeWriteByte _ => none
  | .eeReadArray _ => none
  | .eeWriteArray _ => none
  | .eeSetBit _ => none
  | .eeClearBit _ => none
  | .norReadByte _ => none
  | .norWriteByte _ => none
  | .norReadArray _ => none
  | .norWriteArray _ => none
  | .norSetBit _ => none
  | .norClearBit _ => none
  | .norEraseSector _ => none
  | .eeWren => some (.ee, 0x06, 1)
  | .norWren => some (.nor, 0x06, 1)
  | .eeRdsr _ => some (.ee, 0x05, 2)
  | .norRdsr _ => some (.nor, 0x05, 2)
  | .eeRead _ outs => some (.ee, 0x03, 3 + outs.length)
  | .norRead _ outs => some (.nor, 0x03, 4 + outs.length)
  | .eeProgram _ data => some (.ee, 0x02, 3 + data.length)
  | .norProgram _ data => some (.nor, 0x02, 4 + data.length)
  | .norSe _ => some (.nor, 0x20, 4)

/-- A request encodes to a W0 that the mask of R106 reduces to its row's `match` value, with its address and length in W1 and W2;
a frame encodes to its opcode and as many bytes as R91 says, on its own device. -/
def Statement (i : Instr) : Prop :=
  (∀ m, requestMatch i = some m → ∃ w0 w1 w2, encode i = .request w0 w1 w2 ∧ w0 &&& requestMask = m) ∧
    ∀ d c n, frameShape i = some (d, c, n) → ∃ tl, encode i = .frame d (c :: tl) ∧ tl.length + 1 = n

/-- The mask keeps `DEV` and `OP`, and the reserved fields are zero (R102, R106). -/
theorem masked_encodeW0 (sel : BitVec 5) (r : Req) : encodeW0 sel r &&& requestMask = sel.setWidth 32 := by
  have h : ∀ i, (encodeW0 sel r).getLsbD i =
      @BitVec.getLsbD (8 + 8 + 8 + 2 + 1 + 5) (0#8 ++ r.bitn ++ r.val ++ 0#2 ++ BitVec.ofBool r.bufv ++ sel) i :=
    fun _ => rfl
  apply BitVec.eq_of_getLsbD_eq
  intro i hi
  rw [BitVec.getLsbD_and, h, BitVec.getLsbD_setWidth]
  simp only [BitVec.getLsbD_append, requestMask]
  interval_cases i <;> simp

theorem of_request {i : Instr} {sel : BitVec 5} {r : Req} (h : encode i = encodeRequest sel r)
    (hm : requestMatch i = some (sel.setWidth 32)) (hf : frameShape i = none) : Statement i := by
  refine ⟨fun m h1 => ⟨_, _, _, h, ?_⟩, fun d c n h1 => ?_⟩
  · rw [masked_encodeW0]
    exact Option.some.inj (hm.symm.trans h1)
  · rw [hf] at h1
    cases h1

theorem of_frame {i : Instr} {d : Dev} {c : Byte} {tl : List Byte} {n : Nat} (h : encode i = .frame d (c :: tl))
    (hf : frameShape i = some (d, c, n)) (hl : tl.length + 1 = n) (hm : requestMatch i = none) : Statement i := by
  refine ⟨fun m h1 => ?_, fun d' c' n' h1 => ?_⟩
  · rw [hm] at h1
    cases h1
  · rw [hf] at h1
    cases h1
    exact ⟨tl, h, hl⟩

theorem eeReadByte (r : Req) : Statement (.eeReadByte r) := of_request rfl rfl rfl
theorem eeWriteByte (r : Req) : Statement (.eeWriteByte r) := of_request rfl rfl rfl
theorem eeReadArray (r : Req) : Statement (.eeReadArray r) := of_request rfl rfl rfl
theorem eeWriteArray (r : Req) : Statement (.eeWriteArray r) := of_request rfl rfl rfl
theorem eeSetBit (r : Req) : Statement (.eeSetBit r) := of_request rfl rfl rfl
theorem eeClearBit (r : Req) : Statement (.eeClearBit r) := of_request rfl rfl rfl
theorem norReadByte (r : Req) : Statement (.norReadByte r) := of_request rfl rfl rfl
theorem norWriteByte (r : Req) : Statement (.norWriteByte r) := of_request rfl rfl rfl
theorem norReadArray (r : Req) : Statement (.norReadArray r) := of_request rfl rfl rfl
theorem norWriteArray (r : Req) : Statement (.norWriteArray r) := of_request rfl rfl rfl
theorem norSetBit (r : Req) : Statement (.norSetBit r) := of_request rfl rfl rfl
theorem norClearBit (r : Req) : Statement (.norClearBit r) := of_request rfl rfl rfl
theorem norEraseSector (r : Req) : Statement (.norEraseSector r) := of_request rfl rfl rfl
theorem eeWren : Statement (.eeWren) := of_frame rfl rfl rfl rfl
theorem norWren : Statement (.norWren) := of_frame rfl rfl rfl rfl
theorem eeRdsr (x : Byte) : Statement (.eeRdsr x) := of_frame rfl rfl rfl rfl
theorem norRdsr (x : Byte) : Statement (.norRdsr x) := of_frame rfl rfl rfl rfl
theorem eeRead (a : BitVec 16) (outs : List Byte) : Statement (.eeRead a outs) := of_frame rfl rfl (by simp; omega) rfl
theorem norRead (a : BitVec 24) (outs : List Byte) : Statement (.norRead a outs) := of_frame rfl rfl (by simp; omega) rfl
theorem eeProgram (a : BitVec 16) (data : List Byte) : Statement (.eeProgram a data) := of_frame rfl rfl (by simp; omega) rfl
theorem norProgram (a : BitVec 24) (data : List Byte) : Statement (.norProgram a data) := of_frame rfl rfl (by simp; omega) rfl
theorem norSe (a : BitVec 24) : Statement (.norSe a) := of_frame rfl rfl rfl rfl

end Sys2Proof.Laws.EncodeMatchesTable
end

