-- ==== Sys2Proof/Laws/Sound.lean ====
section
/-! SUPPORT. What the procedures of the sequencer keep, in any state and also when a reset strikes: the bus discipline, the
transitions of `phase`, the canonical memories. -/

namespace Sys2Proof.Machine

/-! ### The bus along a frame -/

theorem busAfter_append (b : Bus) (es fs : List Event) :
    busAfter b (es ++ fs) = (busAfter b es).bind fun c => busAfter c fs := by
  induction es generalizing b with
  | nil => rfl
  | cons e es ih =>
    simp only [List.cons_append, busAfter]
    split
    · exact ih _
    · rfl

theorem busAfter_take {b c : Bus} {es : List Event} (j : Nat) (h : busAfter b es = some c) :
    ∃ c', busAfter b (es.take j) = some c' := by
  have := busAfter_append b (es.take j) (es.drop j)
  rw [List.take_append_drop, h] at this
  cases hb : busAfter b (es.take j) with
  | none => simp [hb] at this
  | some c' => exact ⟨c', rfl⟩

theorem phaseAfter_append (p : Phase) (es fs : List Event) :
    phaseAfter p (es ++ fs) = (phaseAfter p es).bind fun q => phaseAfter q fs := by
  induction es generalizing p with
  | nil => rfl
  | cons e es ih =>
    cases e with
    | ph q => simp only [List.cons_append, phaseAfter]; split <;> simp [ih]
    | _ => simp only [List.cons_append, phaseAfter, ih]

/-- Exchanges after the first of a frame. -/
theorem busAfter_exchanges (d : Dev) (es : List Event) (h : ∀ e ∈ es, ∃ o i, e = .x d o i) (b : Bus)
    (ho : b.opened = some d) (hs : b.started = true) :
    busAfter b es = some { b with wren := b.wren && es.isEmpty } := by
  induction es generalizing b with
  | nil => simp [busAfter]
  | cons e es ih =>
    obtain ⟨o, i, rfl⟩ := h e (by simp)
    simp only [busAfter, Bus.next, ho, if_true, hs]
    rw [ih (fun e he => h e (by simp [he])) _ rfl rfl]
    simp

/-- The opcodes that need a write-enable frame right before theirs (R130). -/
def needsWren (c : Byte) : Prop := c = Config.opcProgram ∨ c = Config.opcSe

/-- The bus along one frame (R121, R130): it may begin when its opcode agrees with the frame just before, and it leaves the device
write-enabled when it is the write-enable frame. -/
theorem busAfter_frame (d : Dev) (c : Byte) (tl recvs bs : List Byte) (a : Option Dev) (hl : bs.length = recvs.length)
    (ha : a = if c = Config.opcProgram ∨ c = Config.opcSe then some d else none) :
    busAfter { armed := a } (frameEvents d (c :: tl) recvs bs) =
      some { armed := if c = Config.opcWren ∧ tl = [] ∧ recvs = [] then some d else none } := by
  simp only [frameEvents, List.map_cons, List.cons_append, busAfter, Bus.next, if_true, Bool.false_eq_true, if_false, ← ha]
  rw [busAfter_append, busAfter_exchanges d _ _ _ rfl rfl]
  · simp only [Option.bind_some, busAfter, Bus.next, and_self, if_true, Bool.and_eq_true, decide_eq_true_eq]
    congr 3
    cases tl <;> cases recvs <;> cases bs <;> simp_all
  · intro e he
    simp only [List.mem_append, List.mem_map] at he
    rcases he with ⟨o, _, rfl⟩ | he
    · exact ⟨_, _, rfl⟩
    · rw [List.mem_iff_getElem] at he
      obtain ⟨n, hn, rfl⟩ := he
      exact ⟨_, _, by rw [List.getElem_zipWith]⟩

/-- A frame has no mark of a transition. -/
theorem phaseAfter_frame (p : Phase) (d : Dev) (sends recvs bs : List Byte) (j : Nat) :
    phaseAfter p ((frameEvents d sends recvs bs).take j) = some p := by
  have h : ∀ es : List Event, (∀ e ∈ es, (∃ d b, e = .sel d b) ∨ ∃ d o i, e = .x d o i) → phaseAfter p es = some p := by
    intro es hes
    induction es with
    | nil => rfl
    | cons e es ih =>
      rcases hes e (by simp) with ⟨_, _, rfl⟩ | ⟨_, _, _, rfl⟩
      · exact ih fun e he => hes e (by simp [he])
      · exact ih fun e he => hes e (by simp [he])
  refine h _ fun e he => ?_
  have he := List.mem_of_mem_take he
  simp only [frameEvents, List.mem_cons, List.mem_append, List.mem_map, List.not_mem_nil, or_false] at he
  rcases he with rfl | (⟨o, _, rfl⟩ | he) | rfl
  · exact .inl ⟨_, _, rfl⟩
  · exact .inr ⟨_, _, _, rfl⟩
  · rw [List.mem_iff_getElem] at he
    obtain ⟨n, hn, rfl⟩ := he
    exact .inr ⟨_, _, _, by rw [List.getElem_zipWith]⟩
  · exact .inl ⟨_, _, rfl⟩

/-! ### What every procedure keeps -/

/-- A state whose trace leaves the bus as `b` and `phase` as it stands, with exclusive access released, well-formed memories. -/
structure Sound (b : Bus) (s : State) : Prop where
  bus : busAfter {} s.trace = some b
  phase : phaseAfter .idle s.trace = some s.phase
  mem : memoriesWf s = true
  csEe : s.csEe = false
  csNor : s.csNor = false

/-- What the frames of one operation never change of the sequencer. -/
structure Same (s t : State) : Prop where
  latch : t.latch = s.latch
  busy : t.busy = s.busy
  go : t.go = s.go
  params : t.params = s.params
  frame : t.frame = s.frame

theorem Same.refl (s : State) : Same s s := ⟨rfl, rfl, rfl, rfl, rfl⟩

theorem Same.trans {s t u : State} (h : Same s t) (k : Same t u) : Same s u :=
  ⟨k.latch.trans h.latch, k.busy.trans h.busy, k.go.trans h.go, k.params.trans h.params, k.frame.trans h.frame⟩

/-- A reset has struck: what is left is sound and idle. -/
structure Reset (s t : State) : Prop where
  sound : Sound {} t
  busy : t.busy = false
  phase : t.phase = .idle
  go : t.go = false
  frame : t.frame = none
  params : t.params = s.params

theorem Reset.after {s t u : State} (h : Reset t u) (k : t.params = s.params) : Reset s u :=
  { h with params := h.params.trans k }

theorem kept_wf (d : Dev) : Kept d (fun m => Memory.wf m = true ∧ Memory.within d.size m = true) :=
  ⟨fun _ x b hx h => ⟨Memory.wf_write x b h.1, Memory.within_write b hx h.2⟩,
   fun _ lo n h => ⟨Memory.wf_erase lo n h.1, Memory.within_erase lo n h.2⟩⟩

theorem memoriesWf_iff (s : State) : memoriesWf s = true ↔
    (∀ d, Memory.wf (s.device d).mem = true ∧ Memory.within d.size (s.device d).mem = true) ∧ Memory.wf s.buf = true := by
  simp only [memoriesWf, Bool.and_eq_true]
  constructor
  · rintro ⟨⟨⟨⟨h1, h2⟩, h3⟩, h4⟩, h5⟩
    exact ⟨fun d => by cases d <;> exact ⟨‹_›, ‹_›⟩, h5⟩
  · rintro ⟨h, h5⟩
    exact ⟨⟨⟨h .ee, (h .nor).1⟩, (h .nor).2⟩, h5⟩

theorem memoriesWf_setDevice {s t : State} {d : Dev} {v : Device} (h : memoriesWf s = true)
    (hv : ∀ P, Kept d P → P (s.device d).mem → P v.mem) (ht : ∀ d', t.device d' = (s.setDevice d v).device d')
    (hb : t.buf = s.buf) : memoriesWf t = true := by
  rw [memoriesWf_iff] at h ⊢
  refine ⟨fun d' => ?_, by rw [hb]; exact h.2⟩
  rw [ht]
  by_cases he : d' = d
  · subst he
    have := hv _ (kept_wf d') (h.1 d')
    cases d' <;> exact this
  · have h0 := h.1 d'
    cases d <;> cases d' <;> first | exact h0 | exact absurd rfl he

theorem busAfter_reset (es : List Event) (c : Bus) (h : busAfter {} es = some c) :
    busAfter {} (es ++ resetEvents) = some {} := by
  rw [busAfter_append, h]; rfl

theorem reset_of {s t : State} {d : Dev} {v : Device} {q : Phase} (n : Nat) (es : List Event) {b c : Bus}
    (hm : memoriesWf s = true) (hb : busAfter {} s.trace = some b) (hp : phaseAfter .idle s.trace = some s.phase)
    (hv : ∀ P, Kept d P → P (s.device d).mem → P v.mem)
    (he : busAfter b es = some c) (hpe : phaseAfter s.phase es = some q)
    (ht : t = applyReset { (s.skipDraws n).setDevice d v with trace := s.trace ++ es }) : Reset s t := by
  subst ht
  refine ⟨⟨?_, ?_, ?_, rfl, rfl⟩, rfl, rfl, rfl, rfl, by cases d <;> rfl⟩
  · exact busAfter_reset _ c (by rw [busAfter_append, hb]; exact he)
  · show phaseAfter .idle ((s.trace ++ es) ++ resetEvents) = some .idle
    rw [phaseAfter_append, phaseAfter_append, hp, Option.bind_some, hpe]; rfl
  · refine memoriesWf_setDevice hm hv (fun d' => ?_) ?_
    · cases d <;> cases d' <;> rfl
    · cases d <;> rfl

/-- One frame, from a sound state: performed whole it leaves a sound state with everything else as it was, or a reset struck. -/
theorem performFrame_sound (d : Dev) (c : Byte) (tl recvs : List Byte) (s : State) (a : Option Dev)
    (h : Sound { armed := a } s) (ha : a = if c = Config.opcProgram ∨ c = Config.opcSe then some d else none) :
    (∃ bs t, performFrame d (c :: tl) recvs s = .go bs t ∧ Same s t ∧ t.phase = s.phase ∧
      Sound { armed := if c = Config.opcWren ∧ tl = [] ∧ recvs = [] then some d else none } t) ∨
    ∃ t, performFrame d (c :: tl) recvs s = .halt t ∧ Reset s t := by
  rcases performFrame_cases d (c :: tl) recvs s with ⟨bs, v, n, k, hl, _, hm, he⟩ | ⟨_, bs, v, n, j, hl, hm, he⟩
  · refine .inl ⟨bs, _, he, ⟨?_, ?_, ?_, ?_, ?_⟩, ?_, ?_, ?_, ?_, ?_, ?_⟩
    any_goals simp
    · rw [busAfter_append, h.bus, Option.bind_some, busAfter_frame d c tl recvs bs a hl ha]
    · have := phaseAfter_frame s.phase d (c :: tl) recvs bs (frameEvents d (c :: tl) recvs bs).length
      rw [List.take_length] at this
      rw [phaseAfter_append, h.phase, Option.bind_some, this]
    · refine memoriesWf_setDevice (s := s) (d := d) (v := v) h.mem (fun P hP h0 => kept_obeyMem hP hm h0) (fun d' => ?_) ?_
      · cases d <;> cases d' <;> rfl
      · simp
    · have := h.csEe; cases d <;> simp [State.framed, State.setCs, State.setDevice, this]
    · have := h.csNor; cases d <;> simp [State.framed, State.setCs, State.setDevice, this]
  · refine .inr ⟨_, he, ?_⟩
    obtain ⟨c', hc'⟩ := busAfter_take j (busAfter_frame d c tl recvs bs a hl ha)
    exact reset_of n _ h.mem h.bus h.phase hm hc' (phaseAfter_frame _ _ _ _ _ _) rfl

theorem frameWren_sound (d : Dev) (s : State) (h : Sound {} s) :
    (∃ t, frameWren d s = .go () t ∧ Same s t ∧ t.phase = s.phase ∧ Sound { armed := some d } t) ∨
    ∃ t, frameWren d s = .halt t ∧ Reset s t := by
  rcases performFrame_sound d Config.opcWren [] [] s none h (if_neg (by decide)).symm with
    ⟨bs, t, he, hs, hp, ht⟩ | ⟨t, he, ht⟩
  · exact .inl ⟨t, by rw [frameWren, he]; rfl, hs, hp, by simpa using ht⟩
  · exact .inr ⟨t, by rw [frameWren, he]; rfl, ht⟩

theorem frameRdsr_sound (d : Dev) (x : Byte) (s : State) (h : Sound {} s) :
    (∃ t, frameRdsr d x s = .go () t ∧ Same s t ∧ t.phase = s.phase ∧ Sound {} t) ∨
    ∃ t, frameRdsr d x s = .halt t ∧ Reset s t := by
  rcases performFrame_sound d Config.opcRdsr [] [x] s none h (if_neg (by decide)).symm with
    ⟨bs, t, he, hs, hp, ht⟩ | ⟨t, he, ht⟩
  · have ht : Sound {} t := by simpa using ht
    exact .inl ⟨{ t with st := bs.headD 0 }, by rw [frameRdsr, he]; rfl, { hs with }, hp, { ht with }⟩
  · exact .inr ⟨t, by rw [frameRdsr, he]; rfl, ht⟩

theorem frameReadOuts_sound (d : Dev) (a : Word) (outs : List Byte) (s : State) (h : Sound {} s) :
    (∃ bs t, frameReadOuts d a outs s = .go bs t ∧ Same s t ∧ t.phase = s.phase ∧ Sound {} t) ∨
    ∃ t, frameReadOuts d a outs s = .halt t ∧ Reset s t := by
  obtain ⟨tl, htl⟩ : ∃ tl, headerBytes d Config.opcRead a = Config.opcRead :: tl := by cases d <;> exact ⟨_, rfl⟩
  rcases performFrame_sound d Config.opcRead tl outs s none h (if_neg (by decide)).symm with
    ⟨bs, t, he, hs, hp, ht⟩ | ⟨t, he, ht⟩
  · exact .inl ⟨bs, t, by rw [frameReadOuts, htl, he], hs, hp, by simpa [Config.opcRead, Config.opcWren] using ht⟩
  · exact .inr ⟨t, by rw [frameReadOuts, htl, he], ht⟩

/-- The body of a write cycle as the machine's invariant sees it: a program or erase frame (R128, R130). -/
def SoundBody (d : Dev) (body : State → Flow Unit) : Prop :=
  ∀ s : State, Sound { armed := some d } s →
    (∃ t, body s = .go () t ∧ Same s t ∧ t.phase = s.phase ∧ Sound {} t) ∨ ∃ t, body s = .halt t ∧ Reset s t

theorem frameProgram_sound (d : Dev) (a : Word) (data : List Byte) : SoundBody d (frameProgram d a data) := by
  intro s h
  obtain ⟨tl, htl⟩ : ∃ tl, headerBytes d Config.opcProgram a ++ data = Config.opcProgram :: tl := by
    cases d <;> exact ⟨_, rfl⟩
  rcases performFrame_sound d Config.opcProgram tl [] s (some d) h (by simp) with ⟨bs, t, he, hs, hp, ht⟩ | ⟨t, he, ht⟩
  · exact .inl ⟨t, by rw [frameProgram, htl, he]; rfl, hs, hp, by simpa [Config.opcProgram, Config.opcWren] using ht⟩
  · exact .inr ⟨t, by rw [frameProgram, htl, he]; rfl, ht⟩

theorem frameErase_sound (a : Word) : SoundBody .nor (frameErase a) := by
  intro s h
  rcases performFrame_sound .nor Config.opcSe _ [] s (some .nor) h (by simp) with ⟨bs, t, he, hs, hp, ht⟩ | ⟨t, he, ht⟩
  · exact .inl ⟨t, by rw [frameErase, headerBytes, he]; rfl, hs, hp, by simpa [Config.opcSe, Config.opcWren] using ht⟩
  · exact .inr ⟨t, by rw [frameErase, headerBytes, he]; rfl, ht⟩

/-- A transition of R129. -/
theorem Sound.toPhase {b : Bus} {s : State} {p : Phase} (h : Sound b s) (hp : phaseEdge s.phase p = true) :
    Sound b (s.toPhase p) := by
  obtain ⟨h1, h2, h3, h4, h5⟩ := h
  refine ⟨?_, ?_, h3, h4, h5⟩
  · show busAfter {} (s.trace ++ [.ph p]) = some b
    rw [busAfter_append, h1]; rfl
  · show phaseAfter .idle (s.trace ++ [.ph p]) = some p
    rw [phaseAfter_append, h2]; simp [phaseAfter, hp]

/-- A moment at which the host may look leaves all this as it was. -/
theorem Sound.hostPoint {b : Bus} {s : State} (h : Sound b s) : Sound b (hostPoint s) :=
  ⟨by simp [h.bus], by simp [h.phase],
    memoriesWf_setDevice (d := .ee) (v := s.ee) h.mem (fun _ _ h0 => h0) (fun d' => by cases d' <;> simp [State.setDevice])
      (by simp), by simp [h.csEe], by simp [h.csNor]⟩

theorem Same.hostPoint (s : State) : Same s (hostPoint s) := ⟨by simp, by simp, by simp, by simp, by simp⟩

theorem Sound.enterPhase {b : Bus} {s : State} {p : Phase} (h : Sound b s) (hp : phaseEdge s.phase p = true) :
    Sound b (enterPhase p s) :=
  (h.toPhase hp).hostPoint

theorem Same.enterPhase (p : Phase) (s : State) : Same s (enterPhase p s) := ⟨by simp, by simp, by simp, by simp, by simp⟩

/-- What the first delay of a wait leaves: `phase` is `Polling` and the next status frame stands ready (R127). -/
structure Waits (d : Dev) (s t : State) : Prop where
  sound : Sound {} t
  phase : t.phase = .polling
  same : Same { s with frame := some (d, rdsrBytes t) } t

theorem Waits.after {d : Dev} {s t u : State} (h : Waits d t u) (k : Same s t) : Waits d s u :=
  { h with same := ⟨h.same.latch.trans k.latch, h.same.busy.trans k.busy, h.same.go.trans k.go,
                    h.same.params.trans k.params, h.same.frame⟩ }

/-- How a procedure with a wait in it can leave `s`: it ends with `phase` at `Idle`, or it waits, or a reset strikes. -/
def Cycle (d : Dev) (s : State) (m : Flow Bool) : Prop :=
  (∃ b t, m = .go b t ∧ Sound {} t ∧ t.phase = .idle ∧ Same s t) ∨ ∃ t, m = .halt t ∧ (Waits d s t ∨ Reset s t)

theorem Cycle.after {d : Dev} {s t : State} {m : Flow Bool} (h : Cycle d t m) (k : Same s t) : Cycle d s m := by
  rcases h with ⟨b, u, he, hs, hp, hm⟩ | ⟨u, he, hW | hR⟩
  · exact .inl ⟨b, u, he, hs, hp, k.trans hm⟩
  · exact .inr ⟨u, he, .inl (hW.after k)⟩
  · exact .inr ⟨u, he, .inr (hR.after k.params)⟩

theorem judgeStatus_sound (d : Dev) (s : State) (h : Sound {} s) (hp : s.phase = .polling) :
    Cycle d s (judgeStatus d s) := by
  have hi : Sound {} (enterPhase .idle s) := h.enterPhase (by rw [hp]; rfl)
  have hd : ∀ us, Sound {} (s.log (.dly d us)) := by
    intro us
    refine ⟨?_, ?_, h.mem, h.csEe, h.csNor⟩
    · show busAfter {} (s.trace ++ [.dly d us]) = some {}
      rw [busAfter_append, h.bus]; rfl
    · show phaseAfter .idle (s.trace ++ [.dly d us]) = some s.phase
      rw [phaseAfter_append, h.phase]; rfl
  unfold judgeStatus
  split
  · exact .inl ⟨_, _, rfl, hi, by simp, .enterPhase _ s⟩
  · simp only
    split
    · have hc : Sound {} { s with pollcnt := s.pollcnt + 1 } := { h with }
      exact .inl ⟨_, _, rfl, hc.enterPhase (by rw [hp]; rfl), by simp, { Same.enterPhase _ _ with }⟩
    · have hs := hd s.params.pollDelayUs
      unfold delay
      split
      · exact .inr ⟨_, rfl, .inl ⟨{ hs with }, hp, ⟨rfl, rfl, rfl, rfl, rfl⟩⟩⟩
      · refine .inr ⟨_, rfl, .inr ?_⟩
        refine reset_of (d := d) (v := s.device d) (q := s.phase) 0 [] (b := {}) (c := {}) h.mem h.bus h.phase
          (fun _ _ h0 => h0) rfl rfl ?_
        cases d <;> simp [applyReset, State.setDevice, State.device]
      · exact .inr ⟨_, rfl, .inl ⟨{ hs with }, hp, ⟨rfl, rfl, rfl, rfl, rfl⟩⟩⟩

theorem waitReady_sound (d : Dev) (s : State) (h : Sound {} s) (hp : s.phase = .commandIssued) :
    Cycle d s (waitReady d s) := by
  have hs : Sound {} (enterPhase .polling s) := h.enterPhase (by rw [hp]; rfl)
  have hm : Same s { enterPhase .polling s with pollcnt := 0 } := { Same.enterPhase .polling s with }
  rcases frameRdsr_sound d s.params.dummyOut { enterPhase .polling s with pollcnt := 0 } { hs with } with
    ⟨t, he, hsm, hq, ht⟩ | ⟨t, he, ht⟩
  · rw [waitReady, he, Flow.bind_go]
    exact (judgeStatus_sound d t ht (hq.trans (by simp))).after (hm.trans hsm)
  · exact .inr ⟨t, by rw [waitReady, he]; rfl, .inr (ht.after hm.params)⟩

/-- One write cycle from a sound, idle state (R128, R129, R130). -/
theorem writeCycle_sound (d : Dev) (body : State → Flow Unit) (hb : SoundBody d body) (s : State) (h : Sound {} s)
    (hp : s.phase = .idle) : Cycle d s (writeCycle d body s) := by
  rcases frameWren_sound d s h with ⟨t, he, hsm, hq, ht⟩ | ⟨t, he, ht⟩
  · rcases hb _ (ht.enterPhase (p := .writeEnabled) (by rw [hq, hp]; rfl)) with ⟨u, hu, hsu, hqu, hu'⟩ | ⟨u, hu, hR⟩
    · rw [writeCycle, he, Flow.bind_go, hu, Flow.bind_go]
      exact (waitReady_sound d _ (hu'.enterPhase (p := .commandIssued) (by rw [hqu]; simp; rfl)) (by simp)).after
        (hsm.trans ((Same.enterPhase _ t).trans (hsu.trans (Same.enterPhase _ u))))
    · exact .inr ⟨u, by rw [writeCycle, he, Flow.bind_go, hu]; rfl,
        .inr (hR.after ((Same.enterPhase _ t).params.trans hsm.params))⟩
  · exact .inr ⟨t, by rw [writeCycle, he]; rfl, .inr ht⟩

/-- The chunk loop from a sound, idle state (R151). -/
theorem chunkLoop_sound (d : Dev) (fuel : Nat) (s : State) (h : Sound {} s) (hp : s.phase = .idle) :
    Cycle d s (chunkLoop d fuel s) := by
  induction fuel generalizing s with
  | zero => exact .inl ⟨true, s, rfl, h, hp, .refl s⟩
  | succ fuel ih =>
    rw [chunkLoop]
    split
    · exact .inl ⟨true, s, rfl, h, hp, .refl s⟩
    · have hl : Sound {} (loadClen d s) := { h with }
      have hc := writeCycle_sound d _ (frameProgram_sound d (loadClen d s).cur (chunkData (loadClen d s))) _ hl hp
      rcases hc with ⟨b, t, he, ht, hq, hm⟩ | ⟨t, he, hW⟩
      · rw [writeChunk, he, Flow.bind_go]
        cases b with
        | true => exact (ih (advanceChunk t) { ht with } hq).after { hm with }
        | false => exact .inl ⟨false, t, rfl, ht, hq, { hm with }⟩
      · refine .inr ⟨t, by rw [writeChunk, he]; rfl, ?_⟩
        exact hW.imp (fun h => { h with same := { h.same with } }) (fun h => { h with })

/-! ### What one step keeps -/

/-- What a step leaves of a sound state: idle and free, or waiting in a poll loop (R129, R133). -/
structure Settled (s t : State) : Prop where
  sound : Sound {} t
  control : controlWf t = true
  params : t.params = s.params

theorem settled_reset {s t : State} (h : Reset s t) : Settled s t :=
  ⟨h.sound, by simp [controlWf, h.sound.csEe, h.sound.csNor, h.busy, h.phase, h.frame], h.params⟩

theorem settled_finish {s t : State} (h : Sound {} t) (hp : t.phase = .idle) (hm : Same s t) (hf : s.frame = none)
    (c : OpOutcome) : Settled s (finish c t) := by
  refine ⟨⟨h.bus, h.phase.trans (by rw [hp]; rfl), h.mem, h.csEe, h.csNor⟩, ?_, hm.params⟩
  simp [controlWf, finish, h.csEe, h.csNor, hm.frame, hf]

theorem settled_waits {d : Dev} {s t : State} (h : Waits d s t) (hb : s.busy = true) (hg : s.go = false)
    (hd : s.latch.dev = d) : Settled s t := by
  refine ⟨h.sound, ?_, h.same.params⟩
  have hfr := h.same.frame
  simp only at hfr
  simp [controlWf, h.sound.csEe, h.sound.csNor, h.phase, h.same.busy, h.same.latch, h.same.go, hb, hg, hd, hfr]

/-- An operation that ends with what a write left (R161, R206). -/
theorem settled_cycle {d : Dev} {s : State} {m : Flow Bool} (h : Cycle d s m) (hb : s.busy = true) (hg : s.go = false)
    (hd : s.latch.dev = d) (hf : s.frame = none) : Settled s (m.finally finishReady) := by
  rcases h with ⟨b, t, rfl, hs, hp, hm⟩ | ⟨t, rfl, hW | hR⟩
  · exact settled_finish hs hp hm hf _
  · exact settled_waits hW hb hg hd
  · exact settled_reset hR

end Sys2Proof.Machine
end

