-- ==== Sys2Proof/Tests/Slice0.lean ====
section
/-! SUPPORT. The model's own tests: ill-formed terms, words written out from the spec's encodings, single steps with the numbers of
spec/95_test_vectors.md, and for each statement with hypotheses a state and operands that meet them. -/

namespace Sys2Proof.Tests

open Sys2Proof.Machine

/-! ### WellFormed: one ill-formed term for each check -/

/-- A read frame that starts at the size of the EEPROM. -/
theorem test_illFormed_eeRead_start : (Instr.eeRead 512 []).wellFormed = false := by decide
/-- A read frame that runs one byte past the end of the EEPROM. -/
theorem test_illFormed_eeRead_end : (Instr.eeRead 511 [0, 0]).wellFormed = false := by decide
/-- A read frame that runs one byte past the end of the NOR flash. -/
theorem test_illFormed_norRead_end : (Instr.norRead 0xFFFFFF [0, 0]).wellFormed = false := by decide
/-- A program frame without a data byte. -/
theorem test_illFormed_eeProgram_empty : (Instr.eeProgram 0 []).wellFormed = false := by decide
/-- A program frame at an address the EEPROM does not have. -/
theorem test_illFormed_eeProgram_start : (Instr.eeProgram 512 [0]).wellFormed = false := by decide
/-- A program frame across a page of the EEPROM. -/
theorem test_illFormed_eeProgram_page : (Instr.eeProgram 15 [0, 0]).wellFormed = false := by decide
theorem test_illFormed_norProgram_empty : (Instr.norProgram 0 []).wellFormed = false := by decide
theorem test_illFormed_norProgram_page : (Instr.norProgram 0x1FF [0, 0]).wellFormed = false := by decide
/-- A sector erase that does not name a sector base. -/
theorem test_illFormed_norSe_base : (Instr.norSe 0x012001).wellFormed = false := by decide
/-- The largest frames that are well formed. -/
theorem test_wellFormed_edges :
    (Instr.eeRead 511 [0]).wellFormed = true ∧ (Instr.eeProgram 511 [0]).wellFormed = true ∧
      (Instr.norRead 0xFFFFFF [0]).wellFormed = true ∧ (Instr.norSe 0xFFF000).wellFormed = true := by decide

/-! ### Decoding: words of R109 and V-REQ, frames of R94 to R98 and V-HDR -/

theorem test_decode_eeReadByte : decode (.request 0x00000001 0x1A3 0) = .ok (.eeReadByte { addr := 0x1A3 }) := by decide
theorem test_decode_eeWriteByte :
    decode (.request 0x0000A702 5 0) = .ok (.eeWriteByte { addr := 5, val := 0xA7 }) := by decide
/-- V-REQ: `BITN` = 0xFF takes no part in selecting the operation. -/
theorem test_decode_eeWriteByte_bitn :
    decode (.request 0x00FFA702 5 0) = .ok (.eeWriteByte { addr := 5, val := 0xA7, bitn := 0xFF }) := by decide
theorem test_decode_eeReadArray :
    decode (.request 0x00000023 8 40) = .ok (.eeReadArray { addr := 8, len := 40, bufv := true }) := by decide
theorem test_decode_eeReadArray_null :
    decode (.request 0x00000003 8 40) = .ok (.eeReadArray { addr := 8, len := 40 }) := by decide
theorem test_decode_eeWriteArray :
    decode (.request 0x00000024 8 40) = .ok (.eeWriteArray { addr := 8, len := 40, bufv := true }) := by decide
theorem test_decode_eeSetBit : decode (.request 0x00030005 16 0) = .ok (.eeSetBit { addr := 16, bitn := 3 }) := by decide
theorem test_decode_eeClearBit : decode (.request 0x00080006 16 0) = .ok (.eeClearBit { addr := 16, bitn := 8 }) := by
  decide
theorem test_decode_norReadByte :
    decode (.request 0x00000011 0x012345 0) = .ok (.norReadByte { addr := 0x012345 }) := by decide
theorem test_decode_norWriteByte :
    decode (.request 0x00005512 0x012345 0) = .ok (.norWriteByte { addr := 0x012345, val := 0x55 }) := by decide
theorem test_decode_norReadArray :
    decode (.request 0x00000033 0xFE 4) = .ok (.norReadArray { addr := 0xFE, len := 4, bufv := true }) := by decide
theorem test_decode_norWriteArray :
    decode (.request 0x00000034 0xF0 32) = .ok (.norWriteArray { addr := 0xF0, len := 32, bufv := true }) := by decide
theorem test_decode_norSetBit : decode (.request 0x00020015 16 0) = .ok (.norSetBit { addr := 16, bitn := 2 }) := by decide
theorem test_decode_norClearBit :
    decode (.request 0x00070016 0x100 0) = .ok (.norClearBit { addr := 0x100, bitn := 7 }) := by decide
theorem test_decode_norEraseSector :
    decode (.request 0x00000017 0x012345 0) = .ok (.norEraseSector { addr := 0x012345 }) := by decide
/-- The illegal rows of V-REQ. -/
theorem test_decode_illegal :
    decode (.request 0x00000007 0 0) = .error .illegalRequest ∧ decode (.request 0x00000000 0 0) = .error .illegalRequest ∧
      decode (.request 0x00000008 0 0) = .error .illegalRequest ∧ decode (.request 0x0000001F 0 0) = .error .illegalRequest ∧
      decode (.request 0x00000041 0 0) = .error .illegalRequest ∧ decode (.request 0x00000081 0 0) = .error .illegalRequest ∧
      decode (.request 0x01000001 0 0) = .error .illegalRequest := by decide

theorem test_decode_eeWren : decode (.frame .ee [0x06]) = .ok .eeWren := by decide
theorem test_decode_norWren : decode (.frame .nor [0x06]) = .ok .norWren := by decide
theorem test_decode_eeRdsr : decode (.frame .ee [0x05, 0x3C]) = .ok (.eeRdsr 0x3C) := by decide
theorem test_decode_norRdsr : decode (.frame .nor [0x05, 0x3C]) = .ok (.norRdsr 0x3C) := by decide
theorem test_decode_eeRead : decode (.frame .ee [0x03, 0x01, 0xFF, 0x3C]) = .ok (.eeRead 0x1FF [0x3C]) := by decide
theorem test_decode_norRead :
    decode (.frame .nor [0x03, 0x80, 0x00, 0x00, 0x3C, 0x3C]) = .ok (.norRead 0x800000 [0x3C, 0x3C]) := by decide
theorem test_decode_eeProgram :
    decode (.frame .ee [0x02, 0x00, 0x05, 0xA7]) = .ok (.eeProgram 0x0005 [0xA7]) := by decide
theorem test_decode_norProgram :
    decode (.frame .nor [0x02, 0x01, 0x23, 0x45, 0x55]) = .ok (.norProgram 0x012345 [0x55]) := by decide
theorem test_decode_norSe : decode (.frame .nor [0x20, 0x01, 0x20, 0x00]) = .ok (.norSe 0x012000) := by decide
/-- No frame of the table: an erase of the EEPROM, an unknown opcode, a frame cut short, one too long. -/
theorem test_decode_noFrame :
    decode (.frame .ee [0x20, 0x01, 0x20]) = .error (.unknownOpcode 0x20) ∧
      decode (.frame .nor [0xC7]) = .error (.unknownOpcode 0xC7) ∧
      decode (.frame .nor [0x02, 0x01, 0x23, 0x45]) = .error .cutShort ∧
      decode (.frame .ee [0x06, 0x06]) = .error .tooLong ∧ decode (.frame .ee []) = .error .emptyFrame := by decide

/-- A table word of each size: a request, a NOR header, an EEPROM header, read-status, write-enable. -/
theorem test_tableWords :
    decodeTableWord 32 0x00030005 = some (.eeSetBit { bitn := 3 }) ∧
      decodeTableWord 32 0x20012000 = some (.norSe 0x012000) ∧ decodeTableWord 24 0x0301A3 = some (.eeRead 0x01A3 []) ∧
      decodeTableWord 16 0x05FF = some (.eeRdsr 0xFF) ∧ decodeTableWord 8 0x06 = some .eeWren := by decide

/-! ### Address arithmetic: V-CH, V-SB, V-VAL, V-FEAS, V-BIT -/

theorem test_chunks_ee :
    chunks .ee 8 40 = [(8, 8), (16, 16), (32, 16)] ∧ chunks .ee 10 40 = [(10, 6), (16, 16), (32, 16), (48, 2)] ∧
      chunks .ee 15 2 = [(15, 1), (16, 1)] ∧ chunks .ee 496 16 = [(496, 16)] ∧ chunks .ee 500 0 = [] := by decide
theorem test_chunks_nor :
    chunks .nor 0xFFE 4 = [(0xFFE, 2), (0x1000, 2)] ∧ chunks .nor 0x1FF 2 = [(0x1FF, 1), (0x200, 1)] := by decide
theorem test_sectorBase :
    sectorBase 0xFFF = 0 ∧ sectorBase 0x1000 = 0x1000 ∧ sectorBase 0x012345 = 0x012000 ∧
      sectorBase 0xFFFFFF = 0xFFF000 := by decide
theorem test_ranges :
    validRange .ee 500 12 = true ∧ validRange .ee 500 13 = false ∧ validRange .ee 511 0 = true ∧
      validRange .ee 512 0 = false ∧ validRange .ee 0xFFFFFFFF 2 = false ∧ validRange .ee 1 0xFFFFFFFF = false ∧
      validRange .nor 0 0x1000000 = true ∧ validRange .nor 1 0x1000000 = false := by decide
theorem test_clearOnly :
    clearOnly 0xFF 0x55 = true ∧ clearOnly 0x55 0xFF = false ∧ clearOnly 0x55 0xAA = false ∧ clearOnly 0x00 0x00 = true ∧
      clearOnly 0xF0 0x90 = true := by decide
theorem test_bitMasks :
    withBit 0x00 7 = 0x80 ∧ withBit 0x41 3 = 0x49 ∧ withoutBit 0x49 3 = 0x41 ∧ withoutBit 0xFF 7 = 0x7F ∧
      withoutBit 0xFF 0 = 0xFE := by decide

/-! ### Single steps with the numbers of the test vectors -/

/-- Both devices ready, an empty trace, and the answers to come in `tape`: an even place holds the draw `B + 1` of a wait, the
next one half of a status byte (log entry 4). -/
def calm (tape : List Nat) : State :=
  { State.reset with params := { pollDelayUs := 50, dummyOut := 0, pollLimit := none }, trace := [], tape := tape }

def eeHolds (a : Nat) (bs : List Byte) (s : State) : State := { s with ee := { s.ee with mem := Memory.writeMany s.ee.mem a bs } }

def norHolds (a : Nat) (bs : List Byte) (s : State) : State :=
  { s with nor := { s.nor with mem := Memory.writeMany s.nor.mem a bs } }

def bufHolds (bs : List Byte) (s : State) : State := { s with buf := Memory.writeMany [] 0 bs }

/-- The state after a step that has one. -/
def after : Host.Outcome State Fault Refusal → State
  | .next t => t
  | .fault _ => State.reset
  | .refused _ => State.reset

/-- The transport operations of a trace, without the model's marks. -/
def wire (s : State) : List Event :=
  s.trace.filter fun e =>
    match e with
    | .ph _ => false
    | .rst => false
    | .sel _ _ => true
    | .x _ _ _ => true
    | .dly _ _ => true

/-- R160: `EEPROM.readByte(0x01A3)` over 0x5A. -/
theorem test_eeReadByte :
    let t := after (exec (.eeReadByte { addr := 0x1A3 }) (eeHolds 0x1A3 [0x5A] (calm [])))
    t.rdata = 0x5A ∧ t.outcome = .ok ∧ wire t = readEvents .ee 0x1A3 [0] [0x5A] := by decide
/-- E6: one past the end. -/
theorem test_eeReadByte_512 :
    let t := after (exec (.eeReadByte { addr := 512 }) (calm []))
    t.rdata = 0xFF ∧ t.outcome = .outOfRange ∧ t.trace = [] := by decide

/-- E1, step 1: the device busy for one poll, up to the delay. -/
theorem test_eeWriteByte_busy :
    let t := after (exec (.eeWriteByte { addr := 5, val := 0xA7 }) (calm [2, 0]))
    wire t = [.sel .ee true, .x .ee 0x06 none, .sel .ee false,
      .sel .ee true, .x .ee 0x02 none, .x .ee 0x00 none, .x .ee 0x05 none, .x .ee 0xA7 none, .sel .ee false,
      .sel .ee true, .x .ee 0x05 none, .x .ee 0x00 (some 0x01), .sel .ee false, .dly .ee 50] ∧
    t.busy = true ∧ t.phase = .polling ∧ t.pollcnt = 1 := by decide
/-- E1, step 1, the poll that finds it ready; the reserved bits of the status byte are ignored (V-POLL). -/
theorem test_eeWriteByte_ready :
    let s := after (exec (.eeWriteByte { addr := 5, val := 0xA7 }) (calm [2, 0, 127]))
    let t := after (step { s with trace := [] })
    wire t = [.sel .ee true, .x .ee 0x05 none, .x .ee 0x00 (some 0xFE), .sel .ee false] ∧
    t.busy = false ∧ t.phase = .idle ∧ t.outcome = .ok ∧ Memory.read t.ee.mem 5 = 0xA7 := by decide
/-- R162: `EEPROM.readArray(0x000E, 4)`. -/
theorem test_eeReadArray :
    let t := after (exec (.eeReadArray { addr := 14, len := 4, bufv := true }) (eeHolds 14 [0x11, 0x22, 0x33, 0x44] (calm [])))
    Memory.readMany t.buf 0 5 = [0x11, 0x22, 0x33, 0x44, 0xFF] ∧
      wire t = readEvents .ee 14 [0, 0, 0, 0] [0x11, 0x22, 0x33, 0x44] ∧ t.outcome = .ok := by decide
/-- R162: a length of 0 is a frame of the header only. -/
theorem test_eeReadArray_empty :
    let t := after (exec (.eeReadArray { addr := 511, bufv := true }) (calm []))
    wire t = [.sel .ee true, .x .ee 0x03 none, .x .ee 0x01 none, .x .ee 0xFF none, .sel .ee false] ∧ t.buf = [] ∧
      t.outcome = .ok := by decide
/-- V-CH row 3: (15, 1) and (16, 1). -/
theorem test_eeWriteArray :
    let t := after (exec (.eeWriteArray { addr := 15, len := 2, bufv := true }) (bufHolds [0xAA, 0xBB] (calm [1, 0, 1, 0])))
    wire t = wrenEvents .ee ++ programEvents .ee 15 [0xAA] ++ rdsrEvents .ee 0 0 ++
      wrenEvents .ee ++ programEvents .ee 16 [0xBB] ++ rdsrEvents .ee 0 0 ∧
    Memory.readMany t.ee.mem 14 4 = [0xFF, 0xAA, 0xBB, 0xFF] ∧ t.outcome = .ok := by decide
/-- V-CH row 12 and R203: nothing is written. -/
theorem test_eeWriteArray_skipped :
    (after (exec (.eeWriteArray { addr := 500, len := 13 }) (calm []))).outcome = .outOfRange ∧
      (after (exec (.eeWriteArray { addr := 500, len := 12 }) (calm []))).outcome = .nullBuffer := by decide
/-- E2, step 1. -/
theorem test_eeSetBit :
    let t := after (exec (.eeSetBit { addr := 0x10, bitn := 3 }) (eeHolds 0x10 [0x41] (calm [1, 0])))
    Memory.read t.ee.mem 0x10 = 0x49 ∧
      wire t = readEvents .ee 0x10 [0] [0x41] ++ wrenEvents .ee ++ programEvents .ee 0x10 [0x49] ++ rdsrEvents .ee 0 0 := by
  decide
/-- E2, step 3. -/
theorem test_eeClearBit :
    Memory.read (after (exec (.eeClearBit { addr := 0x10, bitn := 3 }) (eeHolds 0x10 [0x49] (calm [1, 0])))).ee.mem 0x10 =
      0x41 := by decide
/-- R204: bit 8, before any event. -/
theorem test_eeClearBit_8 :
    let t := after (exec (.eeClearBit { addr := 0x10, bitn := 8 }) (calm []))
    t.outcome = .invalidBitIndex ∧ t.trace = [] := by decide

/-- R180: `NOR.readByte(0x012345)` over 0x55. -/
theorem test_norReadByte :
    let t := after (exec (.norReadByte { addr := 0x012345 }) (norHolds 0x012345 [0x55] (calm [])))
    t.rdata = 0x55 ∧ wire t = readEvents .nor 0x012345 [0] [0x55] := by decide
/-- E4, step 1. -/
theorem test_norWriteByte :
    let t := after (exec (.norWriteByte { addr := 0x012345, val := 0x55 }) (calm [1, 0]))
    Memory.read t.nor.mem 0x012345 = 0x55 ∧ t.outcome = .ok ∧
      wire t = readEvents .nor 0x012345 [0] [0xFF] ++ wrenEvents .nor ++ programEvents .nor 0x012345 [0x55] ++
        rdsrEvents .nor 0 0 := by decide
/-- E4, step 3: a 0 would have to become a 1. -/
theorem test_norWriteByte_infeasible :
    let t := after (exec (.norWriteByte { addr := 0x012345, val := 0xFF }) (norHolds 0x012345 [0x55] (calm [])))
    Memory.read t.nor.mem 0x012345 = 0x55 ∧ t.outcome = .requiresErase ∧ wire t = readEvents .nor 0x012345 [0] [0x55] := by
  decide
/-- R181: across a page boundary in one frame. -/
theorem test_norReadArray :
    let t := after (exec (.norReadArray { addr := 0xFE, len := 4, bufv := true })
      (norHolds 0xFE [0xAA, 0xBB, 0xCC, 0xDD] (calm [])))
    Memory.readMany t.buf 0 4 = [0xAA, 0xBB, 0xCC, 0xDD] ∧
      wire t = readEvents .nor 0xFE [0, 0, 0, 0] [0xAA, 0xBB, 0xCC, 0xDD] := by decide
/-- V-AND: no read, no test, the AND of old and new. -/
theorem test_norWriteArray :
    let t := after (exec (.norWriteArray { addr := 0x10, len := 5, bufv := true })
      (bufHolds [0x3C, 0x3C, 0x3C, 0x3C, 0x5A] (norHolds 0x10 [0xF0, 0x0F, 0xFF, 0x00, 0xA5] (calm [1, 0]))))
    Memory.readMany t.nor.mem 0x10 5 = [0x30, 0x0C, 0x3C, 0x00, 0x00] ∧ t.outcome = .ok ∧
      wire t = wrenEvents .nor ++ programEvents .nor 0x10 [0x3C, 0x3C, 0x3C, 0x3C, 0x5A] ++ rdsrEvents .nor 0 0 := by decide
/-- R184: nothing at all, out of range or not. -/
theorem test_norSetBit :
    let t := after (exec (.norSetBit { addr := 0xFFFFFFFF, bitn := 2 }) (calm []))
    t.outcome = .unsupported ∧ t.trace = [] := by decide
/-- R185: two reads, then the cycle. -/
theorem test_norClearBit :
    let t := after (exec (.norClearBit { addr := 0x100, bitn := 7 }) (calm [1, 0]))
    Memory.read t.nor.mem 0x100 = 0x7F ∧
      wire t = readEvents .nor 0x100 [0] [0xFF] ++ readEvents .nor 0x100 [0] [0xFF] ++ wrenEvents .nor ++
        programEvents .nor 0x100 [0x7F] ++ rdsrEvents .nor 0 0 := by decide
/-- E5: the sector and its neighbours. -/
theorem test_norEraseSector :
    let t := after (exec (.norEraseSector { addr := 0x012345 })
      (norHolds 0x011FFF [0x12, 0x00] (norHolds 0x012FFF [0x00, 0x34] (calm [1, 0]))))
    Memory.readMany t.nor.mem 0x011FFF 2 = [0x12, 0xFF] ∧ Memory.readMany t.nor.mem 0x012FFF 2 = [0xFF, 0x34] ∧
      wire t = wrenEvents .nor ++ [.sel .nor true, .x .nor 0x20 none, .x .nor 0x01 none, .x .nor 0x20 none,
        .x .nor 0x00 none, .sel .nor false] ++ rdsrEvents .nor 0 0 := by decide

/-- R61 and R62: a write-enable frame, then a program frame. -/
theorem test_eeWren_eeProgram :
    let s := after (exec .eeWren (calm [1]))
    let t := after (exec (.eeProgram 5 [0xA7]) s)
    s.ee.wel = true ∧ Memory.read t.ee.mem 5 = 0xA7 ∧ t.ee.wel = false ∧ t.ee.dbusy = true := by decide
/-- R63 and R68 (a): a program frame without its write-enable. -/
theorem test_norWren_norProgram :
    let s := norHolds 0x12 [0x0F] (calm [1])
    Memory.read (after (exec (.norProgram 0x12 [0x3C]) (after (exec .norWren s)))).nor.mem 0x12 = 0x0C ∧
      (after (exec (.norProgram 0x12 [0x3C]) s)).nor.lost = some .noWriteEnable := by decide
/-- R65 and R66: one status read that answers busy, and one that does not. -/
theorem test_rdsr :
    let s : State := { calm [3, 5] with ee := { dbusy := true, busyReads := some 1 } }
    let t := after (exec (.eeRdsr 0) s)
    t.st = 0x07 ∧ (after (exec (.eeRdsr 0) t)).st = 0x0A ∧ (after (exec (.norRdsr 0) s)).st = 0x06 := by decide
/-- R60: the address counter runs on. -/
theorem test_reads :
    wire (after (exec (.eeRead 0x0E [1, 2]) (eeHolds 14 [0x11, 0x22] (calm [])))) = readEvents .ee 14 [1, 2] [0x11, 0x22] ∧
      exec (.norRead 0xFFFFFF [1, 2]) (calm []) = .refused (.readPastEnd .nor 0xFFFFFF 2) := ⟨by decide, rfl⟩
/-- R64: the erase frame by itself. -/
theorem test_norSe :
    let s : State := { norHolds 0x012FFF [0x00, 0x34] (calm [1]) with nor.wel := true }
    Memory.readMany (after (exec (.norSe 0x012000) s)).nor.mem 0x012FFF 2 = [0xFF, 0x34] := by decide

/-- R30: the `STATUS` word of a `readByte` out of range, and while a loop polls. -/
theorem test_statusWord :
    statusWord { calm [] with rdata := 0xA5, outcome := .outOfRange } = 0x0000A510 ∧
      statusWord { calm [] with busy := true, phase := .polling, outcome := .unsupported } = 0x00000077 := by decide
/-- R29: the host writes the request and `GO`, the request is accepted, the host reads `STATUS`. -/
theorem test_hostRun :
    let s : State := { calm [] with inbox := [.writeReg .reqCtrl 0x41, .writeReg .go 1, .awaitIdle, .readReg .status] }
    (after (steps 5 s)).hostData = 0x00000060 ∧ (after (steps 5 s)).trace = [] := by decide
/-- V-FSM, with `B` = 1: what the host reads from `STATUS` (`PHASE` in bits 2:1, `BUSY` in bit 0) at each new value. -/
theorem test_fsm :
    let at_ (k : Nat) := after (steps 2 { calm [2, 0, 0] with reqCtrl := 0x0000A702, reqAddr := 5, go := true,
                                                              inbox := [.during k (.read .status)] })
    (at_ 0).hostData = 0x01 ∧ (at_ 1).hostData = 0x03 ∧ (at_ 2).hostData = 0x05 ∧ (at_ 3).hostData = 0x07 ∧
      (at_ 4).hostData = 0x01 ∧ (at_ 4).busy = false := by decide
/-- R73: two moves that write request registers while one value of `STATUS` stands, and a read at the next one; the operation has
its own copy. -/
theorem test_moveDuring :
    let t := after (exec (.eeReadByte { addr := 14 })
      { eeHolds 14 [0x5A] (calm []) with
        inbox := [.during 0 (.write .reqAddr 99), .during 0 (.write .reqLen 7), .during 1 (.read .status)] })
    t.rdata = 0x5A ∧ t.latch.addr = 14 ∧ t.reqAddr = 99 ∧ t.reqLen = 7 ∧ t.hostData = 0x5A01 ∧ t.inbox = [] := by decide
/-- R230: the reset of an idle block. -/
theorem test_reset :
    wire (after (step { calm [] with inbox := [.reset 0] })) = [.sel .ee false, .sel .nor false] := by decide
/-- R231 and D25: a reset after the third data byte of a `readArray`, and after the last with the release missing. -/
theorem test_resetInsideReadArray :
    let s (k : Nat) : State := { eeHolds 14 [0x11, 0x22, 0x33, 0x44] (calm []) with fuse := some k }
    let t (k : Nat) := after (exec (.eeReadArray { addr := 14, len := 4, bufv := true }) (s k))
    Memory.readMany (t 7).buf 0 4 = [0x11, 0x22, 0x33, 0xFF] ∧ Memory.readMany (t 8).buf 0 4 = [0x11, 0x22, 0x33, 0x44] ∧
      (t 8).outcome = .ok ∧ (t 8).busy = false ∧ (t 8).ee.lost = some .cutShort := by decide
/-- R231: a reset before the release of a program frame: the page holds any bytes, its neighbours are untouched. -/
theorem test_resetBeforeRelease :
    let t := after (exec (.eeWriteByte { addr := 17, val := 0xA7 })
      { eeHolds 15 [0x11] (eeHolds 32 [0x22] (calm (List.range 20))) with fuse := some 8 })
    Memory.readMany t.ee.mem 15 4 = [0x11, 0, 1, 2] ∧ Memory.readMany t.ee.mem 31 2 = [15, 0x22] ∧
      t.ee.dbusy = true := by decide
/-- The table word is the instruction that runs as the first after reset. -/
theorem test_withFetchWord : (after (step (State.reset.withFetchWord 32 0x00020015))).outcome = .unsupported := by decide

/-! ### For each statement with hypotheses, a state and operands that meet them

The states are `calm` ones, or such a state in the middle of a wait. Where a statement has several clauses there is a case for
each, at a boundary value of its range. -/

/-- A poll loop on device `d` that is about to read the status again. -/
def polling (d : Dev) (left : Option Nat) (op : BitVec 4) (limit : Option Nat) : State :=
  let s : State := calm [5, 1, 6]
  { s.setDevice d { dbusy := true, busyReads := left } with
    busy := true, phase := .polling, pollcnt := 1, latch := { op := op, dev := d }, frame := some (d, [0x05, 0])
    params := { s.params with pollLimit := limit } }

theorem quiet_calm (d : Dev) (tape : List Nat) : Quiet d (calm tape) := by cases d <;> exact ⟨rfl, rfl, rfl⟩

theorem waiting_polling (d : Dev) (left : Option Nat) (op : BitVec 4) (limit : Option Nat) :
    Waiting d (polling d left op limit) := by
  cases d <;> exact ⟨rfl, rfl, rfl, rfl, rfl, rfl, rfl⟩

theorem test_meets_DecodeEncodeAgree : (Instr.eeProgram 0x1F0 (List.replicate 16 0xA5)).wellFormed = true := by decide
theorem test_meets_RequestWordsEncodeBack :
    decode (.request 0x00FFFF37 0xFFFFFFFF 0xFFFFFFFF) =
      .ok (.norEraseSector { addr := 0xFFFFFFFF, len := 0xFFFFFFFF, val := 0xFF, bitn := 0xFF, bufv := true }) := by decide
theorem test_meets_FrameBytesEncodeBack : decode (.frame .nor [0x20, 0xFF, 0xF0, 0x00]) = .ok (.norSe 0xFFF000) := by decide
theorem test_meets_MaskedWordSelectsTheRow :
    ((0x13, Instr.norReadArray) ∈ requestTable ∧ (0x00FFFF33 : Word) &&& requestMask = 0x13) ∧
      ¬ isIllegal 0x00FFFF33 ∧ isIllegal 0x00000041 ∧ isIllegal 0x00000007 := by
  refine ⟨⟨?_, rfl⟩, ?_, ?_, ?_⟩
  · simp [requestTable]
  all_goals (unfold isIllegal; decide)
theorem test_meets_IllegalRequestEndsAtOnce :
    let s : State := { calm [] with go := true, reqCtrl := 0x00000007 }
    s.go = true ∧ s.busy = false ∧ s.fuse ≠ some 0 ∧ Unobserved s ∧ isIllegal s.reqCtrl :=
  ⟨rfl, rfl, by decide, rfl, .inr (.inr (.inr (.inr ⟨rfl, rfl⟩)))⟩
theorem test_meets_StepRunsTheRequest :
    let s : State := { calm [] with go := true, reqCtrl := 0x00000001 }
    s.fuse ≠ some 0 ∧ s.go = true ∧ decode (.request s.reqCtrl s.reqAddr s.reqLen) = .ok (.eeReadByte {}) := by decide
theorem test_meets_StepRunsTheFrame :
    let s : State := { calm [] with frame := some (.nor, [0x06]) }
    s.fuse ≠ some 0 ∧ s.go = false ∧ nextMove s = none ∧ s.frame = some (.nor, [0x06]) ∧
      decode (.frame .nor [0x06]) = .ok .norWren := by decide
theorem test_meets_HostReadsTheRegisters :
    let s : State := { calm [] with inbox := [.readReg .status] }
    s.fuse ≠ some 0 ∧ s.go = false ∧ s.inbox = .readReg .status :: [] := by decide
/-- Every place of a move inside a write cycle, the first of them in any operation, the second in a `readByte`; a loop that has
waited and is over, one that goes on. -/
theorem test_meets_HostReadsStatusDuringAnOperation :
    (∀ k, k < 5 →
      let s : State := { calm [1] with inbox := [.during k (.read .status)] }
      s.busy = false ∧ s.phase = .idle ∧ s.inbox = .during k (.read .status) :: [] ∧ unobserved [] = true ∧
        (511 : Word).toNat < 512 ∧ Quiet .ee s ∧ ReadyAtOnce s ∧
        [Phase.idle, .writeEnabled, .commandIssued, .polling, .idle][k]?.isSome = true) ∧
    (0x17, Instr.norEraseSector) ∈ requestTable ∧
    ∀ left ∈ [some 0, some 1],
      let s : State := { polling .nor left 7 none with inbox := [.during 0 (.read .status)] }
      Waiting .nor { s with inbox := [] } ∧ (s.device .nor).lost = none ∧ s.inbox = .during 0 (.read .status) :: [] ∧
        s.latch.op ≠ 4 ∧ (s.device .nor).sample.1 = decide (left ≠ some 0) := by
  refine ⟨fun k hk => ⟨rfl, rfl, rfl, rfl, by decide, ⟨rfl, rfl, rfl⟩, rfl, by simp; omega⟩, by simp [requestTable], ?_⟩
  intro left h
  simp only [List.mem_cons, List.not_mem_nil, or_false] at h
  rcases h with rfl | rfl <;> exact ⟨waiting_polling _ _ _ _, rfl, rfl, by decide, rfl⟩
theorem test_meets_HostMovesDuringAnOperation :
    let s : State := { polling .ee (some 0) 2 none with inbox := [.during 0 (.write .reqCtrl 0x01)] }
    let u : State := { calm [] with inbox := [.during 0 (.write .reqCtrl 0x01)] }
    (nextMove s = none ∧ step { s with inbox := [] } = .next (after (step { s with inbox := [] }))) ∧
      (let v : State := { u with go := true, reqCtrl := 0x00000007 }
       v.go = true ∧ step { v with inbox := [] } = .next (after (step { v with inbox := [] }))) ∧
      (0x01, Instr.eeReadByte) ∈ requestTable ∧
      exec (.eeReadByte {}) { u with inbox := [] } = .next (after (exec (.eeReadByte {}) { u with inbox := [] })) :=
  ⟨⟨rfl, rfl⟩, ⟨rfl, rfl⟩, by simp [requestTable], rfl⟩
/-- The host waits, `BUSY` being 0 and 1; a move inside an operation when there is none; a device that gets ready. -/
theorem test_meets_MovesThatWaitAndTheDevicesOwn :
    let s (m : HostMove) : State := { calm [] with inbox := [m] }
    let u : State := { polling .ee none 2 none with inbox := [.awaitIdle] }
    (∀ m ∈ [HostMove.awaitIdle, .during 3 (.read .go), .deviceReady .nor],
      (s m).fuse ≠ some 0 ∧ (s m).go = false ∧ (s m).inbox = m :: [] ∧ (s m).busy = false) ∧
    u.fuse ≠ some 0 ∧ u.go = false ∧ u.inbox = .awaitIdle :: [] ∧ u.busy = true ∧
      step { u with inbox := [] } = .next (after (step { u with inbox := [] })) :=
  ⟨by decide, by decide, rfl, rfl, rfl, rfl⟩
theorem test_meets_GoIsIgnoredWhileBusy :
    let s : State := { calm [] with inbox := [.writeReg .go 1], busy := true }
    s.fuse ≠ some 0 ∧ s.go = false ∧ s.inbox = .writeReg .go 1 :: [] := by decide
/-- One state for each of the three registers. -/
theorem test_meets_RequestRegisterWrites :
    ∀ r ∈ [HostReg.reqCtrl, .reqAddr, .reqLen],
      let s : State := { calm [] with inbox := [.writeReg r 0xFFFFFFFF] }
      s.fuse ≠ some 0 ∧ s.go = false ∧ s.inbox = .writeReg r 0xFFFFFFFF :: [] := by decide
/-- Each move, with `BUSY` = 0 and with `BUSY` = 1. -/
theorem test_meets_BufferBelongsToOneAtATime :
    ∀ b ∈ [true, false], ∀ m ∈ [HostMove.writeBuf 0 0xFF, .readBuf 0],
      let s : State := { calm [] with inbox := [m], busy := b }
      s.fuse ≠ some 0 ∧ s.go = false ∧ s.inbox = m :: [] ∧ s.busy = b := by decide
theorem test_meets_RequestsAreIgnoredWhileBusy : (polling .ee none 2 none).busy = true := rfl
theorem test_meets_ResetFromAnyState :
    let s : State := { polling .ee none 2 none with inbox := [.reset 0] }
    s.fuse ≠ some 0 ∧ s.go = false ∧ s.inbox = .reset 0 :: [] := by decide
/-- The moment before the frame, the first and the last inside it, and the moment after it, on the last byte of a device. -/
theorem test_meets_ResetInsideAWrite :
    ∀ k ∈ [3, 4, 8, 9, 11, 16],
      let s : State := { calm [] with fuse := some k }
      s.busy = false ∧ s.fuse = some k ∧ (511 : Word).toNat < 512 ∧ s.ee.lost = none ∧ s.ee.dbusy = false ∧
        (0xFFFFFF : Word).toNat < 0x1000000 ∧ s.nor.lost = none ∧ s.nor.dbusy = false ∧
        Memory.read s.nor.mem (0xFFFFFF : Word).toNat &&& 0x55 = 0x55 := by decide
/-- The last byte of each device: the reset strikes before the frame, and when only the release is missing. -/
theorem test_meets_ResetInsideAReadArray :
    (∀ k ∈ [0, 5],
      let s : State := { calm [] with fuse := some k }
      s.busy = false ∧ s.fuse = some k ∧ (511 : Word).toNat < 512 ∧ (511 : Word).toNat + (1 : Word).toNat ≤ 512 ∧
        s.ee.lost = none ∧ s.ee.dbusy = false ∧ k < (1 : Word).toNat + 5) ∧
    ∀ k ∈ [0, 6],
      let s : State := { calm [] with fuse := some k }
      s.fuse = some k ∧ (0xFFFFFF : Word).toNat < 0x1000000 ∧ (0xFFFFFF : Word).toNat + (1 : Word).toNat ≤ 0x1000000 ∧
        s.nor.lost = none ∧ s.nor.dbusy = false ∧ k < (1 : Word).toNat + 6 := by decide

/-- The last byte of the EEPROM and the first address past it. -/
theorem test_meets_EepromReadByte :
    (calm []).busy = false ∧ Unobserved (calm []) ∧ ((511 : Word).toNat < 512 ∧ Quiet .ee (calm [])) ∧
      512 ≤ (512 : Word).toNat :=
  ⟨rfl, rfl, ⟨by decide, quiet_calm _ _⟩, by decide⟩
theorem test_meets_EepromReadArray :
    (calm []).busy = false ∧ Unobserved (calm []) ∧ ((511 : Word).toNat < 512 ∧
      (511 : Word).toNat + (1 : Word).toNat ≤ 512 ∧ Quiet .ee (calm [])) ∧
      512 ≤ (512 : Word).toNat ∧ 512 < (511 : Word).toNat + (2 : Word).toNat :=
  ⟨rfl, rfl, ⟨by decide, by decide, quiet_calm _ _⟩, by decide, by decide⟩
theorem test_meets_EepromWriteByte :
    (calm [1]).busy = false ∧ Unobserved (calm [1]) ∧ ((511 : Word).toNat < 512 ∧ Quiet .ee (calm [1]) ∧
      ReadyAtOnce (calm [1])) ∧
      512 ≤ (512 : Word).toNat :=
  ⟨rfl, rfl, ⟨by decide, quiet_calm _ _, rfl⟩, by decide⟩
/-- The last byte of a page and the first of the next: two chunks. -/
theorem test_meets_EepromWriteArray :
    (calm [1, 0, 1]).busy = false ∧ Unobserved (calm [1, 0, 1]) ∧ (495 : Word).toNat < 512 ∧
      (495 : Word).toNat + (2 : Word).toNat ≤ 512 ∧
      Quiet .ee (calm [1, 0, 1]) ∧ ReadyEachTime (chunks .ee (495 : Word).toNat (2 : Word).toNat).length (calm [1, 0, 1]) :=
  ⟨rfl, rfl, by decide, by decide, quiet_calm _ _, by unfold ReadyEachTime; decide⟩
/-- Bit 7, bit 8, and the first address past the device. -/
theorem test_meets_EepromBitOperations :
    (calm [1]).busy = false ∧ Unobserved (calm [1]) ∧
      ((511 : Word).toNat < 512 ∧ (7 : Byte).toNat ≤ 7 ∧ Quiet .ee (calm [1]) ∧ ReadyAtOnce (calm [1])) ∧
      7 < (8 : Byte).toNat ∧ 512 ≤ (512 : Word).toNat :=
  ⟨rfl, rfl, ⟨by decide, by decide, quiet_calm _ _, rfl⟩, by decide, by decide⟩
theorem test_meets_NorReadByte :
    (calm []).busy = false ∧ Unobserved (calm []) ∧ ((0xFFFFFF : Word).toNat < 0x1000000 ∧ Quiet .nor (calm [])) ∧
      0x1000000 ≤ (0x1000000 : Word).toNat :=
  ⟨rfl, rfl, ⟨by decide, quiet_calm _ _⟩, by decide⟩
theorem test_meets_NorReadArray :
    (calm []).busy = false ∧ Unobserved (calm []) ∧
      ((0xFFFFFF : Word).toNat < 0x1000000 ∧ (0xFFFFFF : Word).toNat + (1 : Word).toNat ≤ 0x1000000 ∧ Quiet .nor (calm [])) ∧
      0x1000000 ≤ (0x1000000 : Word).toNat ∧ 0x1000000 < (0xFFFFFF : Word).toNat + (2 : Word).toNat :=
  ⟨rfl, rfl, ⟨by decide, by decide, quiet_calm _ _⟩, by decide, by decide⟩
/-- A value that only clears bits over 0xFF; over 0x55, one that needs to set some. -/
theorem test_meets_NorWriteByte :
    (calm [1]).busy = false ∧ Unobserved (calm [1]) ∧ (0xFFFFFF : Word).toNat < 0x1000000 ∧ Quiet .nor (calm [1]) ∧
      ReadyAtOnce (calm [1]) ∧
      Memory.read (calm [1]).nor.mem 0xFFFFFF &&& 0x55 = 0x55 ∧
      Memory.read (norHolds 3 [0x55] (calm [1])).nor.mem (3 : Word).toNat &&& 0xAA ≠ 0xAA ∧
      Quiet .nor (norHolds 3 [0x55] (calm [1])) ∧ 0x1000000 ≤ (0x1000000 : Word).toNat :=
  ⟨rfl, rfl, by decide, quiet_calm _ _, rfl, by decide, by decide, ⟨rfl, rfl, rfl⟩, by decide⟩
theorem test_meets_NorWriteArray :
    (calm [1, 0, 1]).busy = false ∧ Unobserved (calm [1, 0, 1]) ∧ (0x1FF : Word).toNat < 0x1000000 ∧
      (0x1FF : Word).toNat + (2 : Word).toNat ≤ 0x1000000 ∧
      Quiet .nor (calm [1, 0, 1]) ∧ ReadyEachTime (chunks .nor (0x1FF : Word).toNat (2 : Word).toNat).length (calm [1, 0, 1]) :=
  ⟨rfl, rfl, by decide, by decide, quiet_calm _ _, by unfold ReadyEachTime; decide⟩
/-- Each of the two ways out of range, and no buffer with the last range that fits, on each device. -/
theorem test_meets_WriteArraySkipped :
    (calm []).busy = false ∧ Unobserved (calm []) ∧ 512 ≤ (512 : Word).toNat ∧ 512 < (511 : Word).toNat + (2 : Word).toNat ∧
      (511 : Word).toNat + (1 : Word).toNat ≤ 512 ∧ 0x1000000 ≤ (0x1000000 : Word).toNat ∧
      0x1000000 < (0xFFFFFF : Word).toNat + (2 : Word).toNat ∧ (0xFFFFFF : Word).toNat + (1 : Word).toNat ≤ 0x1000000 ∧
      ({} : Req).bufv = false :=
  ⟨rfl, rfl, by decide⟩
theorem test_meets_NorSetBitIsUnsupported :
    (calm []).busy = false ∧ Unobserved (calm []) ∧ (0x00020015 : Word).extractLsb' 0 4 = 5 ∧
      (0x00020015 : Word).getLsbD 4 = true ∧
      ¬ isIllegal 0x00020015 := by
  refine ⟨rfl, rfl, rfl, rfl, ?_⟩
  unfold isIllegal
  decide
theorem test_meets_NorClearBit :
    (calm [1]).busy = false ∧ Unobserved (calm [1]) ∧
      ((0xFFFFFF : Word).toNat < 0x1000000 ∧ (7 : Byte).toNat ≤ 7 ∧ Quiet .nor (calm [1]) ∧ ReadyAtOnce (calm [1])) ∧
      7 < (8 : Byte).toNat ∧ 0x1000000 ≤ (0x1000000 : Word).toNat :=
  ⟨rfl, rfl, ⟨by decide, by decide, quiet_calm _ _, rfl⟩, by decide, by decide⟩
/-- A device that has left its protocol answers 0xFF and then 0: bit 0 is to be cleared, so seven bits would have to be set. -/
theorem test_meets_NorClearBitKeepsTheEraseBranch :
    let s : State := { calm [255, 0] with nor := { lost := some .cutShort } }
    s.busy = false ∧ Unobserved s ∧ (0xFFFFFF : Word).toNat < 0x1000000 ∧ (0 : Byte).toNat ≤ 7 ∧ s.fuse = none ∧
      s.nor.lost ≠ none ∧
      byteOfDraw (s.drawAt 1) &&& (byteOfDraw (s.drawAt 0) &&& ~~~(1#8 <<< (0 : Byte).toNat)) ≠
        byteOfDraw (s.drawAt 0) &&& ~~~(1#8 <<< (0 : Byte).toNat) :=
  ⟨rfl, rfl, by decide, by decide, rfl, by decide, by decide⟩
theorem test_meets_NorEraseSector :
    (calm [1]).busy = false ∧ Unobserved (calm [1]) ∧ ((0xFFFFFF : Word).toNat < 0x1000000 ∧ Quiet .nor (calm [1]) ∧
      ReadyAtOnce (calm [1])) ∧
      0x1000000 ≤ (0x1000000 : Word).toNat :=
  ⟨rfl, rfl, ⟨by decide, quiet_calm _ _, rfl⟩, by decide⟩

/-- A wait that is not over at once, without a limit, with a limit of 2, and with a limit of 1: all six operations with one
write cycle on the last byte of a device, and the second of two chunks on each device, the first ready at once. -/
theorem test_meets_WritesThatFindTheDeviceBusy :
    ∀ limit ∈ [none, some 2, some 1],
      let s : State := { calm [2] with params := { pollDelayUs := 50, dummyOut := 0, pollLimit := limit } }
      let u : State := { s with tape := [1, 0, 2] }
      (s.busy = false ∧ Unobserved s ∧ Quiet .ee s ∧ Quiet .nor s ∧ ¬ ReadyAtOnce s ∧
        (writesOf { addr := 511, val := 0x55, bitn := 7 } s).map (·.ok) = [true, true, true, true, true, true]) ∧
      (u.busy = false ∧ Unobserved u ∧ Quiet .ee u ∧ Quiet .nor u ∧ ReadyEachTime 1 u ∧ busyOfDraw (u.drawAt 2) ≠ some 0 ∧
        validRange .ee 495 2 = true ∧ chunks .ee (495 : Word).toNat (2 : Word).toNat = [(495, 1)] ++ (496, 1) :: [] ∧
        validRange .nor 0x1FF 2 = true ∧
        chunks .nor (0x1FF : Word).toNat (2 : Word).toNat = [(0x1FF, 1)] ++ (0x200, 1) :: []) ∧
      (s.params.pollLimit = none ∨ (∃ n, s.params.pollLimit = some n ∧ 1 < n) ∨ ∃ n, s.params.pollLimit = some n ∧
        n ≤ 1) := by
  intro limit h
  simp only [List.mem_cons, List.not_mem_nil, or_false] at h
  refine ⟨⟨rfl, rfl, ⟨rfl, rfl, rfl⟩, ⟨rfl, rfl, rfl⟩, show ¬ some 1 = some 0 by decide, ?_⟩,
    ⟨rfl, rfl, ⟨rfl, rfl, rfl⟩, ⟨rfl, rfl, rfl⟩, ?_, show some 1 ≠ some 0 by decide, rfl, rfl, rfl, rfl⟩, ?_⟩
  · rcases h with rfl | rfl | rfl <;> decide
  · intro j hj
    obtain rfl : j = 0 := by omega
    rfl
  · rcases h with rfl | rfl | rfl
    · exact .inl rfl
    · exact .inr (.inl ⟨2, rfl, by decide⟩)
    · exact .inr (.inr ⟨1, rfl, by decide⟩)
/-- Ready; busy with the limit reached; busy with the limit not reached, and with none. -/
theorem test_meets_OneTurnOfThePollLoop :
    (Waiting .ee (polling .ee (some 0) 2 none) ∧ ((polling .ee (some 0) 2 none).device .ee).lost = none ∧
      ((polling .ee (some 0) 2 none).device .ee).sample.1 = false ∧ (polling .ee (some 0) 2 none).latch.op ≠ 4) ∧
    (Waiting .nor (polling .nor none 7 (some 2)) ∧ ((polling .nor none 7 (some 2)).device .nor).sample.1 = true ∧
      ∃ n, (polling .nor none 7 (some 2)).params.pollLimit = some n ∧ n ≤ (polling .nor none 7 (some 2)).pollcnt + 1) ∧
    (Waiting .ee (polling .ee (some 1) 2 (some 3)) ∧ ((polling .ee (some 1) 2 (some 3)).device .ee).sample.1 = true ∧
      ∃ n, (polling .ee (some 1) 2 (some 3)).params.pollLimit = some n ∧
        (polling .ee (some 1) 2 (some 3)).pollcnt + 1 < n) :=
  ⟨⟨waiting_polling _ _ _ _, rfl, rfl, by decide⟩, ⟨waiting_polling _ _ _ _, rfl, 2, rfl, by decide⟩,
    ⟨waiting_polling _ _ _ _, rfl, 3, rfl, by decide⟩⟩
/-- A bulk write of `n` bytes from the last byte of a page on, its first chunk of one byte waiting. -/
def bulk (n : Word) (tape : List Nat) (limit : Option Nat) : State :=
  { polling .ee (some 0) 4 limit with
    latch := { op := 4, addr := 15, len := n, bufv := true }, cur := 15, rem := n, clen := 1, tape := tape }

theorem waiting_bulk (n : Word) (tape : List Nat) (limit : Option Nat) : Waiting .ee (bulk n tape limit) :=
  ⟨rfl, rfl, rfl, rfl, rfl, rfl, rfl⟩
/-- No chunk is left; two are, both ready at once; the second of them finds the device busy, below the limit and at it. -/
theorem test_meets_BulkWriteGoesOnAfterAWait :
    (bulkWf (bulk 1 [] none) = true ∧ chunks .ee 16 0 = []) ∧
    (∀ u ∈ [bulk 33 [0, 1, 0, 1] none, bulk 33 [0, 1, 0, 2] none, bulk 33 [0, 1, 0, 2] (some 1)],
      bulkWf u = true ∧ u.latch.op = 4 ∧ (u.device .ee).lost = none ∧ (u.device .ee).sample.1 = false ∧
        u.cur + u.clen.setWidth 32 = 16 ∧ u.rem - u.clen.setWidth 32 = 32 ∧ busyOfDraw (u.drawAt 1) = some 0) ∧
    chunks .ee (16 : Word).toNat (32 : Word).toNat = [(16, 16)] ++ (32, 16) :: [] ∧
    busyOfDraw ((bulk 33 [0, 1, 0, 1] none).drawAt 3) = some 0 ∧
    busyOfDraw ((bulk 33 [0, 1, 0, 2] (some 1)).drawAt 3) ≠ some 0 := by decide
theorem test_meets_UnboundedWaitNeverEnds :
    Waiting .ee (polling .ee none 2 none) ∧ ((polling .ee none 2 none).device .ee).lost = none ∧
      ((polling .ee none 2 none).device .ee).dbusy = true ∧ ((polling .ee none 2 none).device .ee).busyReads = none ∧
      (polling .ee none 2 none).params.pollLimit = none :=
  ⟨waiting_polling _ _ _ _, rfl, rfl, rfl, rfl⟩
theorem test_meets_FiniteWaitEndsOk :
    Waiting .nor (polling .nor (some 3) 7 none) ∧ (polling .nor (some 3) 7 none).latch.op ≠ 4 ∧
      ((polling .nor (some 3) 7 none).device .nor).lost = none ∧ ((polling .nor (some 3) 7 none).device .nor).dbusy = true ∧
      ((polling .nor (some 3) 7 none).device .nor).busyReads = some 3 ∧
        (polling .nor (some 3) 7 none).params.pollLimit = none :=
  ⟨waiting_polling _ _ _ _, by decide, rfl, rfl, rfl, rfl⟩

theorem test_meets_WriteEnableFrames : Quiet .ee (calm []) ∧ Quiet .nor (calm []) := ⟨quiet_calm _ _, quiet_calm _ _⟩
theorem test_meets_ReadStatusFrames :
    (polling .ee none 2 none).fuse = none ∧ (polling .ee none 2 none).ee.lost = none ∧
      (polling .ee none 2 none).nor.lost = none := by decide
/-- The last byte, one byte too many, and the first address past the EEPROM. -/
theorem test_meets_ReadFrames :
    Quiet .ee (calm []) ∧ Quiet .nor (calm []) ∧ (511 : BitVec 16).toNat + [(0 : Byte)].length ≤ 512 ∧
      512 < (511 : BitVec 16).toNat + [(0 : Byte), 0].length ∧ 512 ≤ (512 : BitVec 16).toNat ∧
      (0xFFFFFF : BitVec 24).toNat + [(0 : Byte)].length ≤ 0x1000000 ∧
      0x1000000 < (0xFFFFFF : BitVec 24).toNat + [(0 : Byte), 0].length :=
  ⟨quiet_calm _ _, quiet_calm _ _, by decide, by decide, by decide, by decide, by decide⟩
/-- Each device write-enabled, a whole number of bytes up to the end of a page. -/
theorem test_meets_ProgramFrames :
    let s : State := { calm [1] with ee := { wel := true }, nor := { wel := true } }
    Quiet .ee s ∧ s.ee.wel = true ∧ (0x1FE : BitVec 16).toNat < 512 ∧ 1 ≤ [(0 : Byte), 0].length ∧
      (0x1FE : BitVec 16).toNat % 16 + [(0 : Byte), 0].length ≤ 16 ∧ Quiet .nor s ∧ s.nor.wel = true ∧
      (0xFE : BitVec 24).toNat % 256 + [(0 : Byte), 0].length ≤ 256 :=
  ⟨⟨rfl, rfl, rfl⟩, rfl, by decide, by decide, by decide, ⟨rfl, rfl, rfl⟩, rfl, by decide⟩
theorem test_meets_SectorEraseFrame :
    let s : State := { calm [1] with nor := { wel := true } }
    Quiet .nor s ∧ s.nor.wel = true := ⟨⟨rfl, rfl, rfl⟩, rfl⟩
/-- No write-enable; a program frame one byte too long for its page; a busy device: on the EEPROM and on the NOR flash. -/
theorem test_meets_FramesOutsideThePreconditions :
    let s : State := { calm [] with ee := { wel := true }, nor := { wel := true } }
    let u : State := { calm [] with ee := { dbusy := true }, nor := { dbusy := true } }
    (Quiet .ee (calm []) ∧ (calm []).ee.wel = false ∧ Quiet .nor (calm []) ∧ (calm []).nor.wel = false ∧
      (511 : BitVec 16).toNat < 512 ∧ 1 ≤ [(0 : Byte)].length) ∧
      (Quiet .ee s ∧ s.ee.wel = true ∧ 16 < (511 : BitVec 16).toNat % 16 + [(0 : Byte), 0].length) ∧
      (Quiet .nor s ∧ s.nor.wel = true ∧ 256 < (0xFF : BitVec 24).toNat % 256 + [(0 : Byte), 0].length) ∧
      u.fuse = none ∧ u.ee.lost = none ∧ u.ee.dbusy = true ∧ u.nor.lost = none ∧ u.nor.dbusy = true ∧
      (511 : BitVec 16).toNat + [(0 : Byte)].length ≤ 512 ∧ (0xFFFFFF : BitVec 24).toNat + [(0 : Byte)].length ≤ 0x1000000 :=
  ⟨⟨quiet_calm _ _, rfl, quiet_calm _ _, rfl, by decide, by decide⟩, ⟨⟨rfl, rfl, rfl⟩, rfl, by decide⟩,
    ⟨⟨rfl, rfl, rfl⟩, rfl, by decide⟩, by decide⟩
theorem test_meets_ProgramFrameOutsideTheEeprom : 512 ≤ (512 : BitVec 16).toNat := by decide
/-- The longest range there is on each device, and the last byte with no length. -/
theorem test_meets_ChunksCutAtPageBoundaries :
    0 < Dev.ee.size ∧ 0 + 512 ≤ Dev.ee.size ∧ 511 < Dev.ee.size ∧ 511 + 0 ≤ Dev.ee.size ∧ 0 < Dev.nor.size ∧
      0 + 0x1000000 ≤ Dev.nor.size := by decide
theorem test_meets_SectorBaseOfAnAddress : decode (.frame .ee [0x06]) = .ok .eeWren := by decide
/-- An instruction; the step that accepts a request, legal and illegal; a later step of an operation. -/
theorem test_meets_TheOtherDeviceIsLeftAlone :
    ((calm [1, 0]).fuse = none ∧ Dev.nor ≠ deviceOf (.eeWriteByte {}) ∧
      exec (.eeWriteByte {}) (calm [1, 0]) = .next (after (exec (.eeWriteByte {}) (calm [1, 0])))) ∧
    (∀ w ∈ [(0x00000001 : Word), 0x00000007],
      let s : State := { calm [] with go := true, reqCtrl := w }
      s.fuse = none ∧ step s = .next (after (step s)) ∧ s.go = true ∧
        (decode (.request s.reqCtrl s.reqAddr s.reqLen) = .ok (.eeReadByte {}) ∨
          decode (.request s.reqCtrl s.reqAddr s.reqLen) = .error .illegalRequest)) ∧
    let s := polling .ee none 2 none
    s.fuse = none ∧ step s = .next (after (step s)) ∧ s.go = false ∧ nextMove s = none ∧
      s.frame = some (.ee, rdsrBytes s) := by
  refine ⟨⟨rfl, by decide, rfl⟩, ?_, rfl, rfl, rfl, rfl, rfl⟩
  intro w h
  simp only [List.mem_cons, List.not_mem_nil, or_false] at h
  rcases h with rfl | rfl
  · exact ⟨rfl, rfl, rfl, .inl rfl⟩
  · exact ⟨rfl, rfl, rfl, .inr rfl⟩
theorem test_meets_OperationsLeaveTheDeviceReady :
    (0x02, Instr.eeWriteByte) ∈ requestTable ∧ (calm [1, 0]).busy = false ∧ Quiet .ee (calm [1, 0]) ∧
      (after (exec (.eeWriteByte {}) (calm [1, 0]))).busy = false ∧
      (after (exec (.eeWriteByte {}) (calm [1, 0]))).outcome ≠ .deviceNotReady :=
  ⟨by simp [requestTable], rfl, quiet_calm _ _, by decide, by decide⟩
/-- A write over a byte that is not all ones, on a device that is ready and on one that has left its protocol; a later step. -/
theorem test_meets_NorWritesNeverSetABit :
    let s := norHolds 5 [0x0F] (calm [1, 0])
    let u : State := { s with nor.lost := some .whileBusy }
    let v := polling .nor none 4 none
    s.fuse = none ∧ exec (.norClearBit { addr := 5 }) s = .next (after (exec (.norClearBit { addr := 5 }) s)) ∧
      u.fuse = none ∧ exec (.norWriteByte { addr := 5 }) u = .next (after (exec (.norWriteByte { addr := 5 }) u)) ∧
      v.fuse = none ∧ step v = .next (after (step v)) ∧ v.go = false ∧ nextMove v = none ∧ v.frame = some (.nor, [0x05, 0]) ∧
      [(0x05 : Byte), 0].head? ≠ some 0x20 :=
  ⟨rfl, rfl, rfl, rfl, rfl, rfl, rfl, rfl, rfl, by decide⟩
theorem test_meets_ReadsChangeNoStorage :
    (polling .ee none 2 none).fuse = none ∧
      exec (.eeRead 0 [0]) (polling .ee none 2 none) = .next (after (exec (.eeRead 0 [0]) (polling .ee none 2 none))) :=
  ⟨rfl, rfl⟩
/-- Ready at the first status read, and after one that answered busy. -/
theorem test_meets_EepromReadsBackWhatWasWritten :
    ∀ n ∈ [0, 1],
      let s := calm [n + 1]
      s.busy = false ∧ s.go = false ∧ s.inbox = [] ∧ Quiet .ee s ∧ busyOfDraw (s.drawAt 0) = some n ∧
        s.params.pollLimit = none ∧ (511 : Word).toNat < 512 := by
  intro n _
  exact ⟨rfl, rfl, rfl, quiet_calm _ _, rfl, rfl, by decide⟩
theorem test_meets_NorEraseThenWriteThenRead :
    (calm [1, 0, 1]).busy = false ∧ Unobserved (calm [1, 0, 1]) ∧ Quiet .nor (calm [1, 0, 1]) ∧
      ReadyEachTime 2 (calm [1, 0, 1]) ∧
      (0xFFFFFF : Word).toNat < 0x1000000 ∧ (0xFFF000 : Word).toNat / 4096 = (0xFFFFFF : Word).toNat / 4096 :=
  ⟨rfl, rfl, quiet_calm _ _, by unfold ReadyEachTime; decide, by decide, by decide⟩
theorem test_meets_ParametersNeverChange :
    step (polling .ee none 2 none) = .next (after (step (polling .ee none 2 none))) := rfl
/-- A state in the middle of a wait meets the invariant, and has a next state. -/
theorem test_meets_StepKeepsTheInvariant :
    let s := after (exec (.eeWriteByte { addr := 5, val := 0xA7 }) { State.reset with tape := [3, 0, 0], params := (calm []).params })
    memoriesWf s = true ∧ controlWf s = true ∧ traceWf s = true ∧ s.busy = true ∧ step s = .next (after (step s)) :=
  ⟨by decide, by decide, by decide, by decide, rfl⟩
theorem test_meets_StepKeepsTheMemories : memoriesWf (norHolds 5 [0x0F] (calm [])) = true := by decide
/-- The second chunk of a bulk write waits, and the step that reads its status goes on to the third. -/
theorem test_meets_StepKeepsTheBulkRegisters :
    let s := after (step (bulk 33 [0, 2, 0] none))
    bulkWf s = true ∧ s.busy = true ∧ s.cur = 16 ∧ s.clen = 16 ∧ step s = .next (after (step s)) :=
  ⟨by decide, by decide, by decide, by decide, rfl⟩

end Sys2Proof.Tests
end

section
/-! The step between two states: a host request by its body, a host move, and a waiting poll loop that goes on. -/

namespace Sys2Proof.Machine

/-! ### The thirteen host operations by their bodies (R103, R132) -/

/-- A host operation: what its request latches, and what runs once it is latched. -/
structure Operation where
  op   : BitVec 4
  dev  : Dev
  req  : Req
  body : State → State

/-- The host operation an instruction is; a wire frame is none. -/
def operationOf : Instr → Option Operation
  | .eeReadByte r => some ⟨1, .ee, r, opReadByte .ee⟩
  | .eeWriteByte r => some ⟨2, .ee, r, fun s =>
      if validAddr .ee s.latch.addr then (writeChunk .ee s.latch.addr [s.latch.val] s).finally finishReady
      else finish .outOfRange s⟩
  | .eeReadArray r => some ⟨3, .ee, r, opReadArray .ee⟩
  | .eeWriteArray r => some ⟨4, .ee, r, opWriteArray .ee⟩
  | .eeSetBit r => some ⟨5, .ee, r, eeModifyBit withBit⟩
  | .eeClearBit r => some ⟨6, .ee, r, eeModifyBit withoutBit⟩
  | .norReadByte r => some ⟨1, .nor, r, opReadByte .nor⟩
  | .norWriteByte r => some ⟨2, .nor, r, fun s =>
      if validAddr .nor s.latch.addr then clearOnlyWrite s.latch.val s else finish .outOfRange s⟩
  | .norReadArray r => some ⟨3, .nor, r, opReadArray .nor⟩
  | .norWriteArray r => some ⟨4, .nor, r, opWriteArray .nor⟩
  | .norSetBit r => some ⟨5, .nor, r, finish .unsupported⟩
  | .norClearBit r => some ⟨6, .nor, r, fun s =>
      if validAddr .nor s.latch.addr then
        if validBit s.latch.bitn then
          (frameRead .nor s.latch.addr 1 s).finally fun b t =>
            clearOnlyWrite (withoutBit (b.headD 0) t.latch.bitn) t
        else finish .invalidBitIndex s
      else finish .outOfRange s⟩
  | .norEraseSector r => some ⟨7, .nor, r, fun s =>
      if validAddr .nor s.latch.addr then
        (writeCycle .nor (frameErase (BitVec.ofNat 32 (sectorBase s.latch.addr.toNat))) s).finally finishReady
      else finish .outOfRange s⟩
  | _ => none

/-- A host operation is its request with its body (R132). -/
theorem exec_operation {i : Instr} {o : Operation} (h : operationOf i = some o) (s : State) :
    exec i s = request o.op o.dev o.req o.body s := by
  cases i <;> cases h <;> rfl

/-- While `BUSY` = 1 a request is ignored (R29). -/
theorem request_busy {op : BitVec 4} {d : Dev} {r : Req} {body : State → State} {s : State} (hb : s.busy = true) :
    request op d r body s = .next s := by
  rw [request, if_pos hb]

/-- A request that finds the block free is latched, the host may look, and the body runs (R132, R247). -/
theorem request_free {op : BitVec 4} {d : Dev} {r : Req} {body : State → State} {s : State} (hb : s.busy = false) :
    request op d r body s = .next (body (hostPoint (accept op d r s))) := by
  simp [request, hb]

theorem operationOf_requestTable {row : Word × (Req → Instr)} (h : row ∈ requestTable) (r : Req) :
    ∃ o, operationOf (row.2 r) = some o := by
  simp only [requestTable, List.mem_cons, List.not_mem_nil, or_false] at h
  rcases h with rfl | rfl | rfl | rfl | rfl | rfl | rfl | rfl | rfl | rfl | rfl | rfl | rfl <;> exact ⟨_, rfl⟩

theorem operationOf_decodeSelector {c : Nat} {r : Req} {i : Instr} (h : decodeSelector c r = .ok i) :
    ∃ o, operationOf i = some o := by
  unfold decodeSelector at h
  split at h <;> cases h <;> exact ⟨_, rfl⟩

/-- What the host registers hold decodes to a host operation, never to a wire frame (R102, R103). -/
theorem operationOf_request {w0 w1 w2 : Word} {i : Instr} (h : decode (.request w0 w1 w2) = .ok i) :
    ∃ o, operationOf i = some o := by
  simp only [decode, decodeRequest] at h
  split at h
  · exact operationOf_decodeSelector h
  · cases h

theorem Flow.finally_bind {α β : Type} (m : Flow α) (f : α → State → Flow β) (g : β → State → State) :
    (m.bind f).finally g = m.finally fun a t => (f a t).finally g := by
  cases m <;> rfl

/-! ### The order of a step (R230, R247) -/

/-- A reset that is due comes first. -/
theorem step_reset {s : State} (hf : s.fuse = some 0) : step s = .next (applyReset s) := by
  rw [step, if_pos hf]

/-- Then a request that `GO` has issued. -/
theorem step_go {s : State} (hf : s.fuse ≠ some 0) (hg : s.go = true) : step s = stepRequest s := by
  rw [step, if_neg hf, if_pos hg]

/-- Then the host's next move. -/
theorem step_next {s : State} {m : HostMove} (hf : s.fuse ≠ some 0) (hg : s.go = false) (hm : nextMove s = some m) :
    step s = hostMove m { s with inbox := s.inbox.drop 1 } := by
  simp [step, hf, hg, hm]

/-- Then the frame that a waiting operation has ready. -/
theorem step_frame {s : State} (hf : s.fuse ≠ some 0) (hg : s.go = false) (hm : nextMove s = none) :
    step s = stepFrame s := by
  simp [step, hf, hg, hm]

/-- The move at the head of the queue is made if it is not one that waits for `BUSY` = 0. -/
theorem step_move {s : State} {m : HostMove} {ms : List HostMove} (hf : s.fuse ≠ some 0) (hg : s.go = false)
    (hi : s.inbox = m :: ms) (hw : (m.waits && s.busy) = false) : step s = hostMove m { s with inbox := ms } := by
  have hm : nextMove s = some m := by simp only [nextMove, hi, hw, Bool.false_eq_true, if_false]
  rw [step_next hf hg hm, hi, List.drop_one, List.tail_cons]

/-- What a write to a register changes; `GO` can change only while `BUSY` = 0 (R29). -/
theorem writeReg_eq (r : HostReg) (v : Word) (s : State) : ∃ c a l g,
    writeReg r v s = { s with reqCtrl := c, reqAddr := a, reqLen := l, go := g } ∧ (s.busy = true → g = s.go) := by
  cases r with
  | reqCtrl => exact ⟨v, s.reqAddr, s.reqLen, s.go, rfl, fun _ => rfl⟩
  | reqAddr => exact ⟨s.reqCtrl, v, s.reqLen, s.go, rfl, fun _ => rfl⟩
  | reqLen => exact ⟨s.reqCtrl, s.reqAddr, v, s.go, rfl, fun _ => rfl⟩
  | status => exact ⟨s.reqCtrl, s.reqAddr, s.reqLen, s.go, rfl, fun _ => rfl⟩
  | go =>
    by_cases h : (v.getLsbD 0 && !s.busy) = true
    · exact ⟨s.reqCtrl, s.reqAddr, s.reqLen, true, if_pos h, fun hb => by simp [hb] at h⟩
    · exact ⟨s.reqCtrl, s.reqAddr, s.reqLen, s.go, if_neg h, fun _ => rfl⟩

/-- A poll loop that waits reads the status once more and goes on from it (R127). -/
theorem stepFrame_rdsr {s : State} {d : Dev} (hf : s.frame = some (d, rdsrBytes s)) :
    stepFrame s =
      .next (afterFrame d (rdsrBytes s) (frameRdsr d s.params.dummyOut { s with frame := none }).state) := by
  cases d <;> simp only [stepFrame, hf] <;> rfl

/-- A loop that is polling the device judges the status byte (R127). -/
theorem afterFrame_polling {s : State} {d : Dev} {bytes : List Byte} (hb : s.busy = true) (hp : s.phase = .polling)
    (hd : s.latch.dev = d) (hh : bytes.head? = some Config.opcRdsr) :
    afterFrame d bytes s = (judgeStatus d s).finally (afterWait d) :=
  if_pos ⟨hb, hp, hd.symm, hh⟩

theorem afterFrame_idle {s : State} (d : Dev) (bytes : List Byte) (hb : s.busy = false) : afterFrame d bytes s = s :=
  if_neg (by simp [hb])

end Sys2Proof.Machine
end

section
/-! Every step keeps the control state, the bus discipline and the transitions of `phase` (R121, R129, R130, R133). -/

namespace Sys2Proof.Machine

/-! ### An operation in progress -/

/-- An operation on device `d` between two of its frames, `phase` at `Idle` (R129, R132). -/
structure Running (d : Dev) (s : State) : Prop where
  sound : Sound {} s
  phase : s.phase = .idle
  busy : s.busy = true
  go : s.go = false
  frame : s.frame = none
  dev : s.latch.dev = d

theorem Running.of_same {d : Dev} {s t : State} (h : Running d s) (hs : Sound {} t) (hp : t.phase = s.phase)
    (hm : Same s t) : Running d t :=
  ⟨hs, hp.trans h.phase, hm.busy.trans h.busy, hm.go.trans h.go, hm.frame.trans h.frame, by rw [hm.latch]; exact h.dev⟩

/-- Acceptance starts an operation (R132). -/
theorem running_accept {s : State} (hs : Sound {} s) (hp : s.phase = .idle) (hg : s.go = false) (hf : s.frame = none)
    (op : BitVec 4) (d : Dev) (r : Req) : Running d (hostPoint (accept op d r s)) :=
  ⟨Sound.hostPoint { hs with }, by simp [hp], by simp, by simp [hg], by simp [hf], by simp⟩

theorem Settled.after {s t u : State} (h : Settled t u) (k : t.params = s.params) : Settled s u :=
  { h with params := h.params.trans k }

/-- Writing `Buf` in its canonical form leaves the rest sound. -/
theorem Sound.setBuf {b : Bus} {s : State} {m : List Host.Cell} (h : Sound b s) (hm : Memory.wf m = true) :
    Sound b { s with buf := m } :=
  { h with mem := (memoriesWf_iff _).2 ⟨((memoriesWf_iff s).1 h.mem).1, hm⟩ }

theorem Sound.wf_buf {b : Bus} {s : State} (h : Sound b s) : Memory.wf s.buf = true := ((memoriesWf_iff s).1 h.mem).2

section
variable {d : Dev} {s : State}

theorem Running.finish (h : Running d s) (c : OpOutcome) : Settled s (finish c s) :=
  settled_finish h.sound h.phase (.refl s) h.frame c

theorem Running.cycle (h : Running d s) {m : Flow Bool} (hm : Cycle d s m) : Settled s (m.finally finishReady) :=
  settled_cycle hm h.busy h.go h.dev h.frame

theorem Running.writeCycle (h : Running d s) {body : State → Flow Unit} (hb : SoundBody d body) :
    Settled s ((writeCycle d body s).finally finishReady) :=
  h.cycle (writeCycle_sound d body hb s h.sound h.phase)

theorem Running.writeChunk (h : Running d s) (a : Word) (data : List Byte) :
    Settled s ((writeChunk d a data s).finally finishReady) :=
  h.writeCycle (frameProgram_sound d a data)

/-- A read frame of an operation, and what comes after it. -/
theorem Running.frameRead (h : Running d s) (a : Word) (n : Nat) {f : List Byte → State → State}
    (hf : ∀ b t, Running d t → Settled t (f b t)) : Settled s ((frameRead d a n s).finally f) := by
  rcases frameReadOuts_sound d a (List.replicate n s.params.dummyOut) s h.sound with
    ⟨b, t, he, hm, hp, ht⟩ | ⟨t, he, ht⟩
  · rw [Machine.frameRead, he]
    exact (hf b t (h.of_same ht hp hm)).after hm.params
  · rw [Machine.frameRead, he]
    exact settled_reset ht

theorem Running.setRdata (h : Running d s) (v : Byte) (c : OpOutcome) :
    Settled s (Machine.finish c (hostPoint (s.setRdata v))) := by
  have hs : Sound {} (s.setRdata v) := { h.sound with }
  exact settled_finish hs.hostPoint (by simp [h.phase]) ⟨by simp, by simp, by simp, by simp, by simp⟩ h.frame c

/-! ### The operations -/

theorem Running.opReadByte (h : Running d s) : Settled s (opReadByte d s) := by
  unfold Machine.opReadByte
  split
  · exact h.frameRead _ _ fun b t ht => ht.setRdata _ _
  · exact h.setRdata _ _

theorem Running.opReadArray (h : Running d s) : Settled s (opReadArray d s) := by
  unfold Machine.opReadArray
  split
  · split
    · unfold frameReadInto Machine.frameRead
      rcases frameReadOuts_sound d s.latch.addr (List.replicate s.latch.len.toNat s.params.dummyOut) s h.sound with
        ⟨b, t, he, hm, hp, ht⟩ | ⟨t, he, ht⟩
      · rw [he]
        exact settled_finish (ht.setBuf (Memory.wf_writeMany 0 _ ht.wf_buf)) (hp.trans h.phase) { hm with } h.frame _
      · rw [he]
        exact settled_reset { ht with sound := ht.sound.setBuf (Memory.wf_writeMany 0 _ ht.sound.wf_buf) }
    · exact h.finish _
  · exact h.finish _

theorem Running.opWriteArray (h : Running d s) : Settled s (opWriteArray d s) := by
  unfold Machine.opWriteArray
  split
  · split
    · have hs : Sound {} { s with cur := s.latch.addr, rem := s.latch.len, idx := 0 } := { h.sound with }
      exact h.cycle ((chunkLoop_sound d s.latch.len.toNat _ hs h.phase).after ⟨rfl, rfl, rfl, rfl, rfl⟩)
    · exact h.finish _
  · exact h.finish _

/-- A change of `tmp` alone. -/
theorem Running.setTmp (h : Running d s) (v : Byte) : Running d { s with tmp := v } :=
  h.of_same { h.sound with } rfl ⟨rfl, rfl, rfl, rfl, rfl⟩

theorem Running.eeModifyBit (h : Running .ee s) (f : Byte → Byte → Byte) : Settled s (eeModifyBit f s) := by
  unfold Machine.eeModifyBit
  split
  · split
    · rw [Flow.finally_bind]
      exact h.frameRead _ _ fun b t ht => ((ht.setTmp _).writeChunk _ _).after rfl
    · exact h.finish _
  · exact h.finish _

theorem Running.clearOnlyWrite (h : Running .nor s) (v : Byte) : Settled s (clearOnlyWrite v s) := by
  refine h.frameRead _ _ fun b t ht => ?_
  dsimp only
  split
  · exact ((ht.setTmp _).writeChunk _ _).after rfl
  · exact ((ht.setTmp _).finish _).after rfl

end

/-- Every host operation ends, or waits in its poll loop, or a reset strikes (R133, R248). -/
theorem operation_settled {i : Instr} {o : Operation} (hi : operationOf i = some o) {s : State} (h : Running o.dev s) :
    Settled s (o.body s) := by
  cases i <;> cases hi <;> dsimp only at h ⊢
  case eeReadByte | norReadByte => exact h.opReadByte
  case eeReadArray | norReadArray => exact h.opReadArray
  case eeWriteArray | norWriteArray => exact h.opWriteArray
  case eeSetBit | eeClearBit => exact h.eeModifyBit _
  case norSetBit => exact h.finish _
  case eeWriteByte =>
    split
    · exact h.writeChunk _ _
    · exact h.finish _
  case norWriteByte =>
    split
    · exact h.clearOnlyWrite _
    · exact h.finish _
  case norClearBit =>
    split
    · split
      · exact h.frameRead _ _ fun b t ht => ht.clearOnlyWrite _
      · exact h.finish _
    · exact h.finish _
  case norEraseSector =>
    split
    · exact h.writeCycle (frameErase_sound _)
    · exact h.finish _

/-! ### The four kinds of step -/

theorem controlWf_iff (s : State) : controlWf s = true ↔ s.csEe = false ∧ s.csNor = false ∧
    ((s.busy = true ∧ s.phase = .polling ∧ s.frame = some (s.latch.dev, rdsrBytes s) ∧ s.go = false) ∨
      (s.busy = false ∧ s.phase = .idle ∧ s.frame = none)) := by
  cases hb : s.busy <;> simp [controlWf, hb, and_assoc]

/-- The three parts of the invariant, as the state of the bus and of the sequencer. -/
theorem invariant_iff (s : State) :
    (memoriesWf s = true ∧ controlWf s = true ∧ traceWf s = true) ↔ (Sound {} s ∧ controlWf s = true) := by
  simp only [traceWf, busDiscipline, Bool.and_eq_true, decide_eq_true_eq]
  constructor
  · rintro ⟨hm, hc, hb, hp⟩
    obtain ⟨h1, h2, -⟩ := (controlWf_iff s).1 hc
    exact ⟨⟨hb, hp, hm, h1, h2⟩, hc⟩
  · rintro ⟨hs, hc⟩
    exact ⟨hs.mem, hc, hs.bus, hs.phase⟩

/-- A reset between two steps (R230). -/
theorem Sound.applyReset {s : State} (h : Sound {} s) : Reset s (applyReset s) := by
  refine reset_of (d := .ee) (v := s.ee) 0 [] h.mem h.bus h.phase (fun _ _ hm => hm) rfl rfl ?_
  simp [Machine.applyReset, State.setDevice]

/-- A request accepted from a sound, idle state, legal or not (R105, R132). -/
theorem stepRequest_settled {s t : State} (hs : Sound {} s) (hb : s.busy = false) (hp : s.phase = .idle)
    (hf : s.frame = none) (ht : stepRequest s = .next t) : Settled s t := by
  have hs0 : Sound {} { s with go := false } := { hs with }
  unfold stepRequest at ht
  split at ht
  · rename_i i hi
    obtain ⟨o, ho⟩ := operationOf_request hi
    have hb0 : State.busy { s with go := false } = false := hb
    rw [exec_operation ho, request_free hb0, Host.Outcome.next.injEq] at ht
    subst ht
    exact (operation_settled ho (running_accept hs0 hp rfl hf o.op o.dev o.req)).after (by simp)
  · cases ht
    rw [acceptIllegal, if_neg (by simp [hb])]
    exact ((running_accept hs0 hp rfl hf _ _ _).finish _).after (by simp)

/-- What the host changes on its own side of the registers leaves the sequencer where it was. -/
theorem settled_hostSide {s : State} (hs : Sound {} s) (hc : controlWf s = true) (c a l : Word) (g : Bool) (x : Word)
    (ms : List HostMove) (hg : s.busy = true → g = s.go) :
    Settled s { s with reqCtrl := c, reqAddr := a, reqLen := l, go := g, hostData := x, inbox := ms } := by
  refine ⟨{ hs with }, ?_, rfl⟩
  rw [controlWf_iff] at hc ⊢
  obtain ⟨h1, h2, ⟨hb, hp, hf, hg0⟩ | h⟩ := hc
  · exact ⟨h1, h2, .inl ⟨hb, hp, hf, (hg hb).trans hg0⟩⟩
  · exact ⟨h1, h2, .inr h⟩

theorem settled_writeReg {s : State} (hs : Sound {} s) (hc : controlWf s = true) (r : HostReg) (v : Word) :
    Settled s (writeReg r v s) := by
  obtain ⟨c, a, l, g, he, hg⟩ := writeReg_eq r v s
  rw [he]
  exact settled_hostSide hs hc c a l g s.hostData s.inbox hg

theorem settled_read {s : State} (hs : Sound {} s) (hc : controlWf s = true) (x : Word) :
    Settled s { s with hostData := x } :=
  settled_hostSide hs hc s.reqCtrl s.reqAddr s.reqLen s.go x s.inbox fun _ => rfl

theorem settled_deviceReady {s : State} (hs : Sound {} s) (hc : controlWf s = true) (d : Dev) :
    Settled s (deviceReady d s) := by
  refine ⟨⟨?_, ?_, ?_, ?_, ?_⟩, ?_, ?_⟩
  · simpa [deviceReady] using hs.bus
  · simpa [deviceReady] using hs.phase
  · exact memoriesWf_setDevice (v := { s.device d with dbusy := false, busyReads := some 0 }) hs.mem (fun _ _ hm => hm)
      (fun _ => rfl) (by simp [deviceReady])
  · simpa [deviceReady] using hs.csEe
  · simpa [deviceReady] using hs.csNor
  · rw [controlWf_iff] at hc ⊢
    simpa [deviceReady, rdsrBytes] using hc
  · simp [deviceReady]

/-- A move of the host, the platform or a device (R247). -/
theorem hostMove_settled {s t : State} {m : HostMove} (hs : Sound {} s) (hc : controlWf s = true)
    (ht : hostMove m s = .next t) : Settled s t := by
  cases m with
  | writeReg r v => cases ht; exact settled_writeReg hs hc r v
  | readReg r => cases ht; exact settled_read hs hc _
  | during k m =>
    cases ht
    cases m with
    | write r v => exact settled_writeReg hs hc r v
    | read r => exact settled_read hs hc _
  | writeBuf i v =>
    simp only [hostMove] at ht
    split at ht <;> cases ht
    exact ⟨hs.setBuf (Memory.wf_write i v hs.wf_buf), hc, rfl⟩
  | readBuf i =>
    simp only [hostMove] at ht
    split at ht <;> cases ht
    exact settled_read hs hc _
  | awaitIdle => cases ht; exact ⟨hs, hc, rfl⟩
  | reset n =>
    cases ht
    cases n with
    | zero => exact settled_reset hs.applyReset
    | succ n => exact ⟨{ hs with }, hc, rfl⟩
  | deviceReady d => cases ht; exact settled_deviceReady hs hc d

/-- What a wait that has ended goes on with: the next chunk of a bulk write, or the end (R151, R206). -/
theorem Running.afterWait {d : Dev} {s : State} (h : Running d s) (b : Bool) : Settled s (afterWait d b s) := by
  unfold Machine.afterWait
  split
  · have hs : Sound {} (advanceChunk s) := { h.sound with }
    exact h.cycle ((chunkLoop_sound d _ (advanceChunk s) hs h.phase).after ⟨rfl, rfl, rfl, rfl, rfl⟩)
  · exact h.finish _

/-- One turn of a poll loop, and what the sequencer goes on with (R127). -/
theorem stepFrame_settled {s t : State} (hs : Sound {} s) (hb : s.busy = true) (hp : s.phase = .polling)
    (hf : s.frame = some (s.latch.dev, rdsrBytes s)) (hg : s.go = false) (ht : stepFrame s = .next t) : Settled s t := by
  rw [stepFrame_rdsr hf, Host.Outcome.next.injEq] at ht
  subst ht
  have hs0 : Sound {} { s with frame := none } := { hs with }
  rcases frameRdsr_sound s.latch.dev s.params.dummyOut _ hs0 with ⟨u, he, hm, hq, hu⟩ | ⟨u, he, hR⟩
  · have hpu : u.phase = .polling := hq.trans hp
    have hdu : u.latch.dev = s.latch.dev := by rw [hm.latch]
    rw [he, Flow.state_go, afterFrame_polling (hm.busy.trans hb) hpu hdu rfl]
    rcases judgeStatus_sound s.latch.dev u hu hpu with ⟨b, v, hj, hv, hpv, hmv⟩ | ⟨v, hj, hW | hR⟩
    · have hr : Running s.latch.dev v :=
        ⟨hv, hpv, (hmv.busy.trans hm.busy).trans hb, (hmv.go.trans hm.go).trans hg, hmv.frame.trans hm.frame,
          by rw [hmv.latch, hdu]⟩
      rw [hj]
      exact (hr.afterWait b).after (hmv.params.trans hm.params)
    · rw [hj]
      exact (settled_waits hW (hm.busy.trans hb) (hm.go.trans hg) hdu).after hm.params
    · rw [hj]
      exact (settled_reset hR).after hm.params
  · rw [he, Flow.state_halt, afterFrame_idle _ _ hR.busy]
    exact (settled_reset hR).after rfl

/-- Every step from a state with the invariant settles: it ends idle, or waits in a poll loop. -/
theorem step_settled {s t : State} (hs : Sound {} s) (hc : controlWf s = true) (ht : step s = .next t) : Settled s t := by
  by_cases hfuse : s.fuse = some 0
  · rw [step_reset hfuse, Host.Outcome.next.injEq] at ht
    subst ht
    exact settled_reset hs.applyReset
  obtain ⟨-, -, hctl⟩ := (controlWf_iff s).1 hc
  cases hgo : s.go with
  | true =>
    rw [step_go hfuse hgo] at ht
    rcases hctl with ⟨-, -, -, hg⟩ | ⟨hb, hp, hf⟩
    · rw [hgo] at hg
      cases hg
    · exact stepRequest_settled hs hb hp hf ht
  | false =>
    cases hm : nextMove s with
    | some m =>
      rw [step_next hfuse hgo hm] at ht
      have hs0 : Sound {} { s with inbox := s.inbox.drop 1 } := { hs with }
      exact (hostMove_settled hs0 hc ht).after rfl
    | none =>
      rw [step_frame hfuse hgo hm] at ht
      rcases hctl with ⟨hb, hp, hf, hg⟩ | ⟨-, -, hf⟩
      · exact stepFrame_settled hs hb hp hf hg ht
      · simp only [stepFrame, hf, Host.Outcome.next.injEq] at ht
        subst ht
        exact ⟨hs, hc, rfl⟩

/-- Settles O58: each of the four kinds of step settles from a sound state. -/
theorem stepKeepsTheInvariant : Obligations.StepKeepsTheInvariant := by
  intro s t hm hc ht hst
  obtain ⟨hs, -⟩ := (invariant_iff s).1 ⟨hm, hc, ht⟩
  have h := step_settled hs hc hst
  exact (invariant_iff t).2 ⟨h.sound, h.control⟩

end Sys2Proof.Machine
end

section
/-! The open parameters (R5, R37), the host's registers and `Buf` between two steps (R25 to R31, R247), and the reset (R35). -/

namespace Sys2Proof.Machine

/-! ### The open parameters (R37) -/

/-- No procedure changes the parameters, whatever its frames and whether or not a reset strikes. -/
theorem closed_params (d : Dev) : Closed d (fun _ => True) fun s t => t.params = s.params where
  trans h k := k.trans h
  frame c tl recvs s _ := by
    rcases performFrame_cases d (c :: tl) recvs s with ⟨bs, v, n, k, -, -, -, he⟩ | ⟨-, bs, v, n, j, -, -, he⟩
    · simp [he]
    · simp [he, applyReset]
  stay _ _ h := h.params
  reset _ _ := rfl

theorem exec_params {i : Instr} {s t : State} (h : exec i s = .next t) : t.params = s.params :=
  (closed_params (deviceOf i)).exec h

theorem stepRequest_params {s t : State} (h : stepRequest s = .next t) : t.params = s.params := by
  unfold stepRequest at h
  split at h
  · exact exec_params (s := { s with go := false }) h
  · cases h
    unfold acceptIllegal
    split
    · rfl
    · simp

theorem stepFrame_params {s t : State} (h : stepFrame s = .next t) : t.params = s.params := by
  unfold stepFrame at h
  split at h
  · cases h; rfl
  · rename_i d bytes _
    split at h
    · cases h
    · split at h
      · rename_i u hu
        cases h
        have hexec : u.params = s.params := exec_params (s := { s with frame := none }) hu
        exact ((closed_params d).afterFrame trivial trivial trivial bytes u).trans hexec
      · cases h
      · cases h

theorem writeReg_params (r : HostReg) (v : Word) (s : State) : (writeReg r v s).params = s.params := by
  obtain ⟨c, a, l, g, he, -⟩ := writeReg_eq r v s
  rw [he]

theorem hostMove_params {m : HostMove} {s t : State} (h : hostMove m s = .next t) : t.params = s.params := by
  cases m with
  | writeReg r v => cases h; exact writeReg_params r v s
  | readReg r => cases h; rfl
  | during k m =>
    cases h
    cases m with
    | write r v => exact writeReg_params r v s
    | read r => rfl
  | writeBuf i v => simp only [hostMove] at h; split at h <;> cases h; rfl
  | readBuf i => simp only [hostMove] at h; split at h <;> cases h; rfl
  | awaitIdle => cases h; rfl
  | reset n => cases h; cases n <;> rfl
  | deviceReady d => cases h; exact setDevice_params s d _

/-- Settles O55: none of the four kinds of step changes the parameters. -/
theorem parametersNeverChange : Obligations.ParametersNeverChange := by
  intro s t h
  by_cases hf : s.fuse = some 0
  · rw [step_reset hf] at h
    cases h; rfl
  cases hg : s.go with
  | true => exact stepRequest_params (step_go hf hg ▸ h)
  | false =>
    cases hm : nextMove s with
    | some m =>
      rw [step_next hf hg hm] at h
      exact hostMove_params (s := { s with inbox := s.inbox.drop 1 }) h
    | none => exact stepFrame_params (step_frame hf hg hm ▸ h)

/-! ### The words the host reads (R21, R25 to R30, R201) -/

/-- Bit `i` of `STATUS`, field by field (R30). -/
theorem statusWord_getLsbD (s : State) (i : Nat) : (statusWord s).getLsbD i =
    if i < 1 then (BitVec.ofBool s.busy).getLsbD i
    else if i < 3 then s.phase.code.getLsbD (i - 1)
    else if i < 4 then false
    else if i < 8 then s.outcome.code.getLsbD (i - 4)
    else s.rdata.getLsbD (i - 8) := by
  have h : (statusWord s).getLsbD i = @BitVec.getLsbD (16 + 8 + 4 + 1 + 2 + 1)
      (0#16 ++ s.rdata ++ s.outcome.code ++ 0#1 ++ s.phase.code ++ BitVec.ofBool s.busy) i := rfl
  rw [h]
  simp only [BitVec.getLsbD_append, BitVec.getLsbD_zero, Nat.sub_sub]
  grind

/-- The fields of `STATUS` stand at the bits R30 gives. -/
theorem statusWord_fields (s : State) :
    (statusWord s).getLsbD 0 = s.busy ∧ (statusWord s).extractLsb' 1 2 = s.phase.code ∧
      (statusWord s).getLsbD 3 = false ∧ (statusWord s).extractLsb' 4 4 = s.outcome.code ∧
      (statusWord s).extractLsb' 8 8 = s.rdata ∧ (statusWord s).extractLsb' 16 16 = 0 := by
  refine ⟨?_, BitVec.eq_of_getLsbD_eq fun i hi => ?_, ?_, BitVec.eq_of_getLsbD_eq fun i hi => ?_,
    BitVec.eq_of_getLsbD_eq fun i hi => ?_, BitVec.eq_of_getLsbD_eq fun i hi => ?_⟩
  · rw [statusWord_getLsbD]; simp
  · rw [BitVec.getLsbD_extractLsb', statusWord_getLsbD]
    grind
  · rw [statusWord_getLsbD]; simp
  · rw [BitVec.getLsbD_extractLsb', statusWord_getLsbD]
    grind
  · rw [BitVec.getLsbD_extractLsb', statusWord_getLsbD]
    grind
  · rw [BitVec.getLsbD_extractLsb', statusWord_getLsbD]
    have h : s.rdata.getLsbD (16 + i - 8) = false := BitVec.getLsbD_of_ge _ _ (by omega)
    grind

/-- Settles O9: the layout of `STATUS` bit by bit, the code tables by their definition, the step by its one move. -/
theorem hostReadsTheRegisters : Obligations.HostReadsTheRegisters := by
  refine ⟨fun s => ?_, ⟨rfl, rfl, rfl, rfl⟩, ⟨rfl, rfl, rfl, rfl, rfl, rfl, rfl, rfl⟩, fun s r ms hf hg hi => ?_⟩
  · obtain ⟨h0, h1, h3, h4, h8, h16⟩ := statusWord_fields s
    exact ⟨h0, h1, h3, h4, h8, h16, rfl, rfl, rfl, rfl, rfl⟩
  · rw [step_move hf hg hi rfl]
    cases r <;> rfl

/-! ### The host's moves between two steps (R26 to R31, R241) -/

/-- Settles O13: the move reaches the state through `writeReg`, which looks at bit 0 and at `BUSY`. -/
theorem goIsIgnoredWhileBusy : Obligations.GoIsIgnoredWhileBusy := by
  intro s v ms hf hg hi
  rw [step_move hf hg hi rfl]
  cases h : v.getLsbD 0 && !s.busy <;> simp only [hostMove, writeReg, h, hg, Bool.false_eq_true, if_false, if_true]

/-- Settles O14: `BUSY` plays no part in a write to a request register. -/
theorem requestRegisterWrites : Obligations.RequestRegisterWrites := by
  intro s v ms hf hg
  refine ⟨fun hi => ?_, fun hi => ?_, fun hi => ?_⟩ <;> rw [step_move hf hg hi rfl] <;> rfl

/-- Settles O15: `BUSY` decides whose `Buf` is, and a write of the host changes one byte of it. -/
theorem bufferBelongsToOneAtATime : Obligations.BufferBelongsToOneAtATime := by
  intro s i v ms hf hg
  refine ⟨fun hi hb => ?_, fun hi hb => ?_, fun hi hb => ?_, fun hi hb => ?_⟩
  · rw [step_move hf hg hi rfl]
    exact if_pos hb
  · rw [step_move hf hg hi rfl]
    exact if_pos hb
  · rw [step_move hf hg hi rfl]
    exact if_neg (by simp [hb])
  · refine ⟨{ s with inbox := ms, buf := Memory.write s.buf i v }, ?_, rfl, fun x => Memory.read_write s.buf i x v⟩
    rw [step_move hf hg hi rfl]
    exact if_neg (by simp [hb])

/-- Settles O16: each of the 13 operations is a request, and a request is ignored while `BUSY` = 1. -/
theorem requestsAreIgnoredWhileBusy : Obligations.RequestsAreIgnoredWhileBusy := by
  intro s r hb row hrow
  obtain ⟨o, ho⟩ := operationOf_requestTable hrow r
  rw [exec_operation ho, request_busy hb]

/-! ### The reset (R35, R230) -/

/-- Settles O17: the values of `State.reset`, and a step that finds no reset due, no `GO`, no move and no frame. -/
theorem resetLeavesTheBlockIdle : Obligations.ResetLeavesTheBlockIdle :=
  ⟨rfl, rfl, rfl, rfl, rfl, rfl, rfl, by rw [step_frame (by decide) rfl rfl]; rfl⟩

/-- Settles O18: the move asserts the reset at once. -/
theorem resetFromAnyState : Obligations.ResetFromAnyState := by
  intro s ms hf hg hi
  refine ⟨applyReset { s with inbox := ms }, ?_, rfl, rfl, rfl, rfl, rfl, rfl, rfl, rfl, rfl, rfl, rfl, rfl, rfl⟩
  rw [step_move hf hg hi rfl]
  rfl

/-- Settles O56: nothing is stored, no operation is in progress, and the trace is a reset with its two releases. -/
theorem resetMeetsTheInvariant : Obligations.ResetMeetsTheInvariant :=
  ⟨rfl, rfl, rfl, bulkWf_idle rfl⟩

end Sys2Proof.Machine
end

section
/-! What a host that reads `STATUS` inside an operation sees (R30, R247): the values `STATUS` takes, moment by moment. -/

namespace Sys2Proof.Machine

/-! ### The moments of a procedure -/

/-- From `s` to `t` the host may look at the moments `ws`, the words `STATUS` then reads as: a read of `STATUS` that waits for
moment `k` of them finds the word there, one that waits for a later moment goes on waiting, and no other move is made. -/
structure Looks (ws : List Word) (s t : State) : Prop where
  unseen : Unobserved s → t.inbox = s.inbox ∧ t.hostData = s.hostData
  seen : ∀ k ms w, unobserved ms = true → s.inbox = .during k (.read .status) :: ms → ws[k]? = some w →
    t.inbox = ms ∧ t.hostData = w
  later : ∀ k ms, s.inbox = .during (ws.length + k) (.read .status) :: ms →
    t.inbox = .during k (.read .status) :: ms ∧ t.hostData = s.hostData

/-- Without a moment nothing of the host's side changes. -/
theorem Looks.still {s t : State} (hi : t.inbox = s.inbox) (hh : t.hostData = s.hostData) : Looks [] s t where
  unseen _ := ⟨hi, hh⟩
  seen _ _ _ _ _ hk := by simp at hk
  later k ms h := ⟨hi.trans (by simpa using h), hh⟩

theorem Looks.trans {ws vs : List Word} {s t u : State} (h : Looks ws s t) (g : Looks vs t u) : Looks (ws ++ vs) s u where
  unseen hu := by
    obtain ⟨hi, hh⟩ := h.unseen hu
    obtain ⟨gi, gh⟩ := g.unseen (hu.of hi)
    exact ⟨gi.trans hi, gh.trans hh⟩
  seen k ms w hm hi hk := by
    rcases Nat.lt_or_ge k ws.length with hlt | hge
    · rw [List.getElem?_append_left hlt] at hk
      obtain ⟨hti, hth⟩ := h.seen k ms w hm hi hk
      obtain ⟨gi, gh⟩ := g.unseen (by rw [Unobserved, hti]; exact hm)
      exact ⟨gi.trans hti, gh.trans hth⟩
    · rw [List.getElem?_append_right hge] at hk
      obtain ⟨hti, -⟩ := h.later (k - ws.length) ms (by rw [hi, Nat.add_sub_cancel' hge])
      exact g.seen _ ms w hm hti hk
  later k ms hi := by
    obtain ⟨hti, hth⟩ := h.later (vs.length + k) ms (by rw [hi, List.length_append, Nat.add_assoc])
    obtain ⟨gi, gh⟩ := g.later k ms hti
    exact ⟨gi, gh.trans hth⟩

/-- A change that does not reach the host's side may come before the moments. -/
theorem Looks.before {ws : List Word} {s t u : State} (g : Looks ws t u) (hi : t.inbox = s.inbox)
    (hh : t.hostData = s.hostData) : Looks ws s u :=
  (Looks.still hi hh).trans g

/-- A change that does not reach the host's side may come after the moments. -/
theorem Looks.after {ws : List Word} {s t u : State} (h : Looks ws s t) (hi : u.inbox = t.inbox)
    (hh : u.hostData = t.hostData) : Looks ws s u := by
  simpa using h.trans (.still hi hh)

/-- While an operation is in progress, a moment at which the host may look shows `STATUS` as it stands (R247). -/
theorem Looks.hostPoint {s : State} (hb : s.busy = true) : Looks [statusWord s] s (hostPoint s) where
  unseen hu := by rw [hostPoint_self hu]; exact ⟨rfl, rfl⟩
  seen k ms w hm hi hk := by
    cases k with
    | zero =>
      cases hk
      rw [Machine.hostPoint, if_pos hb, hi, landMoves, landMoves_unobserved hm]
      exact ⟨rfl, rfl⟩
    | succ k => simp at hk
  later k ms hi := by
    rw [List.length_singleton, Nat.add_comm] at hi
    rw [Machine.hostPoint, if_pos hb, hi, landMoves]
    exact ⟨rfl, rfl⟩

theorem Looks.enterPhase {s : State} (hb : s.busy = true) (p : Phase) :
    Looks [statusWord (s.toPhase p)] s (enterPhase p s) :=
  (Looks.hostPoint (s := s.toPhase p) hb).before rfl rfl

/-! ### Every operation has its moments -/

/-- Between `s` and `t` the host may look at some moments. -/
def Watched (s t : State) : Prop := ∃ ws, Looks ws s t

theorem Watched.still {s t : State} (hi : t.inbox = s.inbox) (hh : t.hostData = s.hostData) : Watched s t :=
  ⟨[], .still hi hh⟩

theorem Watched.refl (s : State) : Watched s s := .still rfl rfl

theorem Watched.trans {s t u : State} (h : Watched s t) (g : Watched t u) : Watched s u := by
  obtain ⟨ws, h⟩ := h
  obtain ⟨vs, g⟩ := g
  exact ⟨ws ++ vs, h.trans g⟩

theorem watched_hostPoint (s : State) : Watched s (hostPoint s) := by
  cases hb : s.busy with
  | true => exact ⟨_, .hostPoint hb⟩
  | false => exact .still (by simp [hostPoint, hb]) (by simp [hostPoint, hb])

theorem watched_enterPhase (p : Phase) (s : State) : Watched s (enterPhase p s) :=
  .trans (t := s.toPhase p) (.still rfl rfl) (watched_hostPoint _)

theorem watched_finish (c : OpOutcome) (s : State) : Watched s (finish c s) := .still rfl rfl

theorem watched_setRdata (v : Byte) (c : OpOutcome) (s : State) : Watched s (finish c (hostPoint (s.setRdata v))) :=
  .trans (t := s.setRdata v) (.still rfl rfl) ((watched_hostPoint _).trans (watched_finish c _))

section
variable {α β : Type} {s : State} {m : Flow α}

theorem Flow.To.bindWatched {f : α → State → Flow β} (hm : m.To Watched s) (hf : ∀ a t, (f a t).To Watched t) :
    (m.bind f).To Watched s := by
  cases m with
  | go a t => exact Watched.trans hm (hf a t)
  | halt t => exact hm

theorem Flow.To.finallyWatched {f : α → State → State} (hm : m.To Watched s) (hf : ∀ a t, Watched t (f a t)) :
    Watched s (m.finally f) := by
  cases m with
  | go a t => exact Watched.trans hm (hf a t)
  | halt t => exact hm

end

/-- Inside a frame the host finds what it would have found before (log entry 20), also when a reset cuts it. -/
theorem watched_performFrame (d : Dev) (sends recvs : List Byte) (s : State) :
    (performFrame d sends recvs s).To Watched s := by
  rcases performFrame_cases d sends recvs s with ⟨bs, v, n, k, -, -, -, he⟩ | ⟨-, bs, v, n, j, -, -, he⟩
  · exact .still (by simp [he]) (by simp [he])
  · exact .still (by simp [he, applyReset]) (by simp [he, applyReset])

theorem watched_frameWren (d : Dev) (s : State) : (frameWren d s).To Watched s :=
  (watched_performFrame ..).bindWatched fun _ t => .refl t

theorem watched_frameRdsr (d : Dev) (x : Byte) (s : State) : (frameRdsr d x s).To Watched s :=
  (watched_performFrame ..).bindWatched fun _ _ => .still rfl rfl

theorem watched_frameRead (d : Dev) (a : Word) (n : Nat) (s : State) : (frameRead d a n s).To Watched s :=
  watched_performFrame ..

theorem watched_frameProgram (d : Dev) (a : Word) (data : List Byte) (s : State) : (frameProgram d a data s).To Watched s :=
  (watched_performFrame ..).bindWatched fun _ t => .refl t

theorem watched_frameErase (a : Word) (s : State) : (frameErase a s).To Watched s :=
  (watched_performFrame ..).bindWatched fun _ t => .refl t

theorem watched_frameReadInto (d : Dev) (a : Word) (n : Nat) (s : State) : (frameReadInto d a n s).To Watched s := by
  have h := watched_frameRead d a n s
  unfold frameReadInto
  cases hf : frameRead d a n s with
  | go b t => rw [hf] at h; exact h.trans (.still rfl rfl)
  | halt t => rw [hf] at h; exact h.trans (.still rfl rfl)

theorem watched_delay (d : Dev) (s : State) : (delay d s).To Watched s := by
  unfold delay
  split <;> exact .still rfl rfl

theorem watched_judgeStatus (d : Dev) (s : State) : (judgeStatus d s).To Watched s := by
  unfold judgeStatus
  split
  · exact watched_enterPhase _ s
  · refine Watched.trans (t := { s with pollcnt := s.pollcnt + 1 }) (.still rfl rfl) ?_
    dsimp only
    split
    · exact watched_enterPhase _ _
    · exact (watched_delay d _).bindWatched fun _ _ => .still rfl rfl

theorem watched_waitReady (d : Dev) (s : State) : (waitReady d s).To Watched s :=
  (watched_enterPhase .polling s).trans (.trans (t := { enterPhase .polling s with pollcnt := 0 }) (.still rfl rfl)
    ((watched_frameRdsr ..).bindWatched fun _ t => watched_judgeStatus d t))

theorem watched_writeCycle (d : Dev) {body : State → Flow Unit} (hb : ∀ s, (body s).To Watched s) (s : State) :
    (writeCycle d body s).To Watched s :=
  (watched_frameWren d s).bindWatched fun _ t => (watched_enterPhase _ t).trans
    ((hb _).bindWatched fun _ u => (watched_enterPhase _ u).trans (watched_waitReady d _))

theorem watched_writeChunk (d : Dev) (a : Word) (data : List Byte) (s : State) : (writeChunk d a data s).To Watched s :=
  watched_writeCycle d (watched_frameProgram d a data) s

theorem watched_chunkLoop (d : Dev) (fuel : Nat) (s : State) : (chunkLoop d fuel s).To Watched s := by
  induction fuel generalizing s with
  | zero => exact .refl s
  | succ fuel ih =>
    rw [chunkLoop]
    split
    · exact .refl s
    · refine Watched.trans (t := loadClen d s) (.still rfl rfl) ((watched_writeChunk ..).bindWatched fun b t => ?_)
      split
      · exact Watched.trans (t := advanceChunk t) (.still rfl rfl) (ih _)
      · exact .refl t

theorem watched_writeChunkEnds (d : Dev) (a : Word) (data : List Byte) (s : State) :
    Watched s ((writeChunk d a data s).finally finishReady) :=
  (watched_writeChunk ..).finallyWatched fun _ t => watched_finish _ t

theorem watched_opReadByte (d : Dev) (s : State) : Watched s (opReadByte d s) := by
  unfold opReadByte
  split
  · exact (watched_frameRead ..).finallyWatched fun _ t => watched_setRdata _ _ t
  · exact watched_setRdata _ _ s

theorem watched_opReadArray (d : Dev) (s : State) : Watched s (opReadArray d s) := by
  unfold opReadArray
  split
  · split
    · exact (watched_frameReadInto ..).finallyWatched fun _ t => watched_finish _ t
    · exact watched_finish _ s
  · exact watched_finish _ s

theorem watched_opWriteArray (d : Dev) (s : State) : Watched s (opWriteArray d s) := by
  unfold opWriteArray
  split
  · split
    · exact .trans (t := { s with cur := s.latch.addr, rem := s.latch.len, idx := 0 }) (.still rfl rfl)
        ((watched_chunkLoop d s.latch.len.toNat _).finallyWatched fun _ t => watched_finish _ t)
    · exact watched_finish _ s
  · exact watched_finish _ s

theorem watched_eeModifyBit (f : Byte → Byte → Byte) (s : State) : Watched s (eeModifyBit f s) := by
  unfold eeModifyBit
  split
  · split
    · rw [Flow.finally_bind]
      exact (watched_frameRead ..).finallyWatched fun b t =>
        .trans (t := { t with tmp := f (b.headD 0) t.latch.bitn }) (.still rfl rfl) (watched_writeChunkEnds ..)
    · exact watched_finish _ s
  · exact watched_finish _ s

theorem watched_clearOnlyWrite (v : Byte) (s : State) : Watched s (clearOnlyWrite v s) := by
  refine (watched_frameRead ..).finallyWatched fun b t => .trans (t := { t with tmp := b.headD 0 }) (.still rfl rfl) ?_
  dsimp only
  split
  · exact watched_writeChunkEnds ..
  · exact watched_finish _ _

/-- Every host operation, on any device in any state. -/
theorem operation_watched {i : Instr} {o : Operation} (hi : operationOf i = some o) (s : State) :
    Watched s (o.body s) := by
  cases i <;> cases hi <;> dsimp only
  case eeReadByte | norReadByte => exact watched_opReadByte _ s
  case eeReadArray | norReadArray => exact watched_opReadArray _ s
  case eeWriteArray | norWriteArray => exact watched_opWriteArray _ s
  case eeSetBit | eeClearBit => exact watched_eeModifyBit _ s
  case norSetBit => exact watched_finish _ s
  case eeWriteByte =>
    split
    · exact watched_writeChunkEnds ..
    · exact watched_finish _ s
  case norWriteByte =>
    split
    · exact watched_clearOnlyWrite _ s
    · exact watched_finish _ s
  case norClearBit =>
    split
    · split
      · exact (watched_frameRead ..).finallyWatched fun _ t => watched_clearOnlyWrite _ t
      · exact watched_finish _ s
    · exact watched_finish _ s
  case norEraseSector =>
    split
    · exact (watched_writeCycle .nor (watched_frameErase _) s).finallyWatched fun _ t => watched_finish _ t
    · exact watched_finish _ s

/-- The first moment of an accepted request is the acceptance: `STATUS` as it was but for `BUSY` = 1 (R132). -/
theorem request_watched {i : Instr} {o : Operation} (hi : operationOf i = some o) {s : State} (hb : s.busy = false) :
    ∃ t ws, exec i s = .next t ∧ Looks (statusWord { s with busy := true } :: ws) s t := by
  obtain ⟨ws, hw⟩ := operation_watched hi (hostPoint (accept o.op o.dev o.req s))
  have ha : Looks [] s (accept o.op o.dev o.req s) := .still rfl rfl
  exact ⟨_, ws, by rw [exec_operation hi, request_free hb], ha.trans ((Looks.hostPoint rfl).trans hw)⟩

/-! ### The values of `PHASE` along a write cycle (R129) -/

/-- The operation in progress shows `phase` at the values `ps`, one for each moment, and the rest of `STATUS` stays. -/
structure Shows (ps : List Phase) (s t : State) : Prop where
  looks : Looks (ps.map fun p => statusWord { s with phase := p }) s t
  busy : t.busy = s.busy
  outcome : t.outcome = s.outcome
  rdata : t.rdata = s.rdata

theorem Shows.trans {ps qs : List Phase} {s t u : State} (h : Shows ps s t) (g : Shows qs t u) : Shows (ps ++ qs) s u where
  looks := by
    have hw : ∀ p, statusWord { t with phase := p } = statusWord { s with phase := p } := fun p => by
      simp only [statusWord, h.busy, h.outcome, h.rdata]
    have := h.looks.trans g.looks
    simpa only [hw, ← List.map_append] using this
  busy := g.busy.trans h.busy
  outcome := g.outcome.trans h.outcome
  rdata := g.rdata.trans h.rdata

theorem Shows.enterPhase {s : State} (hb : s.busy = true) (p : Phase) : Shows [p] s (enterPhase p s) :=
  ⟨.enterPhase hb p, by simp, by simp, by simp⟩

/-- What reaches nothing the host can read in `STATUS` or in its queue, `phase` aside. -/
structure Hidden (s t : State) : Prop where
  inbox : t.inbox = s.inbox
  hostData : t.hostData = s.hostData
  busy : t.busy = s.busy
  outcome : t.outcome = s.outcome
  rdata : t.rdata = s.rdata

theorem Hidden.shows {s t : State} (h : Hidden s t) : Shows [] s t :=
  ⟨.still h.inbox h.hostData, h.busy, h.outcome, h.rdata⟩

/-- A transition that comes after what the host cannot see. -/
theorem Hidden.enterPhase {s t : State} (h : Hidden s t) (hb : t.busy = true) (p : Phase) : Shows [p] s (enterPhase p t) :=
  h.shows.trans (.enterPhase hb p)

/-- A frame, performed whole, and the sequencer's own registers. -/
theorem hidden_framed (s : State) (d : Dev) (v : Device) (es : List Event) (n : Nat) :
    Hidden s ((s.skipDraws n).framed d v es) :=
  ⟨by simp, by simp, by simp, by simp, by simp⟩

theorem limitHit_iff (limit : Option Nat) (count : Nat) :
    limitHit limit count = true ↔ ∃ n, limit = some n ∧ n ≤ count := by
  cases limit <;> simp [limitHit]

/-- The end of a wait (R127): the device is ready, or the limit is reached. -/
def pollEnds (s : State) : Prop := busyBit s.st = false ∨ limitHit s.params.pollLimit (s.pollcnt + 1) = true

/-- When a wait ends, `phase` goes to `Idle` while `BUSY` is still 1, and the host may look (R129). -/
theorem judgeStatus_ends {d : Dev} {s : State} (hb : s.busy = true) (h : pollEnds s) :
    ∃ b t, judgeStatus d s = .go b t ∧ Shows [.idle] s t ∧ t.latch = s.latch := by
  unfold judgeStatus
  split
  · exact ⟨true, _, rfl, .enterPhase hb _, by simp⟩
  · rename_i hst
    have hlim := h.resolve_left hst
    have hc : Hidden s { s with pollcnt := s.pollcnt + 1 } := ⟨rfl, rfl, rfl, rfl, rfl⟩
    exact ⟨false, _, if_pos hlim, hc.enterPhase hb .idle, by simp⟩

/-- A ready device ends a wait with `ready` (R127). -/
theorem judgeStatus_ready (d : Dev) {s : State} (h : busyBit s.st = false) :
    judgeStatus d s = .go true (enterPhase .idle s) :=
  if_pos h

/-- When a wait goes on, the step ends without a moment for the host (R127). -/
theorem judgeStatus_goesOn {d : Dev} {s : State} (hf : s.fuse = none) (h : ¬ pollEnds s) :
    ∃ t, judgeStatus d s = .halt t ∧ t.inbox = s.inbox ∧ t.hostData = s.hostData := by
  simp only [pollEnds, not_or, Bool.not_eq_true] at h
  obtain ⟨hst, hlim⟩ := h
  simp only [judgeStatus, hst, Bool.false_eq_true, if_false, hlim, delay, hf, Flow.bind_go]
  exact ⟨_, rfl, rfl, rfl⟩

/-- A read-status frame, as the poll loop that sent it finds the machine: the busy flag in `st`, and nothing else changed of
what the loop and the host look at (R123, R127). -/
structure Sampled (d : Dev) (s t : State) : Prop extends Hidden s t where
  st : busyBit t.st = (s.device d).sample.1
  phase : t.phase = s.phase
  latch : t.latch = s.latch
  params : t.params = s.params
  pollcnt : t.pollcnt = s.pollcnt
  fuse : t.fuse = none

theorem frameRdsr_sampled {d : Dev} {s : State} (x : Byte) (hf : s.fuse = none) (hl : (s.device d).lost = none) :
    ∃ t, frameRdsr d x s = .go () t ∧ Sampled d s t := by
  refine ⟨_, frameRdsr_lostFree d x s hf hl, ⟨⟨?_, ?_, ?_, ?_, ?_⟩, busyBit_statusOfDraw _ _, ?_, ?_, ?_, ?_, ?_⟩⟩
  all_goals simp [hf]

/-- A wait that is over at its first status read shows `Polling` and then `Idle` (R127, R129). -/
theorem waitReady_shows {d : Dev} {s : State} (hf : s.fuse = none) (hl : (s.device d).lost = none) (hbusy : s.busy = true)
    (hs : (s.device d).sample.1 = false) : ∃ t, waitReady d s = .go true t ∧ Shows [.polling, .idle] s t := by
  set u : State := { enterPhase .polling s with pollcnt := 0 } with hu
  have hdev : u.device d = s.device d := by cases d <;> simp [hu, State.device]
  have hP : Shows [.polling] s u := (Shows.enterPhase hbusy .polling).trans (Hidden.shows ⟨rfl, rfl, rfl, rfl, rfl⟩)
  obtain ⟨t, ht, hT⟩ := frameRdsr_sampled (d := d) (s := u) s.params.dummyOut (by simp [hu, hf]) (by rw [hdev, hl])
  have hst : busyBit t.st = false := by rw [hT.st, hdev, hs]
  have hbt : t.busy = true := by rw [hT.busy, hP.busy, hbusy]
  exact ⟨_, by rw [waitReady, ht]; exact judgeStatus_ready d hst, hP.trans (hT.enterPhase hbt .idle)⟩

/-- A write cycle whose wait is over at once shows the four transitions of R129 in turn. -/
theorem writeCycle_shows {d : Dev} {body : State → Flow Unit} {mem : List Host.Cell} {es : List Event} {s : State}
    (hq : Quiet d s) (hbusy : s.busy = true) (hr : ReadyAtOnce s) (hb : Body d s body mem es) :
    ∃ t, writeCycle d body s = .go true t ∧ Shows [.writeEnabled, .commandIssued, .polling, .idle] s t := by
  have hwren := frameWren_quiet d s hq
  obtain ⟨hf, hl, hd⟩ := hq
  -- the write-enable frame and the first transition
  set u := enterPhase .writeEnabled (s.framed d { (s.device d).close with wel := true } (wrenEvents d)) with hu
  have hdev : u.device d = { (s.device d).close with wel := true } := by simp [hu]
  have hU : Shows [.writeEnabled] s u := (hidden_framed s d _ _ 0).enterPhase (by simp [hbusy]) _
  -- the program or erase frame and the second
  have hbody := hb u ⟨by simp [hu, hf], by rw [hdev]; exact hl, by rw [hdev]; exact hd⟩ (by rw [hdev]) (by rw [hdev]; rfl)
  set v : Device := ({ u.device d with mem := mem }.startBusy (u.drawAt 0)).close with hv
  set w := enterPhase .commandIssued ((u.skipDraws 1).framed d v es) with hw
  have hdevw : w.device d = v := by simp [hw]
  have hW : Shows [.commandIssued] u w := (hidden_framed u d v es 1).enterPhase (by simp [hu, hbusy]) _
  -- the wait
  have hready : busyOfDraw (u.drawAt 0) = some 0 := by
    rw [hu, enterPhase_drawAt, framed_drawAt]
    exact hr
  obtain ⟨t, ht, hT⟩ := waitReady_shows (d := d) (s := w) (by simp [hw, hu, hf]) (by rw [hdevw, hv, hdev]; exact hl)
    (by simp [hw, hu, hbusy]) (by rw [hdevw, hv, sample_startBusy_ready _ _ _ hready])
  refine ⟨t, ?_, hU.trans (hW.trans hT)⟩
  rw [writeCycle, hwren, Flow.bind_go, hbody, Flow.bind_go, ht]

/-! ### What the host reads -/

/-- A read of `STATUS` that waits for moment `k` finds `phase` at its value there. -/
theorem Shows.read {ps : List Phase} {s t : State} (h : Shows ps s t) {k : Nat} {ms : List HostMove} {p : Phase}
    (hm : unobserved ms = true) (hi : s.inbox = .during k (.read .status) :: ms) (hk : ps[k]? = some p) :
    t.inbox = ms ∧ t.hostData = statusWord { s with phase := p } :=
  h.looks.seen k ms _ hm hi (by simp [hk])

theorem programFits_byte (d : Dev) {a : Nat} (h : a < d.size) (v : Byte) : programFits d a [v].length = true := by
  have : a % d.page < d.page := Nat.mod_lt _ (by cases d <;> decide)
  simp only [programFits, List.length_singleton, Bool.and_eq_true, decide_eq_true_eq]
  omega

/-- The acceptance of a request from `Idle` shows `Idle` with `BUSY` = 1 (R132). -/
theorem accept_shows (op : BitVec 4) (d : Dev) (r : Req) {s : State} (hp : s.phase = .idle) :
    Shows [.idle] (accept op d r s) (hostPoint (accept op d r s)) where
  looks := by
    have h : statusWord { accept op d r s with phase := .idle } = statusWord (accept op d r s) := by rw [← hp]; rfl
    rw [List.map_singleton, h]
    exact .hostPoint rfl
  busy := by simp
  outcome := by simp
  rdata := by simp

/-- An EEPROM `writeByte` whose wait is over at once: the acceptance and the four transitions of its cycle (R132, R161). -/
theorem eeWriteByte_shows {r : Req} {s : State} (hb : s.busy = false) (hp : s.phase = .idle) (ha : r.addr.toNat < 512)
    (hq : Quiet .ee s) (hr : ReadyAtOnce s) :
    ∃ t, exec (.eeWriteByte r) s = .next (finishReady true t) ∧
      Shows [.idle, .writeEnabled, .commandIssued, .polling, .idle] (accept 2 .ee r s) t := by
  set u := hostPoint (accept 2 .ee r s) with hu
  have hqu : Quiet .ee u := by simpa [Quiet, hu] using hq
  have hru : ReadyAtOnce u := by
    rw [ReadyAtOnce, hu, hostPoint_drawAt]
    exact hr
  obtain ⟨t, ht, hT⟩ := writeCycle_shows hqu (by simp [hu]) hru
    (body_program .ee u r.addr [r.val] (programFits_byte .ee ha r.val))
  refine ⟨t, ?_, (accept_shows 2 .ee r hp).trans hT⟩
  have hl : u.latch = (accept 2 .ee r s).latch := hostPoint_latch _
  have hbody : (if validAddr .ee u.latch.addr then (writeChunk .ee u.latch.addr [u.latch.val] u).finally finishReady
      else finish .outOfRange u) = finishReady true t := by
    have hv : validAddr .ee r.addr = true := decide_eq_true ha
    simp only [hl, accept_latch, hv, if_true, writeChunk, ht, Flow.finally_go]
  rw [exec_operation rfl, request_free hb]
  exact congrArg _ hbody

/-- A frame that reads one byte of a device that is ready. -/
theorem frameRead_byte {d : Dev} {s : State} (a : Word) (hq : Quiet d s) (ha : a.toNat < d.size) :
    ∃ t, frameRead d a 1 s = .go [Memory.read (s.device d).mem a.toNat] t ∧ Hidden s t ∧ t.phase = s.phase :=
  ⟨_, frameReadOuts_quiet d a [s.params.dummyOut] s hq ha, hidden_framed s d _ _ 0, framed_phase ..⟩

/-- A `readByte` in the device shows the acceptance, and then the byte read with `BUSY` still 1 (R160). -/
theorem eeReadByte_looks {r : Req} {s : State} (hb : s.busy = false) (ha : r.addr.toNat < 512) (hq : Quiet .ee s) :
    ∃ t, exec (.eeReadByte r) s = .next t ∧
      Looks [statusWord { s with busy := true },
        statusWord { s with busy := true, rdata := Memory.read s.ee.mem r.addr.toNat }] s t := by
  set u := hostPoint (accept 1 .ee r s) with hu
  have hacc : Looks [statusWord { s with busy := true }] s u := (Looks.hostPoint (s := accept 1 .ee r s) rfl).before rfl rfl
  have hqu : Quiet .ee u := by simpa [Quiet, hu] using hq
  obtain ⟨v, hv, hV, hp⟩ := frameRead_byte r.addr hqu ha
  have hmem : (u.device .ee).mem = s.ee.mem := by simp [hu]
  rw [hmem] at hv
  set w := v.setRdata (Memory.read s.ee.mem r.addr.toNat) with hw
  have hstatus : statusWord w = statusWord { s with busy := true, rdata := Memory.read s.ee.mem r.addr.toNat } := by
    simp [statusWord, hw, hV.busy, hV.outcome, hp, hu]
  have hread : Looks [statusWord w] u (finish .ok (hostPoint w)) :=
    ((Looks.hostPoint (s := w) (by simp [hw, hV.busy, hu])).before hV.inbox hV.hostData).after rfl rfl
  have hbody : opReadByte .ee u = finish .ok (hostPoint w) := by
    have hl : u.latch.addr = r.addr := by simp [hu]
    have hva : validAddr .ee r.addr = true := decide_eq_true ha
    simp only [opReadByte, hl, hva, if_true, hv, Flow.finally_go, List.headD_cons, ← hw]
  rw [hstatus] at hread
  refine ⟨finish .ok (hostPoint w), ?_, hacc.trans hread⟩
  rw [exec_operation rfl, request_free hb]
  exact congrArg _ hbody

/-- One turn of a loop that waits, with a host that watches `STATUS` (R127): the wait ends and the host may look at `Idle` with
`BUSY` = 1, or it goes on and the host's side stays. -/
theorem step_waiting {d : Dev} {s : State} (hw : Waiting d { s with inbox := [] }) (hl : (s.device d).lost = none)
    (hop : s.latch.op ≠ 4) (hm : nextMove s = none) :
    let ends := (s.device d).sample.1 = false ∨ ∃ n, s.params.pollLimit = some n ∧ n ≤ s.pollcnt + 1
    ∃ t, step s = .next t ∧ (ends → Looks [statusWord { s with phase := .idle }] s t) ∧
      (¬ ends → t.inbox = s.inbox ∧ t.hostData = s.hostData) := by
  intro ends
  obtain ⟨hb, hp, hd, hfr, hg, -, hf⟩ : s.busy = true ∧ s.phase = .polling ∧ s.latch.dev = d ∧
    s.frame = some (d, rdsrBytes s) ∧ s.go = false ∧ _ ∧ s.fuse = none := hw
  have hdev : State.device { s with frame := none } d = s.device d := by cases d <;> rfl
  obtain ⟨u, hu, hU⟩ := frameRdsr_sampled (s := { s with frame := none }) (d := d) s.params.dummyOut hf (by rw [hdev, hl])
  have hst : busyBit u.st = (s.device d).sample.1 := by rw [hU.st, hdev]
  have hends : pollEnds u ↔ ends := by rw [pollEnds, hst, hU.params, hU.pollcnt, limitHit_iff]
  have hstep : step s = .next ((judgeStatus d u).finally (afterWait d)) := by
    rw [step_frame (by simp [hf]) hg hm, stepFrame_rdsr hfr, hu, Flow.state_go,
      afterFrame_polling (hU.busy.trans hb) (hU.phase.trans hp) (by rw [hU.latch, hd]) rfl]
  by_cases he : pollEnds u
  · obtain ⟨b, t, ht, hT, hlt⟩ := judgeStatus_ends (d := d) (hU.busy.trans hb) he
    have hopt : t.latch.op ≠ 4 := by rw [hlt, hU.latch]; exact hop
    have hstatus : statusWord { u with phase := .idle } = statusWord { s with phase := .idle } := by
      simp only [statusWord, hU.busy, hU.outcome, hU.rdata]
    have hL : Looks [statusWord { u with phase := .idle }] { s with frame := none } t := hT.looks.before hU.inbox hU.hostData
    rw [hstatus] at hL
    refine ⟨finishReady b t, ?_, fun _ => Looks.after (t := t) (hL.before rfl rfl) rfl rfl, fun hn => absurd (hends.1 he) hn⟩
    rw [hstep, ht, Flow.finally_go, afterWait, if_neg fun h => hopt h.1]
  · obtain ⟨t, ht, hi, hh⟩ := judgeStatus_goesOn (d := d) hU.fuse he
    refine ⟨t, by rw [hstep, ht, Flow.finally_halt], fun hn => absurd (hends.2 hn) he, fun _ => ?_⟩
    exact ⟨hi.trans hU.inbox, hh.trans hU.hostData⟩

/-- Settles O10: the moments of each operation, of an EEPROM `writeByte` and `readByte`, and of one turn of a poll loop. -/
theorem hostReadsStatusDuringAnOperation : Obligations.HostReadsStatusDuringAnOperation := by
  refine ⟨fun r s k ms hb hp hi hm => ⟨?_, ?_, ?_⟩, fun d s ms hw hl hi hm hop => ?_⟩
  · rintro rfl row hrow
    obtain ⟨o, ho⟩ := operationOf_requestTable hrow r
    obtain ⟨t, ws, ht, hT⟩ := request_watched ho hb
    exact ⟨t, ht, hT.seen 0 ms _ hm hi rfl⟩
  · intro ha hq hr p hk
    obtain ⟨t, ht, hT⟩ := eeWriteByte_shows hb hp ha hq hr
    exact ⟨_, ht, hT.read hm hi hk⟩
  · rintro ha hq rfl
    obtain ⟨t, ht, hT⟩ := eeReadByte_looks hb ha hq
    exact ⟨t, ht, hT.seen 1 ms _ hm hi rfl⟩
  · have hn : nextMove s = none := by
      have hbusy : s.busy = true := hw.1
      simp [nextMove, hi, HostMove.waits, hbusy]
    obtain ⟨t, ht, hend, hgo⟩ := step_waiting hw hl hop hn
    exact ⟨t, ht, fun he => (hend he).seen 0 ms _ hm hi rfl, hgo⟩

end Sys2Proof.Machine
end

section
/-! A relation along a step: what every procedure keeps, every step keeps. With it, the canonical memories (R50, R51, R53). -/

namespace Sys2Proof.Machine

/-! ### The opcode of a frame (R100) -/

/-- The opcode byte of a wire frame (R94 to R98). -/
def opcodeOf : Frame → Byte
  | .wren => Config.opcWren
  | .rdsr _ => Config.opcRdsr
  | .read _ _ => Config.opcRead
  | .program _ _ => Config.opcProgram
  | .erase _ => Config.opcSe

/-- The bytes of a frame begin with its opcode. -/
theorem head_of_parseFrame {d : Dev} {bytes : List Byte} {f : Frame} (h : parseFrame d bytes = .ok f) :
    bytes.head? = some (opcodeOf f) := by
  cases bytes with
  | nil => cases h
  | cons c rest =>
    simp only [parseFrame] at h
    split_ifs at h with hw hr hd hp he
    · split at h <;> cases h; rw [hw]; rfl
    · split at h <;> cases h; rw [hr]; rfl
    · split at h <;> cases h; rw [hd]; rfl
    · split at h <;> cases h; rw [hp]; rfl
    · split at h <;> cases h; rw [he.1]; rfl

section
variable {d : Dev} {ok : Byte → Prop} {R : State → State → Prop}

/-- A read frame run by itself, unless it is refused. -/
theorem Closed.runRead (h : Closed d ok R) (hr : ok Config.opcRead) {a : Word} {outs : List Byte} {s t : State}
    (ht : runRead d a outs s = .next t) : R s t := by
  unfold Machine.runRead at ht
  split at ht <;> cases ht
  exact h.frameReadOuts hr a outs s

/-- A program frame run by itself, unless it stops. -/
theorem Closed.runProgram (h : Closed d ok R) (hp : ok Config.opcProgram) {a : Word} {data : List Byte} {s t : State}
    (ht : runProgram d a data s = .next t) : R s t := by
  unfold Machine.runProgram at ht
  split at ht <;> cases ht
  exact h.frameProgram hp a data s

/-- A wire frame run by itself. -/
theorem Closed.execFrame (h : Closed d ok R) {bytes : List Byte} {i : Instr} {s t : State}
    (hok : ∀ c, bytes.head? = some c → ok c) (hi : decode (.frame d bytes) = .ok i) (ht : Machine.exec i s = .next t) :
    R s t := by
  cases hf : parseFrame d bytes with
  | error e => simp [decode, hf] at hi
  | ok f =>
    have hc : ok (opcodeOf f) := hok _ (head_of_parseFrame hf)
    simp only [decode, hf] at hi
    cases f with
    | wren => cases d <;> cases hi <;> cases ht <;> exact h.frameWren hc s
    | rdsr x => cases d <;> cases hi <;> cases ht <;> exact h.frameRdsr hc x s
    | read a outs => cases d <;> cases hi <;> exact h.runRead hc ht
    | program a data => cases d <;> cases hi <;> exact h.runProgram hc ht
    | erase a =>
      cases d with
      | ee => cases hi
      | nor =>
        simp only [Frame.toInstr] at hi
        split at hi <;> cases hi
        cases ht
        exact h.frameErase hc _ s

/-- A request that is illegal: only the latch and the outcome change (R207). -/
theorem Closed.acceptIllegal (h : Closed d ok R) (s : State) : R s (acceptIllegal s) := by
  unfold Machine.acceptIllegal
  split
  · exact h.refl s
  · exact h.quiet (by simp) (by simp) (by simp) (by simp) (by simp) (by simp) (by simp) (by simp)

/-- The step that accepts a request, legal or not (R132, R105). -/
theorem Closed.stepRequest (h : Closed d ok R) {s t : State}
    (hi : ∀ i, decode (requestCode s) = .ok i → Closed (deviceOf i) (fun _ => True) R) (ht : stepRequest s = .next t) :
    R s t := by
  refine h.trans (t := { s with go := false }) (h.quiet rfl rfl rfl rfl rfl rfl rfl rfl) ?_
  unfold Machine.stepRequest at ht
  split at ht
  · rename_i i hd
    exact (hi i hd).exec ht
  · cases ht
    exact h.acceptIllegal _

/-- A later step of an operation: the frame that stands ready, and what the sequencer goes on with (R127). -/
theorem Closed.stepFrame {s t : State} (hrefl : R s s) (h : ∀ e bytes, s.frame = some (e, bytes) → Closed e ok R)
    (hok : ∀ e bytes c, s.frame = some (e, bytes) → bytes.head? = some c → ok c) (hw : ok Config.opcWren)
    (hr : ok Config.opcRdsr) (hp : ok Config.opcProgram) (ht : stepFrame s = .next t) : R s t := by
  unfold Machine.stepFrame at ht
  split at ht
  · cases ht; exact hrefl
  rename_i e bytes hf
  have hc := h e bytes hf
  split at ht
  · cases ht
  rename_i i hi
  split at ht
  · rename_i u hu
    cases ht
    have hfree : R s { s with frame := none } := hc.quiet rfl rfl rfl rfl rfl rfl rfl rfl
    have hrun : R { s with frame := none } u := hc.execFrame (fun c => hok e bytes c hf) hi hu
    exact hc.trans hfree (hc.trans hrun (hc.afterFrame hw hr hp bytes u))
  · cases ht
  · cases ht

/-- Every step, if the host's moves keep to `R` too. -/
theorem Closed.step {s t : State} (h : ∀ d, Closed d (fun _ => True) R)
    (hmove : ∀ m, hostMove m { s with inbox := s.inbox.drop 1 } = .next t → R { s with inbox := s.inbox.drop 1 } t)
    (ht : step s = .next t) : R s t := by
  by_cases hf : s.fuse = some 0
  · rw [step_reset hf] at ht
    cases ht
    exact (h .ee).reset s (by simp [hf])
  cases hg : s.go with
  | true => exact (h .ee).stepRequest (fun i _ => h _) (step_go hf hg ▸ ht)
  | false =>
    cases hm : nextMove s with
    | some m =>
      have hq : R s { s with inbox := s.inbox.drop 1 } := (h .ee).quiet rfl rfl rfl rfl rfl rfl rfl rfl
      exact (h .ee).trans hq (hmove m (step_next hf hg hm ▸ ht))
    | none =>
      exact Closed.stepFrame ((h .ee).refl s) (fun e _ _ => h e) (fun _ _ _ _ _ => trivial) trivial trivial trivial
        (step_frame hf hg hm ▸ ht)

end

/-! ### The canonical memories (R50, R51, R53) -/

/-- No procedure destroys the canonical form or leaves a device's address range, whatever its frames and whether or not a reset
strikes. -/
theorem closed_memoriesWf (d : Dev) : Closed d (fun _ => True) fun s t => memoriesWf s = true → memoriesWf t = true where
  trans h k hm := k (h hm)
  frame c tl recvs s _ hm := by
    rcases performFrame_cases d (c :: tl) recvs s with ⟨bs, v, n, k, -, -, ho, he⟩ | ⟨-, bs, v, n, j, -, hv, he⟩
    · rw [he]
      exact memoriesWf_setDevice hm (fun P hP h0 => kept_obeyMem hP ho h0) (fun d' => device_went s d d' v _ n k) (by simp)
    · rw [he]
      exact memoriesWf_setDevice hm hv (fun d' => device_cut s d d' v _ n) (by simp [applyReset])
  stay s t hl hm := by
    have hbuf : Memory.wf t.buf = true := by
      have hwf : Memory.wf s.buf = true := ((memoriesWf_iff s).1 hm).2
      rcases hl.buf with hb | ⟨bs, hb⟩
      · rw [hb]; exact hwf
      · rw [hb]; exact Memory.wf_writeMany 0 bs hwf
    simp only [memoriesWf, Bool.and_eq_true] at hm ⊢
    rw [hl.ee, hl.nor]
    exact ⟨hm.1, hbuf⟩
  reset _ _ hm := hm

theorem writeReg_memoriesWf (r : HostReg) (v : Word) (s : State) : memoriesWf (writeReg r v s) = memoriesWf s := by
  obtain ⟨c, a, l, g, he, -⟩ := writeReg_eq r v s
  rw [he]
  rfl

/-- A move of the host, the platform or a device (R247) keeps the canonical form: only a write to `Buf` reaches a memory. -/
theorem hostMove_memoriesWf {m : HostMove} {s t : State} (hm : memoriesWf s = true) (ht : hostMove m s = .next t) :
    memoriesWf t = true := by
  cases m with
  | writeReg r v => cases ht; rw [writeReg_memoriesWf]; exact hm
  | readReg r => cases ht; exact hm
  | during k m =>
    cases ht
    cases m with
    | write r v => exact (writeReg_memoriesWf r v s).trans hm
    | read r => exact hm
  | writeBuf i v =>
    simp only [hostMove] at ht
    split at ht <;> cases ht
    obtain ⟨hd, hb⟩ := (memoriesWf_iff s).1 hm
    exact (memoriesWf_iff _).2 ⟨hd, Memory.wf_write i v hb⟩
  | readBuf i =>
    simp only [hostMove] at ht
    split at ht <;> cases ht
    exact hm
  | awaitIdle => cases ht; exact hm
  | reset n => cases ht; cases n <;> exact hm
  | deviceReady d => cases ht; cases d <;> exact hm

/-- Settles O57: the procedures of the sequencer keep the canonical form, and so do the host's moves. -/
theorem stepKeepsTheMemories : Obligations.StepKeepsTheMemories := by
  intro s t hm ht
  exact Closed.step closed_memoriesWf (fun m hmove h0 => hostMove_memoriesWf h0 hmove) ht hm

end Sys2Proof.Machine
end

section
/-! What the host does on its registers inside an operation does not reach the operation (R73, R247): every instruction and
every step of the sequencer's own takes states that differ on the host's side alone to such states. -/

namespace Sys2Proof.Machine

/-! ### The procedures and instructions the operations are made of -/

/-- Procedures that end alike leave alike states. -/
theorem Flow.Alike.state {α : Type} {m n : Flow α} (h : m.Alike n) : Machine.Alike m.state n.state := by
  cases m <;> cases n
  · exact h.2
  · exact h.elim
  · exact h.elim
  · exact h

/-- Both answer next states related by `R`, or both stop for the same reason. -/
def BothAnswer (R : State → State → Prop) : Host.Outcome State Fault Refusal → Host.Outcome State Fault Refusal → Prop
  | .next s, .next t => R s t
  | .fault f, .fault g => f = g
  | .refused r, .refused q => r = q
  | _, _ => False

theorem BothAnswer.next {R : State → State → Prop} {o o' : Host.Outcome State Fault Refusal} (h : BothAnswer R o o')
    {s : State} (ho : o = .next s) : ∃ t, o' = .next t ∧ R s t := by
  subst ho
  cases o' with
  | next t => exact ⟨t, rfl, h⟩
  | fault f => exact h.elim
  | refused r => exact h.elim

/-- A later step of an operation answers alike on both sides if its frame and what comes after it do (R127). -/
theorem BothAnswer.stepFrame {R : State → State → Prop} {s t : State} (h : R s t) (hf : t.frame = s.frame)
    (he : ∀ d bytes i, decode (.frame d bytes) = .ok i →
      BothAnswer R (exec i { s with frame := none }) (exec i { t with frame := none }))
    (ha : ∀ d bytes u v, R u v → R (afterFrame d bytes u) (afterFrame d bytes v)) :
    BothAnswer R (stepFrame s) (stepFrame t) := by
  unfold Machine.stepFrame
  rw [hf]
  split
  · exact h
  · rename_i d bytes _
    split
    · rfl
    · rename_i i hi
      have he := he d bytes i hi
      generalize Machine.exec i { s with frame := none } = o at he ⊢
      generalize Machine.exec i { t with frame := none } = o' at he ⊢
      cases o <;> cases o'
      case next.next => exact ha d bytes _ _ he
      case fault.fault | refused.refused => exact he
      all_goals exact he.elim

section
variable {s t : State}

theorem Alike.accept (h : Alike s t) (op : BitVec 4) (d : Dev) (r : Req) : Alike (accept op d r s) (accept op d r t) :=
  h.map (Machine.accept op d r) fun _ _ _ _ _ _ => rfl

theorem Alike.request (h : Alike s t) {op : BitVec 4} {d : Dev} {r : Req} {body : State → State}
    (hb : ∀ {u v}, Alike u v → Alike (body u) (body v)) : BothAnswer Alike (request op d r body s) (request op d r body t) := by
  unfold Machine.request
  rw [h.busy]
  split
  · exact h
  · exact hb (h.accept op d r).hostPoint

/-- The body of every host operation. -/
theorem Alike.operation (h : Alike s t) {i : Instr} {o : Operation} (hi : operationOf i = some o) :
    Alike (o.body s) (o.body t) := by
  cases i <;> cases hi <;> dsimp only
  case eeReadByte | norReadByte => exact h.opReadByte _
  case eeReadArray | norReadArray => exact h.opReadArray _
  case eeWriteArray | norWriteArray => exact h.opWriteArray _
  case eeSetBit | eeClearBit => exact h.eeModifyBit _
  case norSetBit => exact h.finish _
  case eeWriteByte =>
    rw [h.latch]
    split
    · exact h.writeChunkEnds .ee _ _
    · exact h.finish _
  case norWriteByte =>
    rw [h.latch]
    split
    · exact h.clearOnlyWrite _
    · exact h.finish _
  case norClearBit =>
    rw [h.latch]
    split
    · split
      · refine (h.frameRead .nor _ _).finally fun b u v k => ?_
        rw [k.latch]
        exact k.clearOnlyWrite _
      · exact h.finish _
    · exact h.finish _
  case norEraseSector =>
    rw [h.latch]
    split
    · exact (h.writeCycle .nor fun _ _ k => k.frameErase _).finally fun _ _ _ k => k.finish _
    · exact h.finish _

theorem Alike.frameReadOuts (h : Alike s t) (d : Dev) (a : Word) (outs : List Byte) :
    (frameReadOuts d a outs s).Alike (frameReadOuts d a outs t) :=
  h.performFrame d _ _

theorem Alike.runRead (h : Alike s t) (d : Dev) (a : Word) (outs : List Byte) :
    BothAnswer Alike (runRead d a outs s) (runRead d a outs t) := by
  unfold Machine.runRead
  split
  · exact (h.frameReadOuts d a outs).state
  · rfl

theorem Alike.runProgram (h : Alike s t) (d : Dev) (a : Word) (data : List Byte) :
    BothAnswer Alike (runProgram d a data s) (runProgram d a data t) := by
  unfold Machine.runProgram
  split
  · exact (h.frameProgram d a data).state
  · rfl

/-- Every instruction, a host operation or a wire frame. -/
theorem Alike.exec (h : Alike s t) (i : Instr) : BothAnswer Alike (exec i s) (exec i t) := by
  cases ho : operationOf i with
  | some o =>
    rw [exec_operation ho, exec_operation ho]
    exact h.request fun k => k.operation ho
  | none =>
    cases i <;> simp only [operationOf, reduceCtorEq] at ho
    case eeWren | norWren => exact (h.frameWren _).state
    case eeRdsr | norRdsr => exact (h.frameRdsr _ _).state
    case eeRead | norRead => exact h.runRead _ _ _
    case eeProgram | norProgram => exact h.runProgram _ _ _
    case norSe => exact (h.frameErase _).state

/-! ### The steps the sequencer takes by itself -/

/-- An illegal request, when the registers that hold it are the same (R105, R207). -/
theorem Alike.acceptIllegal (h : Alike s t) (hc : t.reqCtrl = s.reqCtrl) (ha : t.reqAddr = s.reqAddr)
    (hl : t.reqLen = s.reqLen) : Alike (acceptIllegal s) (acceptIllegal t) := by
  unfold Machine.acceptIllegal
  rw [h.busy, hc, ha, hl]
  split
  · exact h
  · exact (h.accept _ _ _).hostPoint.finish _

/-- The step that accepts a request, when the registers that hold it are the same (R132, R105). -/
theorem Alike.stepRequest (h : Alike s t) (hc : t.reqCtrl = s.reqCtrl) (ha : t.reqAddr = s.reqAddr)
    (hl : t.reqLen = s.reqLen) : BothAnswer Alike (stepRequest s) (stepRequest t) := by
  have hg : Alike { s with go := false } { t with go := false } :=
    h.map (fun s => { s with go := false }) fun _ _ _ _ _ _ => rfl
  have hcode : requestCode t = requestCode s := by rw [requestCode, requestCode, hc, ha, hl]
  unfold Machine.stepRequest
  rw [hcode]
  split
  · exact hg.exec _
  · exact hg.acceptIllegal hc ha hl

/-- A later step of an operation. -/
theorem Alike.stepFrame (h : Alike s t) : BothAnswer Alike (stepFrame s) (stepFrame t) := by
  have hn : Alike { s with frame := none } { t with frame := none } :=
    h.map (fun s => { s with frame := none }) fun _ _ _ _ _ _ => rfl
  exact BothAnswer.stepFrame h h.frame (fun _ _ i _ => hn.exec i) fun d bytes _ _ k => k.afterFrame d bytes

end

/-- The state of a step of the sequencer's own, with the host's moves taken away. -/
theorem alike_withoutMoves (s : State) : Alike { s with inbox := [] } s := rfl

/-- A step that makes no move of the host takes alike states to alike states: a reset that is due, the acceptance of a request,
or the frame that stands ready. -/
theorem alike_step (s : State) (h : s.go = true ∨ nextMove s = none) :
    BothAnswer Alike (step { s with inbox := [] }) (step s) := by
  have hs := alike_withoutMoves s
  by_cases hf : s.fuse = some 0
  · rw [step_reset hf, step_reset (s := { s with inbox := [] }) hf]
    exact hs.applyReset
  by_cases hg : s.go = true
  · rw [step_go hf hg, step_go (s := { s with inbox := [] }) hf hg]
    exact hs.stepRequest rfl rfl rfl
  · have hm : nextMove s = none := h.resolve_left hg
    rw [Bool.not_eq_true] at hg
    rw [step_frame hf hg hm, step_frame (s := { s with inbox := [] }) hf hg rfl]
    exact hs.stepFrame

/-- Settles O11: `Alike` is what the statement asks of the two next states. -/
theorem hostMovesDuringAnOperation : Obligations.HostMovesDuringAnOperation :=
  ⟨fun r s _ row _ ht => ((alike_withoutMoves s).exec (row.2 r)).next ht, fun s _ h ht => (alike_step s h).next ht⟩

end Sys2Proof.Machine
end

section
/-! The nine wire frames run by themselves (R94 to R98): on a device that is ready, outside the preconditions of R68, and at
addresses the device does not have. -/

namespace Sys2Proof.Machine

/-! ### Addresses of a frame (R92, R93) -/

/-- A frame's address keeps its value in the sequencer's 32 bits. -/
theorem toNat_setWidth_address {w : Nat} (h : w ≤ 32) (a : BitVec w) : (a.setWidth 32).toNat = a.toNat :=
  BitVec.toNat_setWidth_of_le h

/-- Three address bytes never leave the NOR flash (R93). -/
theorem address_lt_norSize (a : BitVec 24) : (a.setWidth 32).toNat < Dev.nor.size := by
  rw [toNat_setWidth_address (by decide)]
  exact a.isLt

section
variable {d : Dev} {s : State} {a : Word} {k : Nat}

/-! ### Frames on a device that is ready -/

/-- An instruction that is one frame procedure. -/
theorem next_state {α : Type} {m : Flow α} {x : α} {t : State} (h : m = .go x t) :
    (.next m.state : Host.Outcome State Fault Refusal) = .next t := by
  rw [h, Flow.state_go]

/-- A read frame inside the device gives back its storage (R60). -/
theorem runRead_quiet {outs : List Byte} (he : a.toNat = k) (hq : Quiet d s) (ha : k < d.size) (hn : k + outs.length ≤ d.size) :
    runRead d a outs s = .next (s.framed d (s.device d).close
      (readEvents d a outs (Memory.readMany (s.device d).mem k outs.length))) := by
  subst he
  have hfit : readFits d a.toNat outs.length = true := by simp [readFits, ha, hn]
  rw [runRead, if_pos hfit, frameReadOuts_quiet d a outs s hq ha, Flow.state_go]

/-- A read frame past the end of the device is refused (U17). -/
theorem runRead_pastEnd {outs : List Byte} (he : a.toNat = k) (h : d.size ≤ k ∨ d.size < k + outs.length) :
    runRead d a outs s = .refused (.readPastEnd d k outs.length) := by
  subst he
  have hfit : ¬ readFits d a.toNat outs.length = true := by
    simp only [readFits, Bool.and_eq_true, decide_eq_true_eq]
    omega
  rw [runRead, if_neg hfit]

/-- A program frame at an address of the device is performed (R51). -/
theorem runProgram_inside {data : List Byte} (ha : a.toNat < d.size) :
    runProgram d a data s = .next (frameProgram d a data s).state :=
  if_pos (decide_eq_true ha)

/-- A program frame at an address the device does not have stops (R51). -/
theorem runProgram_outside {data : List Byte} (he : a.toNat = k) (ha : d.size ≤ k) :
    runProgram d a data s = .fault (.noSuchAddress d k) := by
  subst he
  exact if_neg (by simp [validAddr, ha])

/-- A program frame inside one page, after a write-enable (R62, R63). -/
theorem runProgram_quiet {data : List Byte} (he : a.toNat = k) (hq : Quiet d s) (hw : (s.device d).wel = true)
    (ha : k < d.size) (hn : 1 ≤ data.length) (hp : k % d.page + data.length ≤ d.page) :
    runProgram d a data s = .next ((s.skipDraws 1).framed d
      (({ s.device d with mem := programMem d (s.device d).mem k data }.startBusy (s.drawAt 0)).close)
      (programEvents d a data)) := by
  subst he
  have hfit : programFits d a.toNat data.length = true := by simp [programFits, hn, ha, hp]
  rw [runProgram_inside ha, frameProgram_quiet d a data s hq hw hfit, Flow.state_go]

/-! ### Frames outside the preconditions (R68) -/

/-- A frame that the device answers with a fault and nothing else. -/
theorem framed_misused (why : Misuse) (es : List Event) :
    s.framed d ({ s.device d with lost := some why } : Device).close es = misused d why 0 es s := by
  simp [misused, State.framed, Device.close]

/-- A frame of a device that is ready, when the device refuses to obey it (R68 (a), (c)). -/
theorem frame_misused {sends : List Byte} {f : Frame} {why : Misuse} (hq : Quiet d s) (hp : parseFrame d sends = .ok f)
    (hs : (s.device d).starts d f = false) (ho : (s.device d).obey d f 0 = { s.device d with lost := some why }) :
    performFrame d sends [] s = .go [] (misused d why 0 (frameEvents d sends [] []) s) := by
  rw [frame_sends d sends f s hq hp, hs, ho, framed_misused]
  rfl

/-- A program frame that the device refuses to obey (R68 (a), (c)). -/
theorem runProgram_misused {data : List Byte} {why : Misuse} (hq : Quiet d s) (ha : a.toNat < d.size)
    (hn : 1 ≤ data.length) (hs : (s.device d).starts d (.program a.toNat data) = false)
    (ho : (s.device d).obey d (.program a.toNat data) 0 = { s.device d with lost := some why }) :
    runProgram d a data s = .next (misused d why 0 (programEvents d a data) s) := by
  have hparse : parseFrame d (headerBytes d Config.opcProgram a ++ data) = .ok (.program a.toNat data) := by
    cases data with
    | nil => simp at hn
    | cons b data => exact parse_program d a b data ha
  rw [runProgram_inside ha, frameProgram, frame_misused hq hparse hs ho]
  rfl

/-- R68 (a) of a program frame: no write-enable came before. -/
theorem runProgram_noWriteEnable {data : List Byte} (hq : Quiet d s) (hw : (s.device d).wel = false) (ha : a.toNat < d.size)
    (hn : 1 ≤ data.length) :
    runProgram d a data s = .next (misused d .noWriteEnable 0 (programEvents d a data) s) :=
  runProgram_misused hq ha hn (by simp [Device.starts, hw]) (by simp [Device.obey, hw])

/-- R68 (c): a program frame across a page boundary. -/
theorem runProgram_pageCrossed {data : List Byte} (hq : Quiet d s) (hw : (s.device d).wel = true) (ha : a.toNat < d.size)
    (hn : 1 ≤ data.length) (hp : d.page < a.toNat % d.page + data.length) :
    runProgram d a data s = .next (misused d .pageCrossed 0 (programEvents d a data) s) := by
  have hin : ¬ d.size ≤ a.toNat := by omega
  have hout : ¬ a.toNat % d.page + data.length ≤ d.page := by omega
  exact runProgram_misused hq ha hn (by simp [Device.starts, hout]) (by simp [Device.obey, hw, hin, hp])

/-- R68 (a) of a sector-erase frame. -/
theorem frameErase_noWriteEnable (hq : Quiet .nor s) (hw : s.nor.wel = false) (ha : a.toNat < Dev.nor.size) :
    frameErase a s = .go () (misused .nor .noWriteEnable 0 (eraseEvents a) s) := by
  rw [frameErase, frame_misused (why := .noWriteEnable) hq (parse_erase a ha) hw (by simp [Device.obey, hw])]
  rfl

/-- R68 (b): a frame other than read-status to a busy device. -/
theorem frame_whileBusy {c : Byte} {tl recvs : List Byte} (hf : s.fuse = none) (hl : (s.device d).lost = none)
    (hb : (s.device d).dbusy = true) (hc : c ≠ Config.opcRdsr) :
    performFrame d (c :: tl) recvs s = .go (drawnBytes recvs.length s)
      (misused d .whileBusy recvs.length (frameEvents d (c :: tl) recvs (drawnBytes recvs.length s)) s) := by
  have h := performFrame_misused d c tl recvs s hf (.inr ⟨hb, hc⟩)
  rwa [hl] at h

/-- R68 (b), for each of the four frames. -/
theorem frames_whileBusy (hf : s.fuse = none) (hl : (s.device d).lost = none) (hb : (s.device d).dbusy = true) :
    frameWren d s = .go () (misused d .whileBusy 0 (wrenEvents d) s) ∧
    (∀ a outs, frameReadOuts d a outs s = .go (drawnBytes outs.length s)
      (misused d .whileBusy outs.length (readEvents d a outs (drawnBytes outs.length s)) s)) ∧
    (∀ a data, frameProgram d a data s = .go () (misused d .whileBusy 0 (programEvents d a data) s)) := by
  refine ⟨?_, fun a outs => ?_, fun a data => ?_⟩
  · rw [frameWren, frame_whileBusy hf hl hb (by decide)]
    rfl
  · have hh : headerBytes d Config.opcRead a = Config.opcRead :: (headerBytes d Config.opcRead a).tail := by cases d <;> rfl
    rw [frameReadOuts, readEvents, hh, frame_whileBusy hf hl hb (by decide)]
  · rw [frameProgram, programEvents, header_append_eq, frame_whileBusy hf hl hb (by decide)]
    rfl

theorem frameErase_whileBusy (hf : s.fuse = none) (hl : s.nor.lost = none) (hb : s.nor.dbusy = true) (a : Word) :
    frameErase a s = .go () (misused .nor .whileBusy 0 (eraseEvents a) s) := by
  rw [frameErase, headerBytes, frame_whileBusy (d := .nor) hf hl hb (by decide)]
  rfl

end

/-! ### The statements -/

/-- Settles O40: a write-enable frame on a quiet device, for each of the two. -/
theorem writeEnableFrames : Obligations.WriteEnableFrames := by
  refine fun s => ⟨fun hq => ?_, fun hq => ?_⟩
  · have h := frameWren_quiet .ee s hq
    rw [device_ee, framed_ee] at h
    exact next_state h
  · have h := frameWren_quiet .nor s hq
    rw [device_nor, framed_nor] at h
    exact next_state h

/-- Settles O41: a read-status frame on a device that holds no fault, busy or not. -/
theorem readStatusFrames : Obligations.ReadStatusFrames := by
  refine fun s x hf => ⟨fun hl => ?_, fun hl => ?_⟩
  · refine ⟨statusOfDraw s.ee.sample.1 (s.drawAt 0), busyBit_statusOfDraw _ _, ?_⟩
    have h := frameRdsr_lostFree .ee x s hf hl
    rw [device_ee, framed_ee] at h
    exact next_state h
  · refine ⟨statusOfDraw s.nor.sample.1 (s.drawAt 0), busyBit_statusOfDraw _ _, ?_⟩
    have h := frameRdsr_lostFree .nor x s hf hl
    rw [device_nor, framed_nor] at h
    exact next_state h

/-- Settles O42: the range decides between the answer and the refusal. -/
theorem readFrames : Obligations.ReadFrames := by
  refine fun s => ⟨fun a outs => ⟨fun ha hn hq => ?_, fun h => ?_⟩, fun a outs => ⟨fun hn hq => ?_, fun h => ?_⟩⟩
  · exact runRead_quiet (d := .ee) (toNat_setWidth_address (by decide) a) hq ha hn
  · exact runRead_pastEnd (d := .ee) (toNat_setWidth_address (by decide) a) h
  · exact runRead_quiet (d := .nor) (toNat_setWidth_address (by decide) a) hq a.isLt hn
  · exact runRead_pastEnd (d := .nor) (toNat_setWidth_address (by decide) a) (.inr h)

/-- Settles O43: a program frame inside one page, and the bytes of storage read back one by one. -/
theorem programFrames : Obligations.ProgramFrames := by
  refine fun s => ⟨fun a data ha hn hp hq hw => ?_, fun a data hn hp hq hw => ?_⟩
  · have h := runProgram_quiet (d := .ee) (toNat_setWidth_address (by decide) a) hq hw ha hn hp
    rw [device_ee, framed_ee] at h
    exact ⟨_, h, rfl, fun x => Memory.read_writeMany s.ee.mem a.toNat x data⟩
  · have h := runProgram_quiet (d := .nor) (toNat_setWidth_address (by decide) a) hq hw a.isLt hn hp
    rw [device_nor, framed_nor] at h
    exact ⟨_, h, rfl, fun x => Memory.read_andMany s.nor.mem a.toNat x data⟩

/-- The sector that holds `a` (R64). -/
theorem mem_sector_iff (a x : Nat) :
    sectorBase a ≤ x ∧ x < sectorBase a + Config.norSector ↔ x / 4096 = a / 4096 := by
  simp only [sectorBase, Config.norSector]
  omega

/-- Settles O44: a sector-erase frame on a quiet device, and the bytes of the sector by their addresses. -/
theorem sectorEraseFrame : Obligations.SectorEraseFrame := by
  intro s a hq hw
  have he : (a.setWidth 32).toNat = a.toNat := toNat_setWidth_address (by decide) a
  have h := frameErase_quiet (a.setWidth 32) s hq hw (address_lt_norSize a)
  rw [he, framed_nor] at h
  refine ⟨_, next_state h, rfl, fun x => ?_⟩
  refine (Memory.read_erase s.nor.mem (sectorBase a.toNat) Config.norSector x).trans ?_
  simp only [mem_sector_iff]
  rfl

/-- Settles O45: R68 (a) and (c) at the end of a frame, (b) at its opcode byte. -/
theorem framesOutsideThePreconditions : Obligations.FramesOutsideThePreconditions := by
  have hwide : ∀ a : BitVec 16, (a.setWidth 32).toNat = a.toNat := toNat_setWidth_address (by decide)
  have hwide' : ∀ a : BitVec 24, (a.setWidth 32).toNat = a.toNat := toNat_setWidth_address (by decide)
  refine fun s => ⟨fun hq hw a data ha hn => ?_, fun hq hw => ⟨fun a data hn => ?_, fun a => ?_⟩,
    fun hq hw a data ha hp hn => ?_, fun hq hw a data hp hn => ?_, fun hf hl hb => ?_, fun hf hl hb => ?_⟩
  · exact runProgram_noWriteEnable (d := .ee) hq hw (by rw [hwide]; exact ha) hn
  · exact runProgram_noWriteEnable (d := .nor) hq hw (address_lt_norSize a) hn
  · exact next_state (frameErase_noWriteEnable hq hw (address_lt_norSize a))
  · exact runProgram_pageCrossed (d := .ee) hq hw (by rw [hwide]; exact ha) hn (by rw [hwide]; exact hp)
  · exact runProgram_pageCrossed (d := .nor) hq hw (address_lt_norSize a) hn (by rw [hwide']; exact hp)
  · obtain ⟨hwren, hread, hprogram⟩ := frames_whileBusy (d := .ee) hf hl hb
    refine ⟨next_state hwren, fun a outs ha hn => ?_, fun a data ha => ?_⟩
    · have hfit : readFits .ee (a.setWidth 32).toNat outs.length = true := by
        rw [hwide]
        simp [readFits, Dev.size, Config.eeSize, ha, hn]
      show runRead .ee _ outs s = _
      rw [runRead, if_pos hfit, hread]
      rfl
    · show runProgram .ee _ data s = _
      rw [runProgram_inside (by rw [hwide]; exact ha), hprogram]
      rfl
  · obtain ⟨hwren, hread, hprogram⟩ := frames_whileBusy (d := .nor) hf hl hb
    refine ⟨next_state hwren, fun a outs hn => ?_, fun a data => ?_, fun a => ?_⟩
    · have hfit : readFits .nor (a.setWidth 32).toNat outs.length = true := by
        have ha := address_lt_norSize a
        rw [hwide'] at ha ⊢
        simp only [readFits, decide_eq_true ha, Bool.true_and, decide_eq_true_eq]
        exact hn
      show runRead .nor _ outs s = _
      rw [runRead, if_pos hfit, hread]
      rfl
    · show runProgram .nor _ data s = _
      rw [runProgram_inside (address_lt_norSize a), hprogram]
      rfl
    · exact next_state (frameErase_whileBusy hf hl hb _)

/-- Settles O46: the EEPROM has no address from 512 on. -/
theorem programFrameOutsideTheEeprom : Obligations.ProgramFrameOutsideTheEeprom :=
  fun _ a _ ha => runProgram_outside (d := .ee) (toNat_setWidth_address (by decide) a) ha

end Sys2Proof.Machine
end

section
/-! What a procedure leaves of the devices when no reset is on its way: the other device as it was (R74), no bit of the NOR flash
set but by an erase (R63, R236), no storage changed by a read (R58). -/

namespace Sys2Proof.Machine

/-! ### Relations of procedures that no reset cuts -/

/-- `Q` relates the two states, unless a reset is on its way. -/
def Uncut (Q : State → State → Prop) (s t : State) : Prop := s.fuse = none → t.fuse = none ∧ Q s t

/-- With no reset on its way every frame is performed whole: what whole frames and the sequencer's own changes do, every procedure
does. -/
theorem closed_uncut {d : Dev} {ok : Byte → Prop} {Q : State → State → Prop} (trans : ∀ {s t u}, Q s t → Q t u → Q s u)
    (frame : ∀ c tl recvs bs v n s, ok c → obeyMem d (c :: tl ++ recvs) (s.device d).mem v.mem →
      Q s ((s.skipDraws n).framed d v (frameEvents d (c :: tl) recvs bs)))
    (stay : ∀ s t, Local d s t → Q s t) : Closed d ok (Uncut Q) where
  trans h k hf := by
    obtain ⟨hf', h⟩ := h hf
    obtain ⟨hf'', k⟩ := k hf'
    exact ⟨hf'', trans h k⟩
  frame c tl recvs s hc hf := by
    rcases performFrame_cases d (c :: tl) recvs s with ⟨bs, v, n, k, -, hk, hm, he⟩ | ⟨hcut, -⟩
    · have hfuse : ((s.skipDraws n).framed d v (frameEvents d (c :: tl) recvs bs)).fuse = k := by simp [hf, hk hf]
      rw [he, ← hfuse]
      exact ⟨by simp [hf], frame c tl recvs bs v n s hc hm⟩
    · exact absurd hf hcut
  stay s t h hf := ⟨h.fuse hf, stay s t h⟩
  reset s hcut hf := absurd hf hcut

theorem Uncut.related {Q : State → State → Prop} {s t : State} (h : Uncut Q s t) (hf : s.fuse = none) : Q s t := (h hf).2

/-! ### The other device (R74) -/

/-- Device `d` and its exclusive access are as they were, and no event is on it. -/
structure LeftAlone (d : Dev) (s t : State) : Prop where
  device : t.device d = s.device d
  cs : t.cs d = s.cs d
  trace : ∃ es : List Event, t.trace = s.trace ++ es ∧ ∀ e ∈ es, e.notOn d = true

theorem LeftAlone.trans {d : Dev} {s t u : State} (h : LeftAlone d s t) (k : LeftAlone d t u) : LeftAlone d s u := by
  obtain ⟨es, hes, hno⟩ := h.trace
  obtain ⟨fs, hfs, kno⟩ := k.trace
  refine ⟨k.device.trans h.device, k.cs.trans h.cs, es ++ fs, by rw [hfs, hes, List.append_assoc], fun e he => ?_⟩
  exact (List.mem_append.1 he).elim (hno e) (kno e)

theorem LeftAlone.refl (d : Dev) (s : State) : LeftAlone d s s := ⟨rfl, rfl, [], by simp, by simp⟩

/-- Every event of a frame is on its own device. -/
theorem frameEvents_notOn {d e : Dev} (hne : d ≠ e) (sends recvs bs : List Byte) :
    ∀ ev ∈ frameEvents e sends recvs bs, ev.notOn d = true := by
  intro ev hev
  simp only [frameEvents, List.mem_cons, List.mem_append, List.mem_map, List.not_mem_nil, or_false] at hev
  rcases hev with rfl | (⟨o, -, rfl⟩ | hx) | rfl
  · simpa [Event.notOn] using hne.symm
  · simpa [Event.notOn] using hne.symm
  · obtain ⟨n, hn, rfl⟩ := List.mem_iff_getElem.1 hx
    simpa [Event.notOn] using hne.symm
  · simpa [Event.notOn] using hne.symm

/-- No procedure on device `e` reaches device `d`. -/
theorem closed_leftAlone {d e : Dev} (hne : d ≠ e) : Closed e (fun _ => True) (Uncut (LeftAlone d)) := by
  refine closed_uncut LeftAlone.trans (fun c tl recvs bs v n s _ _ => ?_) (fun s t h => ?_)
  · exact ⟨by rw [framed_device_ne _ _ _ _ hne, skipDraws_device], by rw [framed_cs_ne _ _ _ _ hne]; cases d <;> rfl,
      frameEvents e (c :: tl) recvs bs, by simp, frameEvents_notOn hne _ _ _⟩
  · obtain ⟨es, hes, hev⟩ := h.trace
    refine ⟨?_, ?_, es, hes, fun ev hmem => ?_⟩
    · cases d
      · exact h.ee
      · exact h.nor
    · cases d
      · exact h.csEe
      · exact h.csNor
    · rcases hev ev hmem with ⟨p, rfl⟩ | ⟨us, rfl⟩
      · rfl
      · simpa [Event.notOn] using hne.symm

theorem exists_other (d : Dev) : ∃ e, d ≠ e := by
  cases d
  · exact ⟨.nor, by decide⟩
  · exact ⟨.ee, by decide⟩

/-- Settles O49: the other device is left alone by every instruction, by the acceptance of a request, and by every later step. -/
theorem theOtherDeviceIsLeftAlone : Obligations.TheOtherDeviceIsLeftAlone := by
  intro s t d hf h
  have hfuse : s.fuse ≠ some 0 := by simp [hf]
  have hleft : Uncut (LeftAlone d) s t := by
    rcases h with ⟨i, hne, ht⟩ | ⟨ht, hg, hne⟩ | ⟨ht, hg, hm, hne⟩
    · exact (closed_leftAlone hne).exec ht
    · rw [step_go hfuse hg] at ht
      obtain ⟨e, he⟩ := exists_other d
      exact (closed_leftAlone he).stepRequest (fun i hi => closed_leftAlone (hne i hi)) ht
    · rw [step_frame hfuse hg hm] at ht
      exact Closed.stepFrame (fun hf => ⟨hf, .refl d s⟩) (fun e bytes hfr => closed_leftAlone (hne e bytes hfr))
        (fun _ _ _ _ _ => trivial) trivial trivial trivial ht
  obtain ⟨hdev, hcs, htr⟩ := hleft.related hf
  exact ⟨hdev, hcs, htr⟩

/-! ### No bit of the NOR flash is set (R63, R236) -/

/-- No bit of the NOR flash has gone from 0 to 1. -/
def NoBitSet (s t : State) : Prop := ∀ x, Memory.read t.nor.mem x &&& Memory.read s.nor.mem x = Memory.read t.nor.mem x

theorem NoBitSet.of_eq {s t : State} (h : t.nor.mem = s.nor.mem) : NoBitSet s t := fun x => by
  rw [h, BitVec.and_self]

theorem NoBitSet.trans {s t u : State} (h : NoBitSet s t) (k : NoBitSet t u) : NoBitSet s u := fun x => by
  rw [← k x, BitVec.and_assoc, h x]

/-- Only a sector-erase frame sets bits: a program frame ANDs (R63). -/
theorem closed_noBitSet (d : Dev) : Closed d (· ≠ Config.opcSe) (Uncut NoBitSet) := by
  refine closed_uncut NoBitSet.trans (fun c tl recvs bs v n s hc hm => ?_) (fun s t h => .of_eq (by rw [h.nor]))
  cases d with
  | ee => exact .of_eq rfl
  | nor =>
    rcases hm with hm | ⟨a, data, -, -, -, hm⟩ | ⟨a, hp, -⟩
    · exact .of_eq hm
    · intro x
      show Memory.read v.mem x &&& Memory.read s.nor.mem x = Memory.read v.mem x
      rw [hm]
      show Memory.read (Memory.andMany s.nor.mem a data) x &&& _ = Memory.read (Memory.andMany s.nor.mem a data) x
      rw [Memory.read_andMany]
      split
      · rw [BitVec.and_comm, ← BitVec.and_assoc, BitVec.and_self]
      · exact BitVec.and_self
    · exact absurd (Option.some.inj (head_of_parseFrame hp)) hc

/-- The three operations that write bytes of the NOR flash send no erase frame (R182, R183, R185). -/
theorem Closed.norWrites {ok : Byte → Prop} {R : State → State → Prop} (h : Closed .nor ok R) (hd : ok Config.opcRead)
    (hw : ok Config.opcWren) (hr : ok Config.opcRdsr) (hp : ok Config.opcProgram) {q : Req} {s t : State}
    (ht : Machine.exec (.norWriteByte q) s = .next t ∨ Machine.exec (.norWriteArray q) s = .next t ∨
      Machine.exec (.norClearBit q) s = .next t) : R s t := by
  rcases ht with ht | ht | ht
  · simp only [Machine.exec, execNorWriteByte] at ht
    refine Closed.request h (fun u => ?_) ht
    split
    · exact h.clearOnlyWrite hd hw hr hp _ u
    · exact h.finish _ u
  · exact h.request (fun u => h.opWriteArray hw hr hp u) ht
  · simp only [Machine.exec, execNorClearBit] at ht
    refine Closed.request h (fun u => ?_) ht
    split
    · split
      · exact h.finally (h.frameReadOuts hd _ _ u) fun _ v _ => h.clearOnlyWrite hd hw hr hp _ v
      · exact h.finish _ u
    · exact h.finish _ u

/-- Settles O51: no frame of a NOR write, or of a later step that is no erase, sets a bit. -/
theorem norWritesNeverSetABit : Obligations.NorWritesNeverSetABit := by
  intro r s t hf h
  have hset : Uncut NoBitSet s t := by
    rcases h with ht | ht | ht | ⟨ht, hg, hm, hhead⟩
    · exact (closed_noBitSet .nor).norWrites (by decide) (by decide) (by decide) (by decide) (.inl ht)
    · exact (closed_noBitSet .nor).norWrites (by decide) (by decide) (by decide) (by decide) (.inr (.inl ht))
    · exact (closed_noBitSet .nor).norWrites (by decide) (by decide) (by decide) (by decide) (.inr (.inr ht))
    · rw [step_frame (by simp [hf]) hg hm] at ht
      refine Closed.stepFrame (fun hf => ⟨hf, .of_eq rfl⟩) (fun e _ _ => closed_noBitSet e) (fun e bytes c hfr hc => ?_)
        (by decide) (by decide) (by decide) ht
      rintro rfl
      exact hhead e bytes hfr hc
  exact hset.related hf

/-! ### Reads change no storage (R58) -/

/-- Both storages are as they were. -/
structure SameStorage (s t : State) : Prop where
  ee : t.ee.mem = s.ee.mem
  nor : t.nor.mem = s.nor.mem

/-- A frame with neither a program nor an erase opcode changes no storage, whatever state its device is in. -/
theorem closed_sameStorage (d : Dev) :
    Closed d (fun c => c ≠ Config.opcProgram ∧ c ≠ Config.opcSe) (Uncut SameStorage) := by
  refine closed_uncut (fun h k => ⟨k.ee.trans h.ee, k.nor.trans h.nor⟩) (fun c tl recvs bs v n s hc hm => ?_)
    (fun s t h => ⟨by rw [h.ee], by rw [h.nor]⟩)
  have hv : v.mem = (s.device d).mem := by
    rcases hm with hm | ⟨a, data, hp, -⟩ | ⟨a, hp, -⟩
    · exact hm
    · exact absurd (Option.some.inj (head_of_parseFrame hp)) hc.1
    · exact absurd (Option.some.inj (head_of_parseFrame hp)) hc.2
  cases d
  · exact ⟨hv, rfl⟩
  · exact ⟨rfl, hv⟩

/-- Settles O52: the operations and frames that read send the opcodes of reads alone. -/
theorem readsChangeNoStorage : Obligations.ReadsChangeNoStorage := by
  intro r x a b outs s t hf h
  have hread : Config.opcRead ≠ Config.opcProgram ∧ Config.opcRead ≠ Config.opcSe := by decide
  have hrdsr : Config.opcRdsr ≠ Config.opcProgram ∧ Config.opcRdsr ≠ Config.opcSe := by decide
  have hsame : Uncut SameStorage s t := by
    rcases h with ht | ht | ht | ht | ht | ht | ht | ht
    · exact (closed_sameStorage .ee).request (fun u => (closed_sameStorage .ee).opReadByte hread u) ht
    · exact (closed_sameStorage .nor).request (fun u => (closed_sameStorage .nor).opReadByte hread u) ht
    · exact (closed_sameStorage .ee).request (fun u => (closed_sameStorage .ee).opReadArray hread u) ht
    · exact (closed_sameStorage .nor).request (fun u => (closed_sameStorage .nor).opReadArray hread u) ht
    · cases ht; exact (closed_sameStorage .ee).frameRdsr hrdsr x s
    · cases ht; exact (closed_sameStorage .nor).frameRdsr hrdsr x s
    · exact (closed_sameStorage .ee).runRead hread ht
    · exact (closed_sameStorage .nor).runRead hread ht
  obtain ⟨hee, hnor⟩ := hsame.related hf
  exact ⟨hee, hnor⟩

end Sys2Proof.Machine
end

section
/-! A byte written to the EEPROM is the byte read back, however long the write has to wait (R70 (a), R127). -/

namespace Sys2Proof.Machine

/-! ### One turn of a poll loop (R127) -/

/-- `s` after the status frame of one turn of its poll loop. -/
def sampledState (d : Dev) (s : State) : State :=
  let st := statusOfDraw (s.device d).sample.1 (s.drawAt 0)
  { (State.skipDraws { s with frame := none } 1).framed d (s.device d).sample.2.close (rdsrEvents d s.params.dummyOut st) with
    st := st }

section
variable (d : Dev) (s : State)

@[simp] theorem sampledState_busy : (sampledState d s).busy = s.busy := by simp [sampledState]
@[simp] theorem sampledState_phase : (sampledState d s).phase = s.phase := by simp [sampledState]
@[simp] theorem sampledState_latch : (sampledState d s).latch = s.latch := by simp [sampledState]
@[simp] theorem sampledState_params : (sampledState d s).params = s.params := by simp [sampledState]
@[simp] theorem sampledState_go : (sampledState d s).go = s.go := by simp [sampledState]
@[simp] theorem sampledState_inbox : (sampledState d s).inbox = s.inbox := by simp [sampledState]
@[simp] theorem sampledState_fuse : (sampledState d s).fuse = s.fuse := by simp [sampledState]
@[simp] theorem busyBit_sampledState : busyBit (sampledState d s).st = (s.device d).sample.1 := by simp [sampledState]
@[simp] theorem sampledState_device : (sampledState d s).device d = (s.device d).sample.2.close := by cases d <;> rfl

end

/-- One turn of a poll loop: the status frame, and the loop judges the byte (R127). -/
theorem step_turn {d : Dev} {s : State} (hw : Waiting d s) (hl : (s.device d).lost = none) :
    step s = .next ((judgeStatus d (sampledState d s)).finally (afterWait d)) := by
  obtain ⟨hb, hp, hd, hfr, hg, hi, hf⟩ := hw
  have hdev : State.device { s with frame := none } d = s.device d := by cases d <;> rfl
  have hr := frameRdsr_lostFree d s.params.dummyOut { s with frame := none } hf (by rw [hdev, hl])
  have hstep : step s = stepFrame s := step_frame (by simp [hf]) hg (by simp [nextMove, hi])
  rw [hdev] at hr
  rw [hstep, stepFrame_rdsr hfr, hr, Flow.state_go]
  exact congrArg _ (afterFrame_polling (s := sampledState d s) (by simp [hb]) (by simp [hp]) (by simp [hd]) rfl)

/-- A busy status byte and the limit reached: the wait ends with no delay (R206). -/
theorem judgeStatus_gaveUp {d : Dev} {s : State} (hst : ¬ busyBit s.st = false)
    (hl : limitHit s.params.pollLimit (s.pollcnt + 1) = true) :
    judgeStatus d s = .go false (enterPhase .idle { s with pollcnt := s.pollcnt + 1 }) := by
  rw [judgeStatus, if_neg hst]
  exact if_pos hl

/-- A busy status byte and the limit not reached: the delay, before which a reset may strike. -/
theorem judgeStatus_delays {d : Dev} {s : State} (hst : ¬ busyBit s.st = false)
    (hl : ¬ limitHit s.params.pollLimit (s.pollcnt + 1) = true) :
    judgeStatus d s = (delay d { s with pollcnt := s.pollcnt + 1 }).bind fun _ u =>
      .halt { u with frame := some (d, rdsrBytes u) } := by
  rw [judgeStatus, if_neg hst]
  exact if_neg hl

/-- The same with no reset on its way: the delay, and the next status frame stands ready (R127). -/
theorem judgeStatus_waits {d : Dev} {s : State} (hst : busyBit s.st = true) (hf : s.fuse = none)
    (hl : limitHit s.params.pollLimit (s.pollcnt + 1) = false) :
    judgeStatus d s = .halt { s with
      pollcnt := s.pollcnt + 1
      trace := s.trace ++ [.dly d s.params.pollDelayUs]
      frame := some (d, rdsrBytes s) } := by
  rw [judgeStatus_delays (by simp [hst]) (by simp [hl])]
  simp only [delay, hf, Flow.bind_go]
  rw [← hf]
  rfl

/-! ### A wait to its end (R66, R127) -/

/-- A poll loop on device `d`, not of a bulk write and without a limit, whose device returns busy `n` times more and holds `m`. -/
structure WaitsFor (d : Dev) (n : Nat) (m : List Host.Cell) (s : State) : Prop where
  waiting : Waiting d s
  lost : (s.device d).lost = none
  dbusy : (s.device d).dbusy = true
  reads : (s.device d).busyReads = some n
  mem : (s.device d).mem = m
  limit : s.params.pollLimit = none
  op : s.latch.op ≠ 4

/-- A write that has ended `Ok`: the block is free, the device ready, and it holds `m`. -/
structure WriteDone (d : Dev) (m : List Host.Cell) (s : State) : Prop where
  busy : s.busy = false
  outcome : s.outcome = .ok
  quiet : Quiet d s
  mem : (s.device d).mem = m

/-- A status read that finds the device ready ends the wait and the operation (R127, R161). -/
theorem WaitsFor.ends {d : Dev} {m : List Host.Cell} {s : State} (h : WaitsFor d 0 m s) :
    ∃ t, step s = .next t ∧ WriteDone d m t := by
  have hs : (s.device d).sample = (false, { s.device d with dbusy := false }) := by simp [Device.sample, h.dbusy, h.reads]
  have hop : (enterPhase .idle (sampledState d s)).latch.op ≠ 4 := by simpa using h.op
  have hdev : (finishReady true (enterPhase .idle (sampledState d s))).device d =
      ({ s.device d with dbusy := false } : Device).close := by simp [finishReady, hs]
  refine ⟨finishReady true (enterPhase .idle (sampledState d s)), ?_, rfl, rfl, ⟨?_, ?_, ?_⟩, ?_⟩
  · rw [step_turn h.waiting h.lost, judgeStatus_ready d (by simp [hs]), Flow.finally_go, afterWait, if_neg fun hc => hop hc.1]
  · obtain ⟨-, -, -, -, -, -, hf⟩ := h.waiting
    simp [finishReady, hf]
  · rw [hdev]; exact h.lost
  · rw [hdev]; rfl
  · rw [hdev]; exact h.mem

/-- A status read that finds the device busy: one read less is left, and the loop waits on (R66, R127). -/
theorem WaitsFor.turn {d : Dev} {n : Nat} {m : List Host.Cell} {s : State} (h : WaitsFor d (n + 1) m s) :
    ∃ t, step s = .next t ∧ WaitsFor d n m t := by
  have hs : (s.device d).sample = (true, { s.device d with busyReads := some n }) := by simp [Device.sample, h.dbusy, h.reads]
  have hstep := step_turn h.waiting h.lost
  obtain ⟨hb, hp, hd, -, hg, hi, hf⟩ := h.waiting
  have hlim : (sampledState d s).params.pollLimit = none := by simpa using h.limit
  rw [judgeStatus_waits (by simp [hs]) (by simp [hf]) (by rw [hlim]; rfl), Flow.finally_halt] at hstep
  refine ⟨_, hstep, ?_⟩
  generalize ht : ({ sampledState d s with
    pollcnt := (sampledState d s).pollcnt + 1
    trace := (sampledState d s).trace ++ [.dly d (sampledState d s).params.pollDelayUs]
    frame := some (d, rdsrBytes (sampledState d s)) } : State) = t
  have hdev : t.device d = ({ s.device d with busyReads := some n } : Device).close := by
    have h0 := sampledState_device d s
    rw [hs] at h0
    rw [← h0, ← ht]
    cases d <;> rfl
  subst ht
  refine ⟨⟨by simp [hb], by simp [hp], by simp [hd], rfl, by simp [hg], by simp [hi], by simp [hf]⟩, ?_, ?_, ?_, ?_, hlim, ?_⟩
  · rw [hdev]; exact h.lost
  · rw [hdev]; exact h.dbusy
  · rw [hdev]; rfl
  · rw [hdev]; exact h.mem
  · simpa using h.op

/-- The wait is over after one turn for each busy read, and one more that finds the device ready. -/
theorem WaitsFor.steps {d : Dev} {n : Nat} {m : List Host.Cell} {s : State} (h : WaitsFor d n m s) :
    ∃ t, steps (n + 1) s = .next t ∧ WriteDone d m t := by
  induction n generalizing s with
  | zero =>
    obtain ⟨t, ht, hd⟩ := h.ends
    exact ⟨t, by rw [Machine.steps, ht]; rfl, hd⟩
  | succ n ih =>
    obtain ⟨t, ht, hw⟩ := h.turn
    obtain ⟨u, hu, hd⟩ := ih hw
    exact ⟨u, by rw [Machine.steps, ht]; exact hu, hd⟩

/-- What an instruction that left the loop waiting comes to. -/
theorem WaitsFor.after {d : Dev} {n : Nat} {m : List Host.Cell} {s : State} {o : Host.Outcome State Fault Refusal}
    (ho : o = .next s) (h : WaitsFor d n m s) :
    ∃ t u, o = .next t ∧ Machine.steps (n + 1) t = .next u ∧ WriteDone d m u := by
  obtain ⟨u, hu, hd⟩ := h.steps
  exact ⟨s, u, ho, hu, hd⟩

/-! ### The write and the read (R160, R161) -/

/-- A `writeByte` in the EEPROM whose device is busy for `n` status reads: it ends after `n` steps more. -/
theorem eeWriteByte_ends {r : Req} {s : State} {n : Nat} (hb : s.busy = false) (hg : s.go = false) (hi : s.inbox = [])
    (hq : Quiet .ee s) (hn : busyOfDraw (s.drawAt 0) = some n) (hl : s.params.pollLimit = none) (ha : r.addr.toNat < 512) :
    ∃ t u, exec (.eeWriteByte r) s = .next t ∧ steps n t = .next u ∧
      WriteDone .ee (Memory.writeMany s.ee.mem r.addr.toNat [r.val]) u := by
  have hu : Unobserved s := by rw [Unobserved, hi]; rfl
  set a := accept 2 .ee r s with hacc
  have hbody := body_program .ee a r.addr [r.val] (programFits_byte .ee ha r.val)
  have hexec : exec (.eeWriteByte r) s = .next ((writeChunk .ee r.addr [r.val] a).finally finishReady) := by
    have hv : validAddr .ee r.addr = true := decide_eq_true ha
    rw [exec_operation rfl, request_accepted hb hu]
    exact congrArg _ (if_pos hv)
  rw [hexec, writeChunk]
  cases n with
  | zero =>
    have hready : ReadyAtOnce a := hn
    rw [writeCycle_ready .ee _ _ _ a hq hu hready hbody, Flow.finally_go, framed_ee]
    obtain ⟨hf, hlost, -⟩ := hq
    exact ⟨_, _, rfl, rfl, rfl, rfl, ⟨hf, hlost, rfl⟩, rfl⟩
  | succ n =>
    have hdraw : busyOfDraw (a.drawAt 0) = some (n + 1) := hn
    have hwait : ¬ ReadyAtOnce a := by rw [ReadyAtOnce, hdraw]; simp
    have hlim : limitHit a.params.pollLimit 1 = false := by rw [show a.params.pollLimit = none from hl]; rfl
    rw [writeCycle_waiting .ee _ _ _ a hq hu hwait hlim hbody, Flow.finally_halt, hdraw, framed_ee]
    obtain ⟨hf, hlost, -⟩ := hq
    have hop : (2 : BitVec 4) ≠ 4 := by decide
    exact WaitsFor.after rfl ⟨⟨rfl, rfl, rfl, rfl, hg, hi, hf⟩, hlost, rfl, rfl, rfl, hl, hop⟩

/-- A `readByte` in the EEPROM, whose device is ready, ends `Ok` with the byte of storage in `RDATA` (R160). -/
theorem eeReadByte_reads {q : Req} {s : State} (hb : s.busy = false) (hq : Quiet .ee s) (ha : q.addr.toNat < 512) :
    ∃ t, exec (.eeReadByte q) s = .next t ∧ t.rdata = Memory.read s.ee.mem q.addr.toNat ∧ t.outcome = .ok := by
  set a := hostPoint (accept 1 .ee q s) with hacc
  have hqa : Quiet .ee a := by simpa [Quiet, hacc] using hq
  obtain ⟨t, ht, -⟩ := frameRead_byte q.addr hqa ha
  have hmem : (a.device .ee).mem = s.ee.mem := by simp [hacc]
  have hbody : opReadByte .ee a = finish .ok (hostPoint (t.setRdata (Memory.read s.ee.mem q.addr.toNat))) := by
    have hl : a.latch.addr = q.addr := by simp [hacc]
    have hv : validAddr .ee q.addr = true := decide_eq_true ha
    simp only [opReadByte, hl, hv, if_true, ht, Flow.finally_go, List.headD_cons, hmem]
  refine ⟨finish .ok (hostPoint (t.setRdata (Memory.read s.ee.mem q.addr.toNat))), ?_, by simp, rfl⟩
  rw [exec_operation rfl, request_free hb]
  exact congrArg _ hbody

/-- Settles O53: the write has stored its byte when its wait is over, and the read finds it there. -/
theorem eepromReadsBackWhatWasWritten : Obligations.EepromReadsBackWhatWasWritten := by
  intro r q s n hb hg hi hq hn hl ha hqr
  obtain ⟨t, u, ht, hu, hdone⟩ := eeWriteByte_ends hb hg hi hq hn hl ha
  obtain ⟨v, hv, hdata, hok⟩ := eeReadByte_reads (q := q) hdone.busy hdone.quiet (by rw [hqr]; exact ha)
  refine ⟨t, u, v, ht, hu, hdone.busy, hdone.outcome, hv, ?_, hok⟩
  have hmem : u.ee.mem = Memory.writeMany s.ee.mem r.addr.toNat [r.val] := hdone.mem
  rw [hdata, hmem, hqr, Memory.writeMany, Memory.writeMany, Memory.read_write_same]

end Sys2Proof.Machine
end

section
/-! The moves that wait while `BUSY` = 1 (R133, R247), and a device that becomes ready by itself (R66). A queue whose first move
lands at no moment inside an operation stays as it is while the sequencer goes on. -/

namespace Sys2Proof.Machine

/-! ### Procedures that end in related states -/

/-- Two procedures that end the same way, with the same result and in states related by `R`. -/
def Flow.Both {α : Type} (R : State → State → Prop) : Flow α → Flow α → Prop
  | .go a s, .go b t => b = a ∧ R s t
  | .halt s, .halt t => R s t
  | .go _ _, .halt _ => False
  | .halt _, .go _ _ => False

section
variable {R : State → State → Prop} {α β : Type} {m n : Flow α}

theorem Flow.Both.bind {f g : α → State → Flow β} (h : m.Both R n) (hf : ∀ a s t, R s t → (f a s).Both R (g a t)) :
    (m.bind f).Both R (n.bind g) := by
  cases m <;> cases n
  · obtain ⟨rfl, h⟩ := h
    exact hf _ _ _ h
  · exact h.elim
  · exact h.elim
  · exact h

theorem Flow.Both.finally {f g : α → State → State} (h : m.Both R n) (hf : ∀ a s t, R s t → R (f a s) (g a t)) :
    R (m.finally f) (n.finally g) := by
  cases m <;> cases n
  · obtain ⟨rfl, h⟩ := h
    exact hf _ _ _ h
  · exact h.elim
  · exact h.elim
  · exact h

theorem Flow.Both.state (h : m.Both R n) : R m.state n.state := by
  cases m <;> cases n
  · exact h.2
  · exact h.elim
  · exact h.elim
  · exact h

end

/-! ### A queue that waits -/

/-- `t` is `s` with the queue `q` in place of its own, and the first move of neither lands inside an operation. -/
structure Queued (q : List HostMove) (s t : State) : Prop where
  eq : t = { s with inbox := q }
  still : Unobserved s
  waits : unobserved q = true

section
variable {q : List HostMove} {s t : State}

theorem Queued.alike (h : Queued q s t) : Alike s t := by
  rw [h.eq]
  rfl

theorem Queued.still' (h : Queued q s t) : Unobserved t := by
  rw [h.eq]
  exact h.waits

/-- States that are alike and whose request registers, last read and queues are those of `s` and `t`. -/
theorem Queued.of_alike (h : Queued q s t) {u v : State} (ha : Alike u v) (hu : u.inbox = s.inbox) (hv : v.inbox = t.inbox)
    (hc : v.reqCtrl = u.reqCtrl) (hr : v.reqAddr = u.reqAddr) (hl : v.reqLen = u.reqLen) (hh : v.hostData = u.hostData) :
    Queued q u v := by
  have hq : t.inbox = q := by rw [h.eq]
  refine ⟨?_, h.still.of hu, h.waits⟩
  unfold Alike at ha
  rw [hc, hr, hl, hh, hv, hq] at ha
  exact ha

/-- A change that does not touch the queue. -/
theorem Queued.map (h : Queued q s t) (f : State → State)
    (hf : ∀ (s : State) ms, f { s with inbox := ms } = { f s with inbox := ms }) : Queued q (f s) (f t) := by
  have hi : (f s).inbox = s.inbox := by
    show (f { s with inbox := s.inbox }).inbox = s.inbox
    rw [hf]
  exact ⟨by rw [h.eq, hf], h.still.of hi, h.waits⟩

theorem Queued.enterPhase (h : Queued q s t) (p : Phase) : Queued q (enterPhase p s) (enterPhase p t) := by
  rw [enterPhase_self p h.still, enterPhase_self p h.still']
  exact h.map (·.toPhase p) fun _ _ => rfl

theorem Queued.finish (h : Queued q s t) (c : OpOutcome) : Queued q (finish c s) (finish c t) :=
  h.map (Machine.finish c) fun _ _ => rfl

/-- A frame, performed whole or cut by a reset, leaves the queue, and the host's registers the same on both sides. -/
theorem Queued.performFrame (h : Queued q s t) (d : Dev) (sends recvs : List Byte) :
    (performFrame d sends recvs s).Both (Queued q) (performFrame d sends recvs t) := by
  have ha := h.alike.performFrame d sends recvs
  rcases performFrame_cases d sends recvs s with ⟨bs, v, n, k, -, -, -, he⟩ | ⟨-, bs, v, n, j, -, -, he⟩
  · rcases performFrame_cases d sends recvs t with ⟨bs', v', n', k', -, -, -, he'⟩ | ⟨-, bs', v', n', j', -, -, he'⟩
    · rw [he, he'] at ha ⊢
      exact ⟨ha.1, h.of_alike ha.2 (by simp) (by simp) (by simp [h.eq]) (by simp [h.eq]) (by simp [h.eq]) (by simp [h.eq])⟩
    · rw [he, he'] at ha
      exact ha.elim
  · rcases performFrame_cases d sends recvs t with ⟨bs', v', n', k', -, -, -, he'⟩ | ⟨-, bs', v', n', j', -, -, he'⟩
    · rw [he, he'] at ha
      exact ha.elim
    · rw [he, he'] at ha ⊢
      exact h.of_alike ha (by simp [applyReset]) (by simp [applyReset]) rfl rfl rfl (by simp [applyReset, h.eq])

theorem Queued.frameWren (h : Queued q s t) (d : Dev) : (frameWren d s).Both (Queued q) (frameWren d t) :=
  (h.performFrame d _ _).bind fun _ _ _ k => ⟨rfl, k⟩

theorem Queued.frameRdsr (h : Queued q s t) (d : Dev) (x : Byte) : (frameRdsr d x s).Both (Queued q) (frameRdsr d x t) :=
  (h.performFrame d _ _).bind fun b _ _ k => ⟨rfl, k.map (fun s => { s with st := b.headD 0 }) fun _ _ => rfl⟩

theorem Queued.frameProgram (h : Queued q s t) (d : Dev) (a : Word) (data : List Byte) :
    (frameProgram d a data s).Both (Queued q) (frameProgram d a data t) :=
  (h.performFrame d _ _).bind fun _ _ _ k => ⟨rfl, k⟩

theorem Queued.frameErase (h : Queued q s t) (a : Word) : (frameErase a s).Both (Queued q) (frameErase a t) :=
  (h.performFrame .nor _ _).bind fun _ _ _ k => ⟨rfl, k⟩

theorem Queued.delay (h : Queued q s t) (d : Dev) : (delay d s).Both (Queued q) (delay d t) := by
  unfold Machine.delay
  rw [h.alike.fuse]
  split
  · exact ⟨rfl, h.map (fun u => u.log (.dly d u.params.pollDelayUs)) fun _ _ => rfl⟩
  · exact h.map applyReset fun _ _ => rfl
  · rename_i k _
    exact ⟨rfl, h.map (fun u => State.log { u with fuse := some k } (.dly d u.params.pollDelayUs)) fun _ _ => rfl⟩

theorem Queued.judgeStatus (h : Queued q s t) (d : Dev) : (judgeStatus d s).Both (Queued q) (judgeStatus d t) := by
  have hc : Queued q { s with pollcnt := s.pollcnt + 1 } { t with pollcnt := t.pollcnt + 1 } :=
    h.map (fun u => { u with pollcnt := u.pollcnt + 1 }) fun _ _ => rfl
  have hst : busyBit t.st = busyBit s.st := by rw [h.alike.st]
  have hlim : limitHit t.params.pollLimit (t.pollcnt + 1) = limitHit s.params.pollLimit (s.pollcnt + 1) := by
    rw [h.alike.params, h.alike.pollcnt]
  by_cases hb : busyBit s.st = false
  · rw [judgeStatus_ready d hb, judgeStatus_ready d (hst.trans hb)]
    exact ⟨rfl, h.enterPhase .idle⟩
  by_cases hl : limitHit s.params.pollLimit (s.pollcnt + 1) = true
  · rw [judgeStatus_gaveUp hb hl, judgeStatus_gaveUp (by rwa [hst]) (hlim.trans hl)]
    exact ⟨rfl, hc.enterPhase .idle⟩
  · rw [judgeStatus_delays hb hl, judgeStatus_delays (by rwa [hst]) (by rwa [hlim])]
    exact (hc.delay d).bind fun _ u v k => Queued.map k (fun u => { u with frame := some (d, rdsrBytes u) }) fun _ _ => rfl

theorem Queued.waitReady (h : Queued q s t) (d : Dev) : (waitReady d s).Both (Queued q) (waitReady d t) := by
  unfold Machine.waitReady
  rw [h.alike.params]
  have hp := (h.enterPhase .polling).map (fun u => { u with pollcnt := 0 }) fun _ _ => rfl
  exact (hp.frameRdsr d _).bind fun _ _ _ k => k.judgeStatus d

theorem Queued.writeChunk (h : Queued q s t) (d : Dev) (a : Word) (data : List Byte) :
    (writeChunk d a data s).Both (Queued q) (writeChunk d a data t) :=
  (h.frameWren d).bind fun _ _ _ k => ((k.enterPhase .writeEnabled).frameProgram d a data).bind fun _ _ _ l =>
    (l.enterPhase .commandIssued).waitReady d

theorem Queued.chunkLoop (h : Queued q s t) (d : Dev) (fuel : Nat) :
    (chunkLoop d fuel s).Both (Queued q) (chunkLoop d fuel t) := by
  induction fuel generalizing s t with
  | zero => exact ⟨rfl, h⟩
  | succ fuel ih =>
    have hl : Queued q (loadClen d s) (loadClen d t) := h.map (loadClen d) fun _ _ => rfl
    have hd : chunkData (loadClen d t) = chunkData (loadClen d s) := by rw [hl.eq]; rfl
    rw [Machine.chunkLoop, Machine.chunkLoop, h.alike.rem, hl.alike.cur, hd]
    split
    · exact ⟨rfl, h⟩
    · refine (hl.writeChunk d _ _).bind fun b _ _ k => ?_
      split
      · exact ih (k.map advanceChunk fun _ _ => rfl)
      · exact ⟨rfl, k⟩

theorem Queued.afterFrame (h : Queued q s t) (d : Dev) (bytes : List Byte) :
    Queued q (afterFrame d bytes s) (afterFrame d bytes t) := by
  unfold Machine.afterFrame
  rw [h.alike.busy, h.alike.phase, h.alike.latch]
  split
  · refine (h.judgeStatus d).finally fun b u v k => ?_
    unfold afterWait
    rw [k.alike.latch]
    split
    · have hn : Queued q (advanceChunk u) (advanceChunk v) := k.map advanceChunk fun _ _ => rfl
      unfold runChunks
      rw [hn.alike.rem]
      exact (hn.chunkLoop d _).finally fun _ _ _ l => l.finish _
    · exact k.finish _
  · exact h

theorem Queued.runRead (h : Queued q s t) (d : Dev) (a : Word) (outs : List Byte) :
    BothAnswer (Queued q) (runRead d a outs s) (runRead d a outs t) := by
  unfold Machine.runRead
  split
  · exact (h.performFrame d _ _).state
  · rfl

theorem Queued.runProgram (h : Queued q s t) (d : Dev) (a : Word) (data : List Byte) :
    BothAnswer (Queued q) (runProgram d a data s) (runProgram d a data t) := by
  unfold Machine.runProgram
  split
  · exact (h.frameProgram d a data).state
  · rfl

/-- A wire frame run by itself. -/
theorem Queued.execFrame (h : Queued q s t) {d : Dev} {bytes : List Byte} {i : Instr}
    (hi : decode (.frame d bytes) = .ok i) : BothAnswer (Queued q) (exec i s) (exec i t) := by
  cases hf : parseFrame d bytes with
  | error e => simp [decode, hf] at hi
  | ok f =>
    simp only [decode, hf] at hi
    cases f with
    | wren => cases d <;> cases hi <;> exact (h.frameWren _).state
    | rdsr x => cases d <;> cases hi <;> exact (h.frameRdsr _ x).state
    | read a outs => cases d <;> cases hi <;> exact h.runRead _ _ outs
    | program a data => cases d <;> cases hi <;> exact h.runProgram _ _ data
    | erase a =>
      cases d with
      | ee => cases hi
      | nor =>
        simp only [Frame.toInstr] at hi
        split at hi <;> cases hi
        exact (h.frameErase _).state

/-- A later step of an operation. -/
theorem Queued.stepFrame (h : Queued q s t) : BothAnswer (Queued q) (stepFrame s) (stepFrame t) := by
  have hn : Queued q { s with frame := none } { t with frame := none } :=
    h.map (fun u => { u with frame := none }) fun _ _ => rfl
  exact BothAnswer.stepFrame h h.alike.frame (fun _ _ _ hi => hn.execFrame hi) fun d bytes _ _ k => k.afterFrame d bytes

end

/-! ### The statement -/

/-- Settles O12: a queue that waits stays as it is while the sequencer goes on; the other moves are made at once. -/
theorem movesThatWaitAndTheDevicesOwn : Obligations.MovesThatWaitAndTheDevicesOwn := by
  intro s ms hf hg
  refine ⟨fun hi hb => ?_, fun hi hb t ht => ?_, fun k r hi hb => ?_, fun d hi => ?_⟩
  · rw [step_move hf hg hi (by simp [hb])]
    rfl
  · have hm : nextMove s = none := by simp [nextMove, hi, HostMove.waits, hb]
    have hq : Queued (.awaitIdle :: ms) { s with inbox := [] } s := ⟨by rw [← hi], rfl, rfl⟩
    have hstep : step { s with inbox := [] } = stepFrame { s with inbox := [] } := step_frame hf hg rfl
    rw [hstep] at ht
    obtain ⟨u, hu, huq⟩ := hq.stepFrame.next ht
    rw [step_frame hf hg hm, hu, huq.eq]
  · rw [step_move hf hg hi (by simp [hb])]
    rfl
  · refine ⟨deviceReady d { s with inbox := ms }, ?_, ?_, ?_⟩
    · rw [step_move hf hg hi rfl]
      rfl
    · cases d <;> rfl
    · cases d <;> rfl

end Sys2Proof.Machine
end

section
/-! The host request descriptor, encoded and decoded (R102 to R106): the words of a request, the rows of the table, and the
illegal requests. -/

namespace Sys2Proof.Machine

open Sys2Proof.Laws.EncodeMatchesTable

/-! ### The fields of W0 (R102) -/

/-- Bit `i` of an encoded W0, field by field (R102). -/
theorem encodeW0_getLsbD (sel : BitVec 5) (r : Req) (i : Nat) : (encodeW0 sel r).getLsbD i =
    if i < 5 then sel.getLsbD i
    else if i = 5 then r.bufv
    else if i < 8 then false
    else if i < 16 then r.val.getLsbD (i - 8)
    else r.bitn.getLsbD (i - 16) := by
  have h : (encodeW0 sel r).getLsbD i = @BitVec.getLsbD (8 + 8 + 8 + 2 + 1 + 5)
      (0#8 ++ r.bitn ++ r.val ++ 0#2 ++ BitVec.ofBool r.bufv ++ sel) i := rfl
  rw [h]
  simp only [BitVec.getLsbD_append, BitVec.getLsbD_zero, BitVec.getLsbD_ofBool, Nat.sub_sub]
  grind

/-- The decoder finds `DEV` and `OP` where the encoder put them. -/
theorem selectorOf_encodeW0 (sel : BitVec 5) (r : Req) : selectorOf (encodeW0 sel r) = sel := by
  refine BitVec.eq_of_getLsbD_eq fun i hi => ?_
  rw [selectorOf, BitVec.getLsbD_extractLsb', encodeW0_getLsbD]
  simp [hi]

/-- The encoder leaves the reserved fields zero (R105). -/
theorem reservedClear_encodeW0 (sel : BitVec 5) (r : Req) : reservedClear (encodeW0 sel r) = true := by
  have h6 : (encodeW0 sel r).extractLsb' 6 2 = 0#2 := by
    refine BitVec.eq_of_getLsbD_eq fun i hi => ?_
    rw [BitVec.getLsbD_extractLsb', encodeW0_getLsbD]
    grind
  have h24 : (encodeW0 sel r).extractLsb' 24 8 = 0#8 := by
    refine BitVec.eq_of_getLsbD_eq fun i hi => ?_
    have h : r.bitn.getLsbD (24 + i - 16) = false := BitVec.getLsbD_of_ge _ _ (by omega)
    rw [BitVec.getLsbD_extractLsb', encodeW0_getLsbD]
    grind
  simp [reservedClear, h6, h24]

/-- The decoder finds the operands where the encoder put them. -/
theorem operandsOf_encodeW0 (sel : BitVec 5) (r : Req) : operandsOf (encodeW0 sel r) r.addr r.len = r := by
  have hval : (encodeW0 sel r).extractLsb' 8 8 = r.val := by
    refine BitVec.eq_of_getLsbD_eq fun i hi => ?_
    rw [BitVec.getLsbD_extractLsb', encodeW0_getLsbD]
    grind
  have hbitn : (encodeW0 sel r).extractLsb' 16 8 = r.bitn := by
    refine BitVec.eq_of_getLsbD_eq fun i hi => ?_
    rw [BitVec.getLsbD_extractLsb', encodeW0_getLsbD]
    grind
  have hbufv : (encodeW0 sel r).getLsbD 5 = r.bufv := by
    rw [encodeW0_getLsbD]
    simp
  rw [operandsOf, hval, hbitn, hbufv]

theorem getLsbD_of_field_zero {w0 : Word} {start len i : Nat} (h : w0.extractLsb' start len = 0#len) (hs : start ≤ i)
    (he : i < start + len) : w0.getLsbD i = false := by
  have hbit := congrArg (fun b => b.getLsbD (i - start)) h
  simpa [show i - start < len by omega, Nat.add_sub_cancel' hs] using hbit

/-- The fields of R102 and the reserved ones are all of W0. -/
theorem encodeW0_operandsOf {w0 : Word} (w1 w2 : Word) (h : reservedClear w0 = true) :
    encodeW0 (selectorOf w0) (operandsOf w0 w1 w2) = w0 := by
  simp only [reservedClear, Bool.and_eq_true, decide_eq_true_eq] at h
  obtain ⟨h6, h24⟩ := h
  refine BitVec.eq_of_getLsbD_eq fun i hi => ?_
  have hlow := getLsbD_of_field_zero (i := i) h6
  have hhigh := getLsbD_of_field_zero (i := i) h24
  rw [encodeW0_getLsbD]
  simp only [selectorOf, operandsOf, BitVec.getLsbD_extractLsb']
  grind

/-! ### The mask of R106 -/

/-- The mask keeps the fields it covers. -/
theorem extractLsb'_masked {start len : Nat} (w0 : Word) (h : requestMask.extractLsb' start len = BitVec.allOnes len) :
    (w0 &&& requestMask).extractLsb' start len = w0.extractLsb' start len := by
  rw [BitVec.extractLsb'_and, h, BitVec.and_allOnes]

/-- The masked word is `DEV` and `OP` exactly when the reserved fields are zero (R102, R105, R106). -/
theorem masked_eq_iff (w0 : Word) (sel : BitVec 5) :
    w0 &&& requestMask = sel.setWidth 32 ↔ reservedClear w0 = true ∧ selectorOf w0 = sel := by
  constructor
  · intro h
    have hsel := extractLsb'_masked (start := 0) (len := 5) w0 (by decide)
    have h6 := extractLsb'_masked (start := 6) (len := 2) w0 (by decide)
    have h24 := extractLsb'_masked (start := 24) (len := 8) w0 (by decide)
    have hfields : ∀ v : BitVec 5, (v.setWidth 32).extractLsb' 0 5 = v ∧ (v.setWidth 32).extractLsb' 6 2 = 0#2 ∧
        (v.setWidth 32).extractLsb' 24 8 = 0#8 := by decide
    obtain ⟨f0, f6, f24⟩ := hfields sel
    rw [h] at hsel h6 h24
    exact ⟨by simp [reservedClear, ← h6, ← h24, f6, f24], hsel.symm.trans f0⟩
  · rintro ⟨hr, rfl⟩
    rw [← encodeW0_operandsOf 0 0 hr, masked_encodeW0, selectorOf_encodeW0]

/-! ### The rows of the table (R103, R106) -/

section
variable {row row' : Word × (Req → Instr)}

/-- A row's `match` value is `DEV` and `OP` alone. -/
theorem row_match_eq (h : row ∈ requestTable) : row.1 = (row.1.setWidth 5).setWidth 32 := by
  revert row
  decide

/-- A row's instruction is encoded with the row's `DEV` and `OP`, decoded from them, and stands for that row. -/
theorem row_laws (h : row ∈ requestTable) (r : Req) : encode (row.2 r) = encodeRequest (row.1.setWidth 5) r ∧
    decodeSelector (row.1.setWidth 5).toNat r = .ok (row.2 r) ∧ requestMatch (row.2 r) = some row.1 := by
  simp only [requestTable, List.mem_cons, List.not_mem_nil, or_false] at h
  rcases h with rfl | rfl | rfl | rfl | rfl | rfl | rfl | rfl | rfl | rfl | rfl | rfl | rfl <;> exact ⟨rfl, rfl, rfl⟩

/-- No two rows have the same `match` value. -/
theorem row_unique (h : row ∈ requestTable) (h' : row' ∈ requestTable) (e : row.1 = row'.1) : row = row' :=
  List.inj_on_of_nodup_map (show (requestTable.map Prod.fst).Nodup by decide) h h' e

/-- What a selector decodes to is a row of the table. -/
theorem row_of_decodeSelector {c : Nat} {r : Req} {i : Instr} (h : decodeSelector c r = .ok i) :
    ∃ row ∈ requestTable, (row.1.setWidth 5).toNat = c ∧ row.2 r = i := by
  unfold decodeSelector at h
  split at h <;> cases h <;> simp [requestTable]

/-! ### Decoding a request -/

/-- A request decodes to the row whose `match` value its masked word equals, and to nothing else (R106). -/
theorem decode_request_iff (w0 w1 w2 : Word) (i : Instr) : decode (.request w0 w1 w2) = .ok i ↔
    ∃ row ∈ requestTable, w0 &&& requestMask = row.1 ∧ row.2 (operandsOf w0 w1 w2) = i := by
  constructor
  · intro h
    simp only [decode, decodeRequest] at h
    split at h
    · obtain ⟨row, hrow, hsel, hi⟩ := row_of_decodeSelector h
      refine ⟨row, hrow, ?_, hi⟩
      rw [row_match_eq hrow, masked_eq_iff]
      exact ⟨‹_›, (BitVec.eq_of_toNat_eq hsel).symm⟩
    · cases h
  · rintro ⟨row, hrow, hm, rfl⟩
    rw [row_match_eq hrow, masked_eq_iff] at hm
    obtain ⟨hr, hsel⟩ := hm
    obtain ⟨-, hdec, -⟩ := row_laws hrow (operandsOf w0 w1 w2)
    rw [decode, decodeRequest, if_pos hr, hsel, hdec]

/-- A request decodes to a row, or is illegal. -/
theorem decode_request_cases (w0 w1 w2 : Word) :
    decode (.request w0 w1 w2) = .error .illegalRequest ∨ ∃ i, decode (.request w0 w1 w2) = .ok i := by
  simp only [decode, decodeRequest, decodeSelector]
  split
  · split <;> simp
  · exact .inl rfl

/-- An encoded request decodes as its selector does. -/
theorem decode_encodeRequest (sel : BitVec 5) (r : Req) : decode (encodeRequest sel r) = decodeSelector sel.toNat r := by
  rw [encodeRequest, decode, decodeRequest, reservedClear_encodeW0, selectorOf_encodeW0, operandsOf_encodeW0]
  rfl

/-- Settles O2: the row gives `DEV` and `OP`, the operands the other fields, and the reserved fields are zero. -/
theorem requestWordsEncodeBack : Obligations.RequestWordsEncodeBack := by
  intro w0 w1 w2 i h
  obtain ⟨row, hrow, hm, rfl⟩ := (decode_request_iff w0 w1 w2 i).1 h
  rw [row_match_eq hrow, masked_eq_iff] at hm
  obtain ⟨hr, hsel⟩ := hm
  obtain ⟨henc, -, -⟩ := row_laws hrow (operandsOf w0 w1 w2)
  rw [henc, encodeRequest, ← hsel, encodeW0_operandsOf w1 w2 hr]
  rfl

/-! ### The illegal requests (R105) -/

/-- The selector is `DEV` before `OP` (R102). -/
theorem selectorOf_toNat (w0 : Word) :
    (selectorOf w0).toNat = (w0.extractLsb' 0 4).toNat + 16 * (w0.getLsbD 4).toNat := by
  have hdev : w0.getLsbD 4 = decide (w0.toNat / 16 % 2 = 1) := by
    rw [BitVec.getLsbD, Nat.testBit_eq_decide_div_mod_eq]
  rw [selectorOf, BitVec.extractLsb'_toNat, BitVec.extractLsb'_toNat, hdev]
  by_cases h : w0.toNat / 16 % 2 = 1 <;> simp [h] <;> omega

/-- The selectors that no row of R103 has. -/
theorem decodeSelector_illegal_iff (c : Nat) (r : Req) :
    decodeSelector c r = .error .illegalRequest ↔ c = 0 ∨ (7 ≤ c ∧ c ≤ 16) ∨ 24 ≤ c := by
  unfold decodeSelector
  split <;> grind

/-- The decoder refuses exactly the cases of R105. -/
theorem isIllegal_iff (w0 w1 w2 : Word) : isIllegal w0 ↔ decode (.request w0 w1 w2) = .error .illegalRequest := by
  rw [decode, decodeRequest]
  split
  · rename_i hr
    simp only [reservedClear, Bool.and_eq_true, decide_eq_true_eq] at hr
    obtain ⟨h6, h24⟩ := hr
    have hop := (w0.extractLsb' 0 4).isLt
    rw [decodeSelector_illegal_iff, selectorOf_toNat]
    simp only [isIllegal, h6, h24, ← BitVec.toNat_inj]
    cases w0.getLsbD 4 <;> grind
  · rename_i hr
    refine iff_of_true ?_ rfl
    by_contra hi
    simp only [isIllegal, not_or, ne_eq, not_not] at hi
    obtain ⟨-, -, h6, h24, -⟩ := hi
    exact hr (by simp [reservedClear, h6, h24])

/-- Settles O4: the decoder reads the row off the masked word, the rows have different `match` values, and what the decoder
refuses has no row. -/
theorem maskedWordSelectsTheRow : Obligations.MaskedWordSelectsTheRow := by
  intro w0 w1 w2
  refine ⟨fun row hrow => ⟨fun hm => ?_, fun hd => ?_⟩, fun hl => ?_, fun hi row hrow hm => ?_⟩
  · exact (decode_request_iff ..).2 ⟨row, hrow, hm, rfl⟩
  · obtain ⟨row', hrow', hm, he⟩ := (decode_request_iff ..).1 hd
    obtain ⟨-, -, hmatch⟩ := row_laws hrow (operandsOf w0 w1 w2)
    obtain ⟨-, -, hmatch'⟩ := row_laws hrow' (operandsOf w0 w1 w2)
    rw [he, hmatch] at hmatch'
    exact hm.trans (Option.some.inj hmatch').symm
  · rw [isIllegal_iff w0 w1 w2] at hl
    obtain ⟨i, hd⟩ := (decode_request_cases w0 w1 w2).resolve_left hl
    obtain ⟨row, hrow, hm, -⟩ := (decode_request_iff ..).1 hd
    exact ⟨row, ⟨hrow, hm⟩, fun row' ⟨hrow', hm'⟩ => row_unique hrow' hrow (hm'.symm.trans hm)⟩
  · have hd := (decode_request_iff w0 w1 w2 _).2 ⟨row, hrow, hm, rfl⟩
    rw [(isIllegal_iff w0 w1 w2).1 hi] at hd
    cases hd

end

end Sys2Proof.Machine
end

section
/-! The wire frames, encoded and decoded (R90 to R98), and the encoding of every instruction decoded again. -/

namespace Sys2Proof.Machine

/-! ### The bytes of a frame (R91 to R98) -/

/-- The bytes of a frame on the transport of device `d`. -/
def frameBytes (d : Dev) : Frame → List Byte
  | .wren => [Config.opcWren]
  | .rdsr x => [Config.opcRdsr, x]
  | .read a outs => headerBytes d Config.opcRead (BitVec.ofNat 32 a) ++ outs
  | .program a data => headerBytes d Config.opcProgram (BitVec.ofNat 32 a) ++ data
  | .erase a => headerBytes d Config.opcSe (BitVec.ofNat 32 a)

/-- The address bytes a device hears are the header of the address it makes of them (R92, R93, R99). -/
theorem header_of_takeAddr {d : Dev} {rest tl : List Byte} {a : Nat} (c : Byte) (h : takeAddr d rest = some (a, tl)) :
    headerBytes d c (BitVec.ofNat 32 a) ++ tl = c :: rest := by
  unfold takeAddr at h
  split at h
  · rename_i hi lo tl
    cases h
    have := hi.isLt
    have := lo.isLt
    simp only [headerBytes, List.cons_append, List.nil_append, List.cons.injEq, true_and, and_true, ← BitVec.toNat_inj,
      BitVec.extractLsb'_toNat, BitVec.toNat_ofNat, Nat.shiftRight_eq_div_pow]
    omega
  · rename_i b2 b1 b0 tl
    cases h
    have := b2.isLt
    have := b1.isLt
    have := b0.isLt
    simp only [headerBytes, List.cons_append, List.nil_append, List.cons.injEq, true_and, and_true, ← BitVec.toNat_inj,
      BitVec.extractLsb'_toNat, BitVec.toNat_ofNat, Nat.shiftRight_eq_div_pow]
    omega
  · cases h

/-- A device makes a frame of its own bytes only. -/
theorem frameBytes_of_parseFrame {d : Dev} {bytes : List Byte} {f : Frame} (h : parseFrame d bytes = .ok f) :
    frameBytes d f = bytes := by
  cases bytes with
  | nil => cases h
  | cons c rest =>
    simp only [parseFrame] at h
    split_ifs at h with hw hr hd hp he
    · split at h <;> cases h
      rw [hw]; rfl
    · split at h <;> cases h
      rw [hr]; rfl
    · split at h <;> cases h
      rw [hd]; exact header_of_takeAddr _ ‹_›
    · split at h <;> cases h
      rw [hp]; exact header_of_takeAddr _ ‹_›
    · split at h <;> cases h
      rw [he.1]
      have hb := header_of_takeAddr Config.opcSe ‹_›
      rwa [List.append_nil] at hb

/-- A header has no bits of the address but those of its address bytes (R92, R93). -/
theorem headerBytes_ofNat (d : Dev) (c : Byte) (a : Nat) :
    headerBytes d c ((BitVec.ofNat (8 * d.addrBytes) a).setWidth 32) = headerBytes d c (BitVec.ofNat 32 a) := by
  cases d <;>
  · simp only [headerBytes, Dev.addrBytes, List.cons.injEq, true_and, and_true, ← BitVec.toNat_inj,
      BitVec.extractLsb'_toNat, BitVec.toNat_setWidth, BitVec.toNat_ofNat, Nat.shiftRight_eq_div_pow]
    omega

/-- The instruction a frame is encodes to the bytes of the frame (R94 to R98). -/
theorem encode_toInstr {d : Dev} {f : Frame} {i : Instr} (h : f.toInstr d = .ok i) :
    encode i = .frame d (frameBytes d f) := by
  cases f with
  | wren => cases d <;> cases h <;> rfl
  | rdsr x => cases d <;> cases h <;> rfl
  | read a outs =>
    rw [frameBytes, ← headerBytes_ofNat]
    cases d <;> cases h <;> rfl
  | program a data =>
    rw [frameBytes, ← headerBytes_ofNat]
    cases d <;> cases h <;> rfl
  | erase a =>
    rw [frameBytes, ← headerBytes_ofNat]
    cases d with
    | ee => cases h
    | nor =>
      simp only [Frame.toInstr] at h
      split at h <;> cases h
      rfl

/-- Settles O3: the device makes a frame of its bytes, and the frame's instruction encodes to them. -/
theorem frameBytesEncodeBack : Obligations.FrameBytesEncodeBack := by
  intro d bytes i h
  simp only [decode] at h
  split at h
  · rename_i f hf
    rw [encode_toInstr h, frameBytes_of_parseFrame hf]
  · cases h

/-! ### Every instruction (R94 to R98, R102, R103) -/

theorem decode_frame {d : Dev} {bytes : List Byte} {f : Frame} (h : parseFrame d bytes = .ok f) :
    decode (.frame d bytes) = f.toInstr d := by
  rw [decode, h]

/-- An address of the sequencer's 32 bits is the address of the frame it was cut for. -/
theorem ofNat_setWidth_address {w : Nat} (h : w ≤ 32) (a : BitVec w) : BitVec.ofNat w (a.setWidth 32).toNat = a := by
  rw [toNat_setWidth_address h, BitVec.ofNat_toNat, BitVec.setWidth_eq]

theorem start_of_readFits {d : Dev} {a n : Nat} (h : readFits d a n = true) : a < d.size := by
  simp only [readFits, Bool.and_eq_true, decide_eq_true_eq] at h
  exact h.1

theorem start_of_programFits {d : Dev} {a k : Nat} (h : programFits d a k = true) : 1 ≤ k ∧ a < d.size := by
  simp only [programFits, Bool.and_eq_true, decide_eq_true_eq] at h
  exact h.1

/-- A program frame that begins inside the device and has a data byte is heard as it was sent (R97). -/
theorem parse_program_fits {d : Dev} {a : Word} {data : List Byte} (h : programFits d a.toNat data.length = true) :
    parseFrame d (headerBytes d Config.opcProgram a ++ data) = .ok (.program a.toNat data) := by
  obtain ⟨hk, ha⟩ := start_of_programFits h
  cases data with
  | nil => cases hk
  | cons b data => exact parse_program d a b data ha

/-- Settles O1: a request by its fields, a frame by what its device makes of its bytes. -/
theorem decodeEncodeAgree : Obligations.DecodeEncodeAgree := by
  intro i hwf
  cases i with
  | eeReadByte r => exact decode_encodeRequest 1 r
  | eeWriteByte r => exact decode_encodeRequest 2 r
  | eeReadArray r => exact decode_encodeRequest 3 r
  | eeWriteArray r => exact decode_encodeRequest 4 r
  | eeSetBit r => exact decode_encodeRequest 5 r
  | eeClearBit r => exact decode_encodeRequest 6 r
  | norReadByte r => exact decode_encodeRequest 17 r
  | norWriteByte r => exact decode_encodeRequest 18 r
  | norReadArray r => exact decode_encodeRequest 19 r
  | norWriteArray r => exact decode_encodeRequest 20 r
  | norSetBit r => exact decode_encodeRequest 21 r
  | norClearBit r => exact decode_encodeRequest 22 r
  | norEraseSector r => exact decode_encodeRequest 23 r
  | eeWren => rfl
  | norWren => rfl
  | eeRdsr x => rfl
  | norRdsr x => rfl
  | eeRead a outs =>
    have ha : (a.setWidth 32).toNat < Dev.ee.size := by
      rw [toNat_setWidth_address (by decide)]
      exact start_of_readFits hwf
    rw [encode, decode_frame (parse_read .ee _ outs ha), Frame.toInstr, ofNat_setWidth_address (by decide)]
  | norRead a outs =>
    rw [encode, decode_frame (parse_read .nor _ outs (address_lt_norSize a)), Frame.toInstr,
      ofNat_setWidth_address (by decide)]
  | eeProgram a data =>
    rw [Instr.wellFormed, ← toNat_setWidth_address (by decide) a] at hwf
    rw [encode, decode_frame (parse_program_fits hwf), Frame.toInstr, ofNat_setWidth_address (by decide)]
  | norProgram a data =>
    rw [Instr.wellFormed, ← toNat_setWidth_address (by decide) a] at hwf
    rw [encode, decode_frame (parse_program_fits hwf), Frame.toInstr, ofNat_setWidth_address (by decide)]
  | norSe a =>
    rw [Instr.wellFormed, decide_eq_true_eq, ← toNat_setWidth_address (by decide) a] at hwf
    rw [encode, decode_frame (parse_erase _ (address_lt_norSize a)), Frame.toInstr, if_pos hwf,
      ofNat_setWidth_address (by decide)]

/-- Settles O6: each word evaluated. -/
theorem sampleWordsDecode : Obligations.SampleWordsDecode := by
  refine ⟨?_, ?_, ?_, ?_⟩ <;> decide

end Sys2Proof.Machine
end

section
/-! What a step does with what it decodes (R102, R105, R127, R132). -/

namespace Sys2Proof.Machine

/-- The request in the host registers is run (R132). -/
theorem stepRequest_legal {s : State} {i : Instr} (h : decode (requestCode s) = .ok i) :
    stepRequest s = exec i { s with go := false } := by
  rw [stepRequest, h]

/-- The request in the host registers is illegal and ends at once (R105). -/
theorem stepRequest_illegal {s : State} (h : isIllegal s.reqCtrl) :
    stepRequest s = .next (acceptIllegal { s with go := false }) := by
  rw [stepRequest, requestCode, (isIllegal_iff _ _ _).1 h]

/-- An illegal request that finds the block free is latched, and ends before the host has made a move (R132, R207). -/
theorem acceptIllegal_free {s : State} (hb : s.busy = false) (hu : Unobserved s) :
    acceptIllegal s = finish .illegalRequest
      (accept (s.reqCtrl.extractLsb' 0 4) (devOf s.reqCtrl) (operandsOf s.reqCtrl s.reqAddr s.reqLen) s) := by
  rw [acceptIllegal, if_neg (by simp [hb]), hostPoint_self (s := accept ..) (hu.of rfl)]

/-- Settles O5: R105 case by case, and the one way an illegal request ends. -/
theorem illegalRequestEndsAtOnce : Obligations.IllegalRequestEndsAtOnce := by
  refine ⟨isIllegal_iff, fun s hg hb hf hu hi => ?_⟩
  rw [step_go hf hg, stepRequest_illegal hi, acceptIllegal_free (s := { s with go := false }) hb (hu.of rfl)]
  rfl

/-- Settles O7: a step in which `GO` has issued a legal request. -/
theorem stepRunsTheRequest : Obligations.StepRunsTheRequest := by
  intro s i hf hg hi
  rw [step_go hf hg, stepRequest_legal hi]

/-- Settles O8: a step in which nothing comes before the frame. -/
theorem stepRunsTheFrame : Obligations.StepRunsTheFrame := by
  intro s d bytes i hf hg hm hs hi
  rw [step_frame hf hg hm]
  simp only [stepFrame, hs, hi] <;> rfl

end Sys2Proof.Machine
end

section
/-! One turn of a poll loop with its whole next state, and a finite wait to its end (R66, R127, R129, R206). -/

namespace Sys2Proof.Machine

/-! ### The poll limit (R127) -/

/-- The limit is not reached: there is none, or it is above the count. -/
theorem limitHit_eq_false_iff (limit : Option Nat) (count : Nat) :
    limitHit limit count = false ↔ limit = none ∨ ∃ n, limit = some n ∧ count < n := by
  cases limit <;> simp [limitHit]

/-! ### The three ways a turn ends -/

/-- What the status frame of a turn changes: its device, the draws, `st`, the trace and the frame slot. -/
theorem sampledState_eq (d : Dev) (s : State) :
    let st := statusOfDraw (s.device d).sample.1 (s.drawAt 0)
    sampledState d s = { ((s.skipDraws 1).setDevice d (s.device d).sample.2.close).setCs d false with
      st := st, frame := none, trace := s.trace ++ rdsrEvents d s.params.dummyOut st } := by
  cases d <;> rfl

@[simp] theorem sampledState_pollcnt (d : Dev) (s : State) : (sampledState d s).pollcnt = s.pollcnt := by
  simp [sampledState]

section
variable {d : Dev} {s : State}

/-- No move of the host lands in the turn of a loop that waits. -/
theorem Waiting.unobserved (hw : Waiting d s) {t : State} (ht : t.inbox = s.inbox) : Unobserved t := by
  obtain ⟨-, -, -, -, -, hi, -⟩ := hw
  rw [Unobserved, ht, hi]
  rfl

/-- The device is ready, and an operation that is no bulk write ends `Ok` (R127, R161). -/
theorem step_turn_ready (hw : Waiting d s) (hl : (s.device d).lost = none) (hv : (s.device d).sample.1 = false)
    (hop : s.latch.op ≠ 4) : step s = .next (finish .ok ((sampledState d s).toPhase .idle)) := by
  have hop' : ((sampledState d s).toPhase .idle).latch.op ≠ 4 := by simpa using hop
  rw [step_turn hw hl, judgeStatus_ready d (by simp [hv]), enterPhase_self _ (hw.unobserved (by simp)), Flow.finally_go,
    afterWait, if_neg fun h => hop' h.1]
  rfl

/-- The device is busy and the limit reached: the operation ends `DeviceNotReady`, with no delay (R206). -/
theorem step_turn_gaveUp (hw : Waiting d s) (hl : (s.device d).lost = none) (hv : (s.device d).sample.1 = true)
    (hlim : limitHit s.params.pollLimit (s.pollcnt + 1) = true) :
    step s = .next (finish .deviceNotReady (State.toPhase { sampledState d s with pollcnt := s.pollcnt + 1 } .idle)) := by
  have hu : Unobserved { sampledState d s with pollcnt := s.pollcnt + 1 } := hw.unobserved (sampledState_inbox d s)
  rw [step_turn hw hl, judgeStatus_gaveUp (by simp [hv]) (by simpa using hlim), sampledState_pollcnt, enterPhase_self _ hu,
    Flow.finally_go, afterWait, if_neg (by simp)]
  rfl

/-- The device is busy and the limit not reached: the delay, and the same frame stands ready again (R127). -/
theorem step_turn_waits (hw : Waiting d s) (hl : (s.device d).lost = none) (hv : (s.device d).sample.1 = true)
    (hlim : limitHit s.params.pollLimit (s.pollcnt + 1) = false) :
    step s = .next { sampledState d s with
      pollcnt := s.pollcnt + 1
      trace := (sampledState d s).trace ++ [.dly d s.params.pollDelayUs]
      frame := s.frame } := by
  have hstep := step_turn hw hl
  obtain ⟨-, -, -, hfr, -, -, hf⟩ := hw
  rw [hstep, judgeStatus_waits (by simp [hv]) (by simp [hf]) (by simpa using hlim), Flow.finally_halt, hfr]
  simp only [sampledState_params, sampledState_pollcnt, rdsrBytes]

/-- A loop waits as long as its control state, its frame and its parameters stand. -/
theorem Waiting.of_same (hw : Waiting d s) {t : State} (hb : t.busy = s.busy) (hp : t.phase = s.phase)
    (hd : t.latch = s.latch) (hfr : t.frame = s.frame) (hpar : t.params = s.params) (hg : t.go = s.go)
    (hi : t.inbox = s.inbox) (hf : t.fuse = s.fuse) : Waiting d t := by
  simpa only [Waiting, rdsrBytes, hb, hp, hd, hfr, hpar, hg, hi, hf] using hw

end

/-- Settles O36: the status frame, and the judgement of its byte. -/
theorem oneTurnOfThePollLoop : Obligations.OneTurnOfThePollLoop := by
  intro d s hw hl v st read turn
  refine ⟨fun hv hop => ?_, fun hv hlim => ?_, fun hv hlim => ⟨?_, ?_⟩⟩
  · rw [step_turn_ready hw hl hv hop, sampledState_eq]
    rfl
  · rw [step_turn_gaveUp hw hl hv ((limitHit_iff _ _).2 hlim), sampledState_eq]
    rfl
  · rw [step_turn_waits hw hl hv ((limitHit_eq_false_iff _ _).2 hlim), sampledState_eq]
    simp [read, turn, st, v]
  · apply hw.of_same <;> simp [read]

/-! ### A wait of `n` busy reads (R66) -/

/-- The latch is as it was after a turn that waits on. -/
theorem WaitsFor.turn_latch {d : Dev} {n : Nat} {m : List Host.Cell} {s t : State} (h : WaitsFor d (n + 1) m s)
    (ht : step s = .next t) : t.latch = s.latch := by
  have hv : (s.device d).sample.1 = true := by simp [Device.sample, h.dbusy, h.reads]
  rw [step_turn_waits h.waiting h.lost hv (by rw [h.limit]; rfl), Host.Outcome.next.injEq] at ht
  rw [← ht]
  exact sampledState_latch d s

/-- The turn that finds the device ready leaves `phase` at `Idle` and the latch as it was. -/
theorem WaitsFor.ends_idle {d : Dev} {m : List Host.Cell} {s t : State} (h : WaitsFor d 0 m s) (ht : step s = .next t) :
    t.phase = .idle ∧ t.latch = s.latch := by
  have hv : (s.device d).sample.1 = false := by simp [Device.sample, h.dbusy, h.reads]
  rw [step_turn_ready h.waiting h.lost hv h.op, Host.Outcome.next.injEq] at ht
  rw [← ht]
  exact ⟨rfl, sampledState_latch d s⟩

/-- The operation has ended after `n + 1` steps, its request still in the latch. -/
theorem WaitsFor.ends_after {d : Dev} {n : Nat} {m : List Host.Cell} {s : State} (h : WaitsFor d n m s) :
    ∃ t, Machine.steps (n + 1) s = .next t ∧ WriteDone d m t ∧ t.phase = .idle ∧ t.latch = s.latch := by
  induction n generalizing s with
  | zero =>
    obtain ⟨t, ht, hdone⟩ := h.ends
    exact ⟨t, by rw [Machine.steps, ht]; rfl, hdone, h.ends_idle ht⟩
  | succ n ih =>
    obtain ⟨t, ht, hw⟩ := h.turn
    obtain ⟨u, hu, hdone, hp, hlatch⟩ := ih hw
    exact ⟨u, by rw [Machine.steps, ht]; exact hu, hdone, hp, hlatch.trans (h.turn_latch ht)⟩

/-- Up to `n` steps the operation is in progress. -/
theorem WaitsFor.busy_until {d : Dev} {n k : Nat} {m : List Host.Cell} {s : State} (h : WaitsFor d n m s) (hk : k ≤ n) :
    ∃ t, Machine.steps k s = .next t ∧ t.busy = true := by
  induction k generalizing n s with
  | zero => exact ⟨s, rfl, h.waiting.1⟩
  | succ k ih =>
    obtain ⟨n, rfl⟩ : ∃ j, n = j + 1 := ⟨n - 1, by omega⟩
    obtain ⟨t, ht, hw⟩ := h.turn
    obtain ⟨u, hu, hb⟩ := ih hw (by omega)
    exact ⟨u, by rw [Machine.steps, ht]; exact hu, hb⟩

/-- Settles O39: a busy read less at each turn, and the last turn finds the device ready. -/
theorem finiteWaitEndsOk : Obligations.FiniteWaitEndsOk := by
  intro d s n hw hop hl hb hn hlim
  have h : WaitsFor d n (s.device d).mem s := ⟨hw, hl, hb, hn, rfl, hlim, hop⟩
  obtain ⟨t, ht, hdone, hp, hlatch⟩ := h.ends_after
  obtain ⟨-, -, hready⟩ := hdone.quiet
  exact ⟨⟨t, ht, hdone.busy, hp, hdone.outcome, hlatch, hready, hdone.mem⟩, fun k hk => h.busy_until hk⟩

end Sys2Proof.Machine
end

section
/-! The operations with one write cycle up to that cycle, and the chunks of a bulk write, when the first status read returns busy
(R127, R128, R151, R206). -/

namespace Sys2Proof.Machine

/-! ### An operation at its write cycle (R161, R164, R165, R182, R185, R186) -/

/-- The operation `w` on the operands `r`, accepted in `s` and come to its write cycle: its read frames are done, and they have
left its device as `v` and its exclusive access as `b`. -/
def atCycle (w : Write) (r : Req) (v : Device) (b : Bool) (s : State) : State :=
  { (s.setDevice w.dev v).setCs w.dev b with
    latch := latchOf w.op w.dev r, busy := true, tmp := w.tmp, trace := s.trace ++ w.reads }

/-- The instruction of `w` comes to its write cycle, whose frame leaves what `w` says, and ends by what the cycle answers. The
read frames before it, if there are any, have changed nothing of the device but its address counter and the bytes heard. -/
def ComesToCycle (w : Write) (r : Req) (s : State) : Prop :=
  ∃ v b body, v.close = (s.device w.dev).close ∧ Body w.dev s body w.mem w.body ∧
    exec w.instr s = .next ((writeCycle w.dev body (atCycle w r v b s)).finally finishReady)

section
variable (w : Write) (r : Req) (v : Device) (b : Bool) (s : State)

@[simp] theorem atCycle_device : (atCycle w r v b s).device w.dev = v := by
  obtain ⟨i, op, d, ok, reads, tmp, body, mem⟩ := w
  cases d <;> rfl
@[simp] theorem atCycle_fuse : (atCycle w r v b s).fuse = s.fuse := by simp [atCycle]
@[simp] theorem atCycle_inbox : (atCycle w r v b s).inbox = s.inbox := by simp [atCycle]
@[simp] theorem atCycle_params : (atCycle w r v b s).params = s.params := by simp [atCycle]
@[simp] theorem atCycle_drawAt (j : Nat) : (atCycle w r v b s).drawAt j = s.drawAt j := by simp [atCycle, State.drawAt]

/-- The device and its exclusive access after the frames of the cycle do not depend on what the reads left of them. -/
theorem atCycle_framed (n : Nat) (x : Device) (es : List Event) :
    ((atCycle w r v b s).skipDraws n).framed w.dev x es =
      { ((s.skipDraws n).setDevice w.dev x).setCs w.dev false with
        latch := latchOf w.op w.dev r, busy := true, tmp := w.tmp, trace := s.trace ++ w.reads ++ es } := by
  obtain ⟨i, op, d, ok, reads, tmp, body, mem⟩ := w
  cases d <;> simp only [atCycle, State.framed, State.setDevice, State.setCs, State.skipDraws]

variable {w r v b s}

theorem atCycle_quiet (hq : Quiet w.dev s) (hv : v.close = (s.device w.dev).close) : Quiet w.dev (atCycle w r v b s) := by
  obtain ⟨hf, hl, hd⟩ := hq
  rw [Quiet, atCycle_device, atCycle_fuse, ← close_lost v, ← close_dbusy v, hv]
  exact ⟨hf, hl, hd⟩

theorem writing_of_close {v x : Device} (h : v.close = x.close) (m : List Host.Cell) (left : Option Nat) :
    v.writing m left = x.writing m left := by
  show v.close.writing m left = x.close.writing m left
  rw [h]

/-- What the frame of a cycle leaves depends on what the device holds before it. -/
theorem Body.of_mem {d : Dev} {s u : State} {body : State → Flow Unit} {mem : List Host.Cell} {es : List Event}
    (h : Body d s body mem es) (hm : (u.device d).mem = (s.device d).mem) : Body d u body mem es :=
  fun t hq hw ht => h t hq hw (ht.trans hm)

theorem atCycle_mem (hv : v.close = (s.device w.dev).close) :
    ((atCycle w r v b s).device w.dev).mem = (s.device w.dev).mem := by
  rw [atCycle_device, ← close_mem v, hv, close_mem]

/-- The first status read busy and the limit not reached: the loop waits (R127). -/
theorem ComesToCycle.waits (h : ComesToCycle w r s) (hu : Unobserved s) (hq : Quiet w.dev s) (hr : ¬ ReadyAtOnce s)
    (hl : limitHit s.params.pollLimit 1 = false) :
    exec w.instr s = .next
      { ((s.skipDraws 2).setDevice w.dev
          ((s.device w.dev).writing w.mem (lessOne (busyOfDraw (s.drawAt 0))))).setCs w.dev false with
        latch := latchOf w.op w.dev r, busy := true, phase := .polling, tmp := w.tmp
        st := statusOfDraw true (s.drawAt 1), pollcnt := 1
        trace := s.trace ++ w.reads ++
          waitingEvents w.dev w.body s.params.dummyOut (statusOfDraw true (s.drawAt 1)) s.params.pollDelayUs
        frame := some (w.dev, rdsrBytes s) } := by
  obtain ⟨v, b, body, hv, hbody, he⟩ := h
  have hr' : ¬ ReadyAtOnce (atCycle w r v b s) := by rwa [ReadyAtOnce, atCycle_drawAt]
  rw [he, writeCycle_waiting w.dev body _ _ _ (atCycle_quiet hq hv) (hu.of (atCycle_inbox ..)) hr' (by simpa using hl)
      (hbody.of_mem (atCycle_mem hv)),
    Flow.finally_halt, atCycle_framed, atCycle_device, writing_of_close hv]
  simp only [atCycle_drawAt, atCycle_params, rdsrBytes]

/-- The first status read busy and the limit reached: the operation ends `DeviceNotReady` (R206). -/
theorem ComesToCycle.gaveUp (h : ComesToCycle w r s) (hu : Unobserved s) (hq : Quiet w.dev s) (hr : ¬ ReadyAtOnce s)
    (hl : limitHit s.params.pollLimit 1 = true) :
    exec w.instr s = .next
      { ((s.skipDraws 2).setDevice w.dev
          ((s.device w.dev).writing w.mem (lessOne (busyOfDraw (s.drawAt 0))))).setCs w.dev false with
        latch := latchOf w.op w.dev r, busy := false, phase := .idle, outcome := .deviceNotReady, tmp := w.tmp
        st := statusOfDraw true (s.drawAt 1), pollcnt := 1
        trace := s.trace ++ w.reads ++ cycleEvents w.dev w.body s.params.dummyOut (statusOfDraw true (s.drawAt 1)) } := by
  obtain ⟨v, b, body, hv, hbody, he⟩ := h
  have hr' : ¬ ReadyAtOnce (atCycle w r v b s) := by rwa [ReadyAtOnce, atCycle_drawAt]
  rw [he, writeCycle_gaveUp w.dev body _ _ _ (atCycle_quiet hq hv) (hu.of (atCycle_inbox ..)) hr' (by simpa using hl)
      (hbody.of_mem (atCycle_mem hv)),
    Flow.finally_go, atCycle_framed, atCycle_device, writing_of_close hv]
  simp only [atCycle_drawAt, atCycle_params]
  rfl

end

/-! ### The read frames before the cycle -/

/-- The bits a `clearBit` asks to clear need no bit to go from 0 to 1 (R182, R185). -/
theorem clearOnly_withoutBit (old n : Byte) : clearOnly old (withoutBit old n) = true := by
  rw [clearOnly, withoutBit, ← BitVec.and_assoc, BitVec.and_self, decide_eq_true rfl]

/-- A read frame of one byte on a device that is ready (R124). -/
theorem frameRead_quiet {d : Dev} {s : State} (a : Word) (hq : Quiet d s) (ha : validAddr d a = true) :
    frameRead d a 1 s = .go [Memory.read (s.device d).mem a.toNat]
      (s.framed d (s.device d).close
        (readEvents d a [s.params.dummyOut] [Memory.read (s.device d).mem a.toNat])) :=
  frameReadOuts_quiet d a [s.params.dummyOut] s hq (of_decide_eq_true ha)

/-- A frame that leaves its device only closed leaves it ready. -/
theorem Quiet.framed_close {d : Dev} {s : State} (hq : Quiet d s) (es : List Event) :
    Quiet d (s.framed d (s.device d).close es) := by
  simpa [Quiet] using hq

/-- `setBit` and `clearBit` of the EEPROM: one read, and the byte that `f` makes of it is programmed (R164, R165). -/
theorem eeModifyBit_writes {s : State} (f : Byte → Byte → Byte) (hq : Quiet .ee s) (ha : validAddr .ee s.latch.addr = true)
    (hn : validBit s.latch.bitn = true) :
    let old := Memory.read s.ee.mem s.latch.addr.toNat
    eeModifyBit f s = (writeChunk .ee s.latch.addr [f old s.latch.bitn]
      { s.framed .ee s.ee.close (readEvents .ee s.latch.addr [s.params.dummyOut] [old]) with
        tmp := f old s.latch.bitn }).finally finishReady := by
  rw [eeModifyBit, if_pos ha, if_pos hn, frameRead_quiet _ hq ha]
  rfl

/-- The write path of a NOR write when no bit needs to go from 0 to 1: one read, and the byte is programmed (R182). -/
theorem clearOnlyWrite_writes {s : State} {v : Byte} (hq : Quiet .nor s) (ha : validAddr .nor s.latch.addr = true)
    (hc : clearOnly (Memory.read s.nor.mem s.latch.addr.toNat) v = true) :
    let old := Memory.read s.nor.mem s.latch.addr.toNat
    clearOnlyWrite v s = (writeChunk .nor s.latch.addr [v]
      { s.framed .nor s.nor.close (readEvents .nor s.latch.addr [s.params.dummyOut] [old]) with
        tmp := old }).finally finishReady := by
  rw [clearOnlyWrite, frameRead_quiet _ hq ha]
  exact if_pos hc

/-- `clearBit` of the NOR flash: its own read, and the write path with a second one (R185). -/
theorem norClearBit_writes {s : State} (hq : Quiet .nor s) (ha : validAddr .nor s.latch.addr = true) :
    let old := Memory.read s.nor.mem s.latch.addr.toNat
    let read := readEvents .nor s.latch.addr [s.params.dummyOut] [old]
    ((frameRead .nor s.latch.addr 1 s).finally fun b t => clearOnlyWrite (withoutBit (b.headD 0) t.latch.bitn) t) =
      (writeChunk .nor s.latch.addr [withoutBit old s.latch.bitn]
        { s.framed .nor s.nor.close (read ++ read) with tmp := old }).finally finishReady := by
  intro old read
  rw [frameRead_quiet _ hq ha, Flow.finally_go, ← framed_framed (v := s.nor.close)]
  exact clearOnlyWrite_writes (s := s.framed .nor s.nor.close read) (hq.framed_close _) ha (clearOnly_withoutBit _ _)

/-! ### The six operations -/

/-- A sector base is its own sector base (R156). -/
theorem sectorBase_sectorBase (n : Nat) : sectorBase (sectorBase n) = sectorBase n := by
  simp only [sectorBase, Config.norSector]
  omega

/-- The frame of an `eraseSector` carries the sector base, and the device erases its sector (R64, R186). -/
theorem body_eraseSector {s : State} {a : Word} (ha : validAddr .nor a = true) :
    Body .nor s (frameErase (BitVec.ofNat 32 (sectorBase a.toNat)))
      (Memory.erase s.nor.mem (sectorBase a.toNat) Config.norSector)
      (eraseEvents (BitVec.ofNat 32 (sectorBase a.toNat))) := by
  have hle : sectorBase a.toNat ≤ a.toNat := Nat.sub_le _ _
  have hn : (BitVec.ofNat 32 (sectorBase a.toNat)).toNat = sectorBase a.toNat := by
    rw [BitVec.toNat_ofNat, Nat.mod_eq_of_lt (by omega)]
  have h := body_erase s (BitVec.ofNat 32 (sectorBase a.toNat)) (by rw [hn]; exact hle.trans_lt (of_decide_eq_true ha))
  rwa [hn, sectorBase_sectorBase] at h

theorem body_programByte {d : Dev} {s : State} {a : Word} (v : Byte) (ha : validAddr d a = true) :
    Body d s (frameProgram d a [v]) (programMem d (s.device d).mem a.toNat [v]) (programEvents d a [v]) :=
  body_program d s a [v] (programFits_byte d (of_decide_eq_true ha) v)

section
variable {r : Req} {s : State} {i : Instr} {op : BitVec 4} {d : Dev} {ok : Bool} {mem : List Host.Cell} {es : List Event}
  {cycle : State → Flow Unit} {body : State → State}

/-- A host operation that finds the block free runs its body from the latched state (R132). -/
theorem exec_accepted (hb : s.busy = false) (hu : Unobserved s) (hi : operationOf i = some ⟨op, d, r, body⟩) :
    exec i s = .next (body (accept op d r s)) := by
  rw [exec_operation hi]
  exact request_accepted hb hu

/-- An operation that reads nothing is at its cycle when it is accepted. -/
theorem ComesToCycle.of_accepted (hb : s.busy = false) (hu : Unobserved s) (hi : operationOf i = some ⟨op, d, r, body⟩)
    (hc : Body d s cycle mem es)
    (he : body (accept op d r s) = (writeCycle d cycle (accept op d r s)).finally finishReady) :
    ComesToCycle ⟨i, op, d, ok, [], s.tmp, es, mem⟩ r s := by
  have h : atCycle ⟨i, op, d, ok, [], s.tmp, es, mem⟩ r (s.device d) (s.cs d) s = accept op d r s := by
    rw [atCycle, List.append_nil]
    cases d <;> rfl
  exact ⟨s.device d, s.cs d, cycle, rfl, hc, by rw [h, exec_accepted hb hu hi, he]⟩

/-- An operation that reads first is at its cycle after its read frames. -/
theorem ComesToCycle.of_read {reads : List Event} {tmp : Byte} (hb : s.busy = false) (hu : Unobserved s)
    (hi : operationOf i = some ⟨op, d, r, body⟩) (hc : Body d s cycle mem es)
    (he : body (accept op d r s) = (writeCycle d cycle
      { (accept op d r s).framed d (s.device d).close reads with tmp := tmp }).finally finishReady) :
    ComesToCycle ⟨i, op, d, ok, reads, tmp, es, mem⟩ r s := by
  have h : atCycle ⟨i, op, d, ok, reads, tmp, es, mem⟩ r (s.device d).close false s =
      { (accept op d r s).framed d (s.device d).close reads with tmp := tmp } := by
    cases d <;> rfl
  exact ⟨(s.device d).close, false, cycle, rfl, hc, by rw [h, exec_accepted hb hu hi, he]⟩

end

/-- Every operation with a write cycle comes to it when its checks pass. -/
theorem writesOf_comesToCycle {r : Req} {s : State} {w : Write} (hw : w ∈ writesOf r s) (hok : w.ok = true)
    (hb : s.busy = false) (hu : Unobserved s) (hq : Quiet w.dev s) : ComesToCycle w r s := by
  simp only [writesOf, List.mem_cons, List.not_mem_nil, or_false] at hw
  rcases hw with rfl | rfl | rfl | rfl | rfl | rfl
  · -- `EEPROM.writeByte`
    exact .of_accepted hb hu rfl (body_programByte r.val hok) (if_pos hok)
  · -- `EEPROM.setBit`
    obtain ⟨ha, hn⟩ := Bool.and_eq_true_iff.1 hok
    exact .of_read hb hu rfl (body_programByte _ ha) (eeModifyBit_writes (s := accept 5 .ee r s) withBit hq ha hn)
  · -- `EEPROM.clearBit`
    obtain ⟨ha, hn⟩ := Bool.and_eq_true_iff.1 hok
    exact .of_read hb hu rfl (body_programByte _ ha) (eeModifyBit_writes (s := accept 6 .ee r s) withoutBit hq ha hn)
  · -- `NOR.writeByte`
    obtain ⟨ha, hc⟩ := Bool.and_eq_true_iff.1 hok
    exact .of_read hb hu rfl (body_programByte r.val ha)
      ((if_pos ha).trans (clearOnlyWrite_writes (s := accept 2 .nor r s) hq ha hc))
  · -- `NOR.clearBit`
    obtain ⟨ha, hn⟩ := Bool.and_eq_true_iff.1 hok
    exact .of_read hb hu rfl (body_programByte _ ha)
      ((if_pos ha).trans ((if_pos hn).trans (norClearBit_writes (s := accept 6 .nor r s) hq ha)))
  · -- `NOR.eraseSector`
    exact .of_accepted hb hu rfl (body_eraseSector hok) (if_pos hok)

/-! ### The chunks of a bulk write (R151) -/

@[simp] theorem bulkDone_drawAt (d : Dev) (u : State) (cs : List (Nat × Nat)) (j : Nat) :
    (bulkDone d u cs).drawAt j = u.drawAt (2 * cs.length + j) := by
  cases h : cs.getLast? with
  | none => simp [bulkDone, List.getLast?_eq_none_iff.1 h]
  | some c => rw [bulkDone, h, ← drawAt_skipDraws]; exact drawAt_congr (by simp) (by simp) j

@[simp] theorem bulkDone_params (d : Dev) (u : State) (cs : List (Nat × Nat)) : (bulkDone d u cs).params = u.params := by
  cases h : cs.getLast? <;> simp [bulkDone, h]

/-- A bulk write whose checks pass is its chunk loop from the first byte on (R163, R183). -/
theorem opWriteArray_valid {d : Dev} {s : State} (hv : validRange d s.latch.addr s.latch.len = true)
    (hb : s.latch.bufv = true) :
    opWriteArray d s =
      (runChunks d { s with cur := s.latch.addr, rem := s.latch.len, idx := 0 }).finally finishReady := by
  rw [opWriteArray, if_pos hv, if_pos hb]
  rfl

/-- A valid range is inside the device (R52). -/
theorem inRange_of_validRange {d : Dev} {s : State} (hv : validRange d s.cur s.rem = true) (hi : s.idx = 0) : InRange d s := by
  obtain ⟨-, hend⟩ := Bool.and_eq_true_iff.1 hv
  have hend := of_decide_eq_true hend
  exact ⟨hend, by simpa [hi] using (Nat.le_add_left _ _).trans hend⟩

/-- A bulk write on the operands `r` where it comes to its chunk loop (R151). -/
def bulkStart (d : Dev) (r : Req) (s : State) : State :=
  { s with latch := latchOf 4 d r, busy := true, cur := r.addr, rem := r.len, idx := 0 }

/-- A `writeArray` whose checks pass runs the chunks of its range, and ends by what they answer (R163, R183). -/
theorem exec_writeArray {d : Dev} {i : Instr} {r : Req} {s : State} (hi : operationOf i = some ⟨4, d, r, opWriteArray d⟩)
    (hb : s.busy = false) (hu : Unobserved s) (hv : validRange d r.addr r.len = true) (hbuf : r.bufv = true) :
    exec i s = .next ((chunkLoop d r.len.toNat (bulkStart d r s)).finally finishReady) := by
  rw [exec_accepted hb hu hi, opWriteArray_valid (s := accept 4 d r s) hv hbuf]
  rfl

/-- A `writeArray` whose chunks before `c` are ready at once comes to `c` with the block ready for it, and there, when the draw
says so, the device is busy (R151). -/
theorem exec_writeArray_run {d : Dev} {i : Instr} {r : Req} {s : State} {done rest : List (Nat × Nat)} {c : Nat × Nat}
    (hi : operationOf i = some ⟨4, d, r, opWriteArray d⟩) (hb : s.busy = false) (hu : Unobserved s) (hq : Quiet d s)
    (hv : validRange d r.addr r.len = true) (hbuf : r.bufv = true)
    (hc : chunks d r.addr.toNat r.len.toNat = done ++ c :: rest) (hr : ReadyEachTime done.length s)
    (hn : busyOfDraw (s.drawAt (2 * done.length)) ≠ some 0) :
    let w := bulkDone d (bulkStart d r s) done
    ∃ fuel, exec i s = .next ((chunkLoop d fuel w).finally finishReady) ∧ Quiet d w ∧ Unobserved w ∧ InRange d w ∧
      chunksFuel d fuel w.cur.toNat w.rem.toNat = c :: rest ∧ ¬ ReadyAtOnce w := by
  intro w
  obtain ⟨hrun, -, hqw, huw, hin, hcw, -, -⟩ :=
    chunkLoop_run d done r.len.toNat (bulkStart d r s) (c :: rest) hq hu (inRange_of_validRange hv rfl) hc hr
  refine ⟨_, by rw [exec_writeArray hi hb hu hv hbuf, hrun], hqw, huw, hin, hcw, ?_⟩
  rw [ReadyAtOnce, bulkDone_drawAt]
  exact hn

/-- Settles O35: the operations with one write cycle come to it, a bulk write comes to its chunk `c`, and the first status byte
is judged there. -/
theorem writesThatFindTheDeviceBusy : Obligations.WritesThatFindTheDeviceBusy := by
  refine ⟨fun r s w hw hok hb hu hq hr => ⟨fun hl => ?_, fun hl => ?_⟩, ?_⟩
  · exact (writesOf_comesToCycle hw hok hb hu hq).waits hu hq hr ((limitHit_eq_false_iff _ _).2 hl)
  · exact (writesOf_comesToCycle hw hok hb hu hq).gaveUp hu hq hr ((limitHit_iff _ _).2 hl)
  · intro r s d i done rest c hi hb hu hq hv hbuf hc hr hn
    have hi : operationOf i = some ⟨4, d, r, opWriteArray d⟩ := by
      rcases hi with ⟨rfl, rfl⟩ | ⟨rfl, rfl⟩ <;> rfl
    obtain ⟨fuel, he, hqw, huw, hin, hcw, hnr⟩ := exec_writeArray_run hi hb hu hq hv hbuf hc hr hn
    have hp : (bulkDone d (bulkStart d r s) done).params.pollLimit = s.params.pollLimit := by rw [bulkDone_params]; rfl
    refine ⟨fun hl => ?_, fun hl => ?_⟩
    · have hl : limitHit s.params.pollLimit 1 = false := (limitHit_eq_false_iff _ _).2 hl
      rw [he, chunkLoop_waiting d fuel _ hqw huw hin c rest hcw hnr (by rw [hp, hl]), Flow.finally_halt]
      rfl
    · have hl : limitHit s.params.pollLimit 1 = true := (limitHit_iff _ _).2 hl
      rw [he, chunkLoop_gaveUp d fuel _ hqw huw hin c rest hcw hnr (by rw [hp, hl])]
      rfl

end Sys2Proof.Machine
end

section
/-! Every step keeps the registers of a bulk write that waits (R23, R151, R153). A procedure with no chunk loop in it leaves them,
or the operation is over; the chunk loop puts them where the next chunk has them. -/

namespace Sys2Proof.Machine

/-! ### Procedures with no chunk loop -/

/-- No operation is in progress any more, or the registers of a bulk write are as they were. -/
def BulkKept (s t : State) : Prop := SameBulk s t ∨ t.busy = false

theorem bulkWf_kept {s t : State} (h : BulkKept s t) (hs : bulkWf s = true) : bulkWf t = true := by
  rcases h with hsame | hidle
  · rw [bulkWf_same hsame]; exact hs
  · exact bulkWf_idle hidle

theorem BulkKept.trans {s t u : State} (h : BulkKept s t) (k : BulkKept t u) : BulkKept s u := by
  rcases k with k | hidle
  · exact h.imp (fun hsame => hsame.trans k) (fun hidle => k.busy.trans hidle)
  · exact .inr hidle

theorem BulkKept.finish (c : OpOutcome) (s : State) : BulkKept s (finish c s) := .inr rfl

section
variable {s : State} {α : Type} {m : Flow α}

theorem KeepsBulk.state (h : KeepsBulk s m) : BulkKept s m.state := by
  cases m with
  | go a t => exact .inl h
  | halt t => exact h

theorem KeepsBulk.finally {f : α → State → State} (h : KeepsBulk s m) (hf : ∀ a t, BulkKept t (f a t)) :
    BulkKept s (m.finally f) := by
  cases m with
  | go a t => exact BulkKept.trans (.inl h) (hf a t)
  | halt t => exact h

/-- The end of an operation by its `ready` (R161, R206). -/
theorem KeepsBulk.ends {m : Flow Bool} (h : KeepsBulk s m) : BulkKept s (m.finally finishReady) :=
  h.finally fun _ _ => .finish _ _

end

theorem writeCycle_bulk (d : Dev) {body : State → Flow Unit} (hb : ∀ s, KeepsBulk s (body s)) (s : State) :
    KeepsBulk s (writeCycle d body s) :=
  (frameWren_bulk d s).bind fun _ t => (KeepsBulk.bind (hb _) fun _ u =>
    (waitReady_bulk d _).of (enterPhase_bulk _ u)).of (enterPhase_bulk _ t)

theorem frameRead_bulk (d : Dev) (a : Word) (n : Nat) (s : State) : KeepsBulk s (frameRead d a n s) :=
  performFrame_bulk ..

theorem frameReadInto_bulk (d : Dev) (a : Word) (n : Nat) (s : State) : KeepsBulk s (frameReadInto d a n s) := by
  have h := frameRead_bulk d a n s
  unfold frameReadInto
  cases hx : frameRead d a n s with
  | go b t => rw [hx] at h; exact { h with }
  | halt t => rw [hx] at h; exact h.imp (fun k => { k with }) id

/-! ### The operations -/

theorem opReadByte_bulk (d : Dev) (s : State) : BulkKept s (opReadByte d s) := by
  unfold opReadByte
  split
  · exact (frameRead_bulk ..).finally fun _ _ => .inr rfl
  · exact .inr rfl

theorem opReadArray_bulk (d : Dev) (s : State) : BulkKept s (opReadArray d s) := by
  unfold opReadArray
  split
  · split
    · exact (frameReadInto_bulk ..).finally fun _ _ => .finish _ _
    · exact .finish _ _
  · exact .finish _ _

theorem setTmp_bulk (v : Byte) (s : State) : SameBulk s { s with tmp := v } := ⟨rfl, rfl, rfl, rfl, rfl, rfl⟩

theorem eeModifyBit_bulk (f : Byte → Byte → Byte) (s : State) : BulkKept s (eeModifyBit f s) := by
  unfold eeModifyBit
  split
  · split
    · exact (KeepsBulk.bind (frameRead_bulk ..) fun b t => (writeChunk_bulk ..).of (setTmp_bulk _ t)).ends
    · exact .finish _ _
  · exact .finish _ _

theorem clearOnlyWrite_bulk (v : Byte) (s : State) : BulkKept s (clearOnlyWrite v s) := by
  refine (frameRead_bulk ..).finally fun b t => ?_
  dsimp only
  split
  · exact ((writeChunk_bulk ..).of (setTmp_bulk (b.headD 0) t)).ends
  · exact .inr rfl

/-- A bulk write starts with its cursor at the request's address and all of its length left (R151, R163, R183). -/
theorem bulkAt_start {d : Dev} {s : State} (hd : s.latch.dev = d) (hr : validRange d s.latch.addr s.latch.len = true)
    (hb : s.latch.bufv = true) : BulkAt d { s with cur := s.latch.addr, rem := s.latch.len, idx := 0 } :=
  ⟨hd, hr, hb, by simp, by simp⟩

theorem opWriteArray_bulkWf {d : Dev} {s : State} (hd : s.latch.dev = d) : bulkWf (opWriteArray d s) = true := by
  by_cases hr : validRange d s.latch.addr s.latch.len = true
  · by_cases hb : s.latch.bufv = true
    · rw [opWriteArray_valid hr hb]
      exact chunkLoop_bulk d _ _ (bulkAt_start hd hr hb)
    · rw [opWriteArray, if_pos hr, if_neg hb]
      exact bulkWf_idle rfl
  · rw [opWriteArray, if_neg hr]
    exact bulkWf_idle rfl

/-- Every host operation, from the state that has latched it: only a bulk write has operation code 4 (R103). -/
theorem operation_bulkWf {i : Instr} {o : Operation} (hi : operationOf i = some o) {s : State} (hop : s.latch.op = o.op)
    (hdev : s.latch.dev = o.dev) : bulkWf (o.body s) = true := by
  cases i <;> cases hi <;> dsimp only at hop hdev ⊢
  case eeWriteArray | norWriteArray => exact opWriteArray_bulkWf hdev
  all_goals refine bulkWf_kept ?_ (bulkWf_op (by rw [hop]; decide))
  case eeReadByte | norReadByte => exact opReadByte_bulk _ s
  case eeReadArray | norReadArray => exact opReadArray_bulk _ s
  case eeSetBit | eeClearBit => exact eeModifyBit_bulk _ s
  case norSetBit => exact .finish _ _
  case eeWriteByte =>
    split
    · exact (writeChunk_bulk ..).ends
    · exact .finish _ _
  case norWriteByte =>
    split
    · exact clearOnlyWrite_bulk _ s
    · exact .finish _ _
  case norClearBit =>
    split
    · split
      · exact (frameRead_bulk ..).finally fun _ t => clearOnlyWrite_bulk _ t
      · exact .finish _ _
    · exact .finish _ _
  case norEraseSector =>
    split
    · exact (writeCycle_bulk _ (frameErase_bulk _) s).ends
    · exact .finish _ _

theorem runRead_bulk {d : Dev} {a : Word} {outs : List Byte} {s t : State} (ht : runRead d a outs s = .next t) :
    BulkKept s t := by
  unfold runRead at ht
  split at ht <;> cases ht
  exact (performFrame_bulk d _ outs s).state

theorem runProgram_bulk {d : Dev} {a : Word} {data : List Byte} {s t : State} (ht : runProgram d a data s = .next t) :
    BulkKept s t := by
  unfold runProgram at ht
  split at ht <;> cases ht
  exact (frameProgram_bulk d a data s).state

/-- A wire frame run by itself. -/
theorem exec_frame_bulk {i : Instr} (hi : operationOf i = none) {s t : State} (ht : exec i s = .next t) : BulkKept s t := by
  cases i <;> simp only [operationOf, reduceCtorEq] at hi
  case eeWren | norWren => cases ht; exact (frameWren_bulk _ s).state
  case eeRdsr | norRdsr => cases ht; exact (frameRdsr_bulk _ _ s).state
  case eeRead | norRead => exact runRead_bulk ht
  case eeProgram | norProgram => exact runProgram_bulk ht
  case norSe => cases ht; exact (frameErase_bulk _ s).state

/-- Every instruction: a request is ignored, or latched and run (R29, R132). -/
theorem exec_bulkWf {i : Instr} {s t : State} (hs : bulkWf s = true) (ht : exec i s = .next t) : bulkWf t = true := by
  cases ho : operationOf i with
  | none => exact bulkWf_kept (exec_frame_bulk ho ht) hs
  | some o =>
    rw [exec_operation ho] at ht
    cases hb : s.busy with
    | true =>
      rw [request_busy hb] at ht
      cases ht
      exact hs
    | false =>
      rw [request_free hb] at ht
      cases ht
      exact operation_bulkWf ho (by simp) (by simp)

/-! ### The four kinds of step -/

theorem acceptIllegal_bulk (s : State) : BulkKept s (acceptIllegal s) := by
  unfold acceptIllegal
  split
  · exact .inl (.refl s)
  · exact .inr rfl

theorem stepRequest_bulkWf {s t : State} (hs : bulkWf s = true) (ht : stepRequest s = .next t) : bulkWf t = true := by
  have hs0 : bulkWf { s with go := false } = true := hs
  unfold stepRequest at ht
  split at ht
  · exact exec_bulkWf hs0 ht
  · cases ht
    exact bulkWf_kept (acceptIllegal_bulk _) hs0

theorem writeReg_bulk (r : HostReg) (v : Word) (s : State) : SameBulk s (writeReg r v s) := by
  obtain ⟨c, a, l, g, he, -⟩ := writeReg_eq r v s
  rw [he]
  exact { SameBulk.refl s with }

/-- A move of the host, the platform or a device (R247) reaches none of these registers, but for a reset. -/
theorem hostMove_bulk {m : HostMove} {s t : State} (ht : hostMove m s = .next t) : BulkKept s t := by
  have hsame := SameBulk.refl s
  cases m with
  | writeReg r v => cases ht; exact .inl (writeReg_bulk r v s)
  | readReg r => cases ht; exact .inl { hsame with }
  | during k m =>
    cases ht
    cases m with
    | write r v => exact .inl (writeReg_bulk r v s)
    | read r => exact .inl { hsame with }
  | writeBuf i v =>
    simp only [hostMove] at ht
    split at ht <;> cases ht
    exact .inl { hsame with }
  | readBuf i =>
    simp only [hostMove] at ht
    split at ht <;> cases ht
    exact .inl { hsame with }
  | awaitIdle => cases ht; exact .inl hsame
  | reset n =>
    cases ht
    cases n with
    | zero => exact .inr rfl
    | succ n => exact .inl { hsame with }
  | deviceReady d => cases ht; cases d <;> exact .inl { hsame with }

/-- A wait that has ended: a bulk write counts its chunk off and goes on from there (R151). -/
theorem afterWait_bulkWf {s : State} (hb : s.busy = true) (hs : bulkWf s = true) (ready : Bool) :
    bulkWf (afterWait s.latch.dev ready s) = true := by
  unfold afterWait
  split
  · rename_i h
    obtain ⟨hat, -, hle, -⟩ := (bulkWf_iff s hb h.1).1 hs
    exact chunkLoop_bulk _ _ _ (hat.advance hle)
  · exact bulkWf_idle rfl

/-- What the sequencer goes on with after a frame (R127). -/
theorem afterFrame_bulkWf (d : Dev) (bytes : List Byte) {s : State} (hs : bulkWf s = true) :
    bulkWf (afterFrame d bytes s) = true := by
  unfold afterFrame
  split
  · rename_i h
    obtain ⟨hb, -, rfl, -⟩ := h
    have hj := judgeStatus_bulk s.latch.dev s
    cases hx : judgeStatus s.latch.dev s with
    | go ready t =>
      rw [hx] at hj
      rw [Flow.finally_go, ← hj.latch]
      exact afterWait_bulkWf (hj.busy.trans hb) (bulkWf_kept (.inl hj) hs) ready
    | halt t =>
      rw [hx] at hj
      exact bulkWf_kept hj hs
  · exact hs

theorem stepFrame_bulkWf {s t : State} (hs : bulkWf s = true) (ht : stepFrame s = .next t) : bulkWf t = true := by
  unfold stepFrame at ht
  split at ht
  · cases ht
    exact hs
  rename_i d bytes _
  split at ht
  · cases ht
  rename_i i _
  split at ht
  · rename_i u hu
    cases ht
    have hs0 : bulkWf { s with frame := none } = true := hs
    exact afterFrame_bulkWf d bytes (exec_bulkWf hs0 hu)
  · cases ht
  · cases ht

/-- Settles O59: a reset leaves the block idle, and each of the other three kinds of step keeps the registers in agreement. -/
theorem stepKeepsTheBulkRegisters : Obligations.StepKeepsTheBulkRegisters := by
  intro s t hs ht
  by_cases hf : s.fuse = some 0
  · rw [step_reset hf] at ht
    cases ht
    exact bulkWf_idle rfl
  cases hg : s.go with
  | true => exact stepRequest_bulkWf hs (step_go hf hg ▸ ht)
  | false =>
    cases hm : nextMove s with
    | some m =>
      have hs0 : bulkWf { s with inbox := s.inbox.drop 1 } = true := hs
      exact bulkWf_kept (hostMove_bulk (step_next hf hg hm ▸ ht)) hs0
    | none => exact stepFrame_bulkWf hs (step_frame hf hg hm ▸ ht)

end Sys2Proof.Machine
end

section
/-! The chunks of a bulk write (R150, R153) and the sector base (R156). -/

namespace Sys2Proof.Machine

/-! ### The sector base (R156) -/

/-- The sector base is the address with its low 12 bits cleared. -/
theorem sectorBase_toNat (w : Word) : sectorBase w.toNat = (w &&& 0xFFFFF000).toNat := by
  have hmask : (0xFFFFF000 : Word) = BitVec.allOnes 32 <<< 12 := by decide
  have hw := w.isLt
  rw [hmask, ← BitVec.shiftLeft_ushiftRight, BitVec.toNat_shiftLeft, BitVec.toNat_ushiftRight, Nat.shiftLeft_eq,
    Nat.shiftRight_eq_div_pow, sectorBase, Config.norSector]
  omega

theorem sectorBase_bounds (a : Nat) : sectorBase a ≤ a ∧ sectorBase a % 4096 = 0 ∧ a - sectorBase a ≤ 4095 := by
  simp only [sectorBase, Config.norSector]
  omega

/-- The sector-erase opcode is no opcode of the EEPROM (R100, R101). -/
theorem head_ne_opcSe {bytes : List Byte} {i : Instr} (h : decode (.frame .ee bytes) = .ok i) :
    bytes.head? ≠ some Config.opcSe := by
  intro hc
  cases hf : parseFrame .ee bytes with
  | error e => simp [decode, hf] at h
  | ok f =>
    rw [head_of_parseFrame hf, Option.some.injEq] at hc
    cases f with
    | erase a => simp [decode, hf, Frame.toInstr] at h
    | wren | rdsr _ | read _ _ | program _ _ =>
      simp only [opcodeOf] at hc
      exact absurd hc (by decide)

/-- Settles O48: arithmetic of the low 12 bits, and the opcode that a decoded frame begins with. -/
theorem sectorBaseOfAnAddress : Obligations.SectorBaseOfAnAddress :=
  ⟨fun a => ⟨rfl, sectorBase_bounds a⟩, sectorBase_toNat, rfl, rfl, rfl, rfl, rfl, fun _ _ => head_ne_opcSe⟩

/-! ### The chunks of a range (R150, R153) -/

theorem page_pos (d : Dev) : 0 < d.page := by cases d <;> decide

/-- Fuel past the length of the range changes nothing: every chunk has a byte. -/
theorem chunksFuel_eq_chunks (d : Dev) {f a n : Nat} (h : n ≤ f) : chunksFuel d f a n = chunks d a n := by
  suffices ∀ g, n ≤ g → chunksFuel d f a n = chunksFuel d g a n from this n le_rfl
  induction f generalizing a n with
  | zero =>
    obtain rfl : n = 0 := by omega
    intro g _
    cases g <;> rfl
  | succ f ih =>
    intro g hg
    by_cases hn : n = 0
    · subst hn
      cases g <;> rfl
    · obtain ⟨g, rfl⟩ : ∃ k, g = k + 1 := ⟨g - 1, by omega⟩
      obtain ⟨hpos, -⟩ := chunkLen_pos d a n (by omega)
      rw [chunksFuel, chunksFuel, if_neg hn, if_neg hn, ih (by omega) g (by omega)]

@[simp] theorem chunks_zero (d : Dev) (a : Nat) : chunks d a 0 = [] := rfl

/-- The first chunk of a range, and the chunks of what is left of it (R151). -/
theorem chunks_of_pos (d : Dev) {a n : Nat} (hn : 0 < n) :
    chunks d a n = (a, chunkLen d a n) :: chunks d (a + chunkLen d a n) (n - chunkLen d a n) := by
  obtain ⟨k, rfl⟩ : ∃ k, n = k + 1 := ⟨n - 1, by omega⟩
  obtain ⟨hpos, -⟩ := chunkLen_pos d a (k + 1) hn
  rw [chunks, chunksFuel, if_neg (by omega), chunksFuel_eq_chunks d (by omega)]

/-- What holds of the empty range, and of a range if it holds of what its first chunk leaves, holds of every range. -/
theorem chunks_induction (d : Dev) {P : Nat → Nat → Prop} (zero : ∀ a, P a 0)
    (chunk : ∀ a n, 0 < n → P (a + chunkLen d a n) (n - chunkLen d a n) → P a n) (a n : Nat) : P a n := by
  induction n using Nat.strong_induction_on generalizing a with
  | _ n ih =>
    rcases Nat.eq_zero_or_pos n with rfl | hn
    · exact zero a
    · obtain ⟨hpos, -⟩ := chunkLen_pos d a n hn
      exact chunk a n hn (ih _ (by omega) _)

/-- A chunk that is not the last ends its page, and what is left starts on a page boundary (R150). -/
theorem chunkLen_of_lt {d : Dev} {a n : Nat} (h : chunkLen d a n < n) :
    chunkLen d a n = d.page - a % d.page ∧ (a + chunkLen d a n) % d.page = 0 := by
  have hmod : a % d.page < d.page := Nat.mod_lt _ (page_pos d)
  have hlen : chunkLen d a n = d.page - a % d.page := by simp only [chunkLen] at h ⊢; omega
  refine ⟨hlen, ?_⟩
  have hsum : a + (d.page - a % d.page) = d.page * (a / d.page + 1) := by
    have := Nat.div_add_mod a d.page
    rw [Nat.mul_add]
    omega
  rw [hlen, hsum, Nat.mul_mod_right]

/-- R153 (a): each chunk starts where the ones before it end. -/
theorem chunks_contiguous (d : Dev) (a n : Nat) :
    ∀ j (h : j < (chunks d a n).length), ((chunks d a n)[j]).1 = a + (((chunks d a n).take j).map (·.2)).sum := by
  induction a, n using chunks_induction d with
  | zero a => simp
  | chunk a n hn ih =>
    simp only [chunks_of_pos d hn]
    rintro (_ | j) h
    · simp
    · simp only [List.getElem_cons_succ, List.take_succ_cons, List.map_cons, List.sum_cons]
      rw [ih j (by simpa using h), Nat.add_assoc]

/-- R153 (b), (e), (f): no chunk is empty, leaves its page or passes the end of the range. -/
theorem chunks_inside (d : Dev) (a n : Nat) :
    ∀ c ∈ chunks d a n, c.1 % d.page + c.2 ≤ d.page ∧ 1 ≤ c.2 ∧ c.2 ≤ d.page ∧ c.1 + c.2 ≤ a + n := by
  induction a, n using chunks_induction d with
  | zero a => simp
  | chunk a n hn ih =>
    obtain ⟨hpos, hle, hpage, hmax⟩ := chunkLen_pos d a n hn
    rw [chunks_of_pos d hn]
    intro c hc
    rcases List.mem_cons.1 hc with rfl | hc
    · exact ⟨hpage, hpos, hmax, by omega⟩
    · obtain ⟨h1, h2, h3, h4⟩ := ih c hc
      exact ⟨h1, h2, h3, by omega⟩

/-- R153 (c): every chunk but the first starts on a page boundary. -/
theorem chunks_tail_aligned (d : Dev) (a n : Nat) : ∀ c ∈ (chunks d a n).tail, c.1 % d.page = 0 := by
  induction a, n using chunks_induction d with
  | zero a => simp
  | chunk a n hn ih =>
    rw [chunks_of_pos d hn, List.tail_cons]
    rcases Nat.lt_or_ge (chunkLen d a n) n with hlt | hge
    · rw [chunks_of_pos d (Nat.sub_pos_of_lt hlt)] at ih ⊢
      intro c hc
      rcases List.mem_cons.1 hc with rfl | hc
      · exact (chunkLen_of_lt hlt).2
      · exact ih c hc
    · simp [Nat.sub_eq_zero_of_le hge]

theorem chunks_aligned (d : Dev) (a n j : Nat) (h : j < (chunks d a n).length) (hj : 0 < j) :
    ((chunks d a n)[j]).1 % d.page = 0 := by
  obtain ⟨j, rfl⟩ : ∃ k, j = k + 1 := ⟨j - 1, by omega⟩
  refine chunks_tail_aligned d a n _ ?_
  rw [← List.getElem_tail (h := by rw [List.length_tail]; omega)]
  exact List.getElem_mem _

/-- Every chunk but the last ends its page. -/
theorem chunks_end_page (d : Dev) (a n : Nat) :
    ∀ j (h : j < (chunks d a n).length), j + 1 < (chunks d a n).length →
      ((chunks d a n)[j]).2 = d.page - ((chunks d a n)[j]).1 % d.page := by
  induction a, n using chunks_induction d with
  | zero a => simp
  | chunk a n hn ih =>
    simp only [chunks_of_pos d hn]
    rintro (_ | j) h hlast
    · have hlt : chunkLen d a n < n := by
        by_contra hge
        simp [Nat.sub_eq_zero_of_le (Nat.le_of_not_lt hge)] at hlast
      exact (chunkLen_of_lt hlt).1
    · exact ih j (by simpa using h) (by simpa using hlast)

/-- R153 (d): as many chunks as pages touched. -/
theorem length_chunks (d : Dev) (a n : Nat) :
    (chunks d a n).length = if n = 0 then 0 else (a % d.page + n + (d.page - 1)) / d.page := by
  induction a, n using chunks_induction d with
  | zero a => simp
  | chunk a n hn ih =>
    obtain ⟨-, hle, hpage, -⟩ := chunkLen_pos d a n hn
    have hp := page_pos d
    rw [chunks_of_pos d hn, List.length_cons, ih, if_neg hn.ne']
    rcases Nat.lt_or_ge (chunkLen d a n) n with hlt | hge
    · obtain ⟨hlen, hmod⟩ := chunkLen_of_lt hlt
      have hpages : a % d.page + n + (d.page - 1) = n - chunkLen d a n + (d.page - 1) + d.page := by omega
      rw [if_neg (Nat.sub_ne_zero_of_lt hlt), hmod, Nat.zero_add, hpages, Nat.add_div_right _ hp]
    · rw [if_pos (Nat.sub_eq_zero_of_le hge)]
      exact (Nat.div_eq_of_lt_le (by omega) (by omega)).symm

/-- Settles O47: for each clause, one induction along the chunks of the range. -/
theorem chunksCutAtPageBoundaries : Obligations.ChunksCutAtPageBoundaries := by
  intro d a n _ _ cs
  refine ⟨chunksFuel_sum d n a n le_rfl, chunks_contiguous d a n, chunks_inside d a n, chunks_aligned d a n, ?_,
    length_chunks d a n⟩
  intro j h hj hlast
  have hend := chunks_end_page d a n j h hlast
  rwa [chunks_aligned d a n j h hj, Nat.sub_zero] at hend

end Sys2Proof.Machine
end

section
/-! A bulk write whose wait is over goes on with the chunks that are left (R127, R151, R206). -/

namespace Sys2Proof.Machine

/-- A device that a status read finds ready is not busy after it (R65, R66). -/
theorem sample_ready_dbusy {v : Device} (h : v.sample.1 = false) : v.sample.2.dbusy = false := by
  unfold Device.sample at h ⊢
  cases hb : v.dbusy with
  | false => simp [hb]
  | true =>
    cases hr : v.busyReads with
    | none => simp [hb, hr] at h
    | some n =>
      cases n with
      | zero => simp
      | succ n => simp [hb, hr] at h

/-- A bulk write on device `d` whose wait is over: its chunk is counted off and `phase` is `Idle` (R127, R151). -/
def bulkResumed (d : Dev) (s : State) : State := advanceChunk ((sampledState d s).toPhase .idle)

section
variable {d : Dev} {s : State}

/-- The status read finds the device ready, and the chunk loop goes on (R127, R151). -/
theorem step_turn_bulk (hw : Waiting d s) (hl : (s.device d).lost = none) (hv : (s.device d).sample.1 = false)
    (hop : s.latch.op = 4) :
    step s = .next ((runChunks d (bulkResumed d s)).finally finishReady) := by
  have hop' : ((sampledState d s).toPhase .idle).latch.op = 4 := by simpa using hop
  rw [step_turn hw hl, judgeStatus_ready d (by simp [hv]), enterPhase_self _ (hw.unobserved (by simp)), Flow.finally_go,
    afterWait, if_pos ⟨hop', rfl⟩, bulkResumed]

/-- The block is ready for the next chunk. -/
theorem bulkResumed_quiet (hw : Waiting d s) (hl : (s.device d).lost = none) (hv : (s.device d).sample.1 = false) :
    Quiet d (bulkResumed d s) := by
  obtain ⟨-, -, -, -, -, -, hf⟩ := hw
  have hdev : (bulkResumed d s).device d = (s.device d).sample.2.close := by simp [bulkResumed]
  refine ⟨by simp [bulkResumed, hf], ?_, ?_⟩
  · rw [hdev]; exact (sample_lost _).trans hl
  · rw [hdev]; exact sample_ready_dbusy hv

theorem sampledState_bulk (d : Dev) (s : State) (p : Phase) : SameBulk s ((sampledState d s).toPhase p) := by
  constructor <;> simp [sampledState]

/-- The chunks that are left lie in the device and in the buffer (R153 (e)). -/
theorem bulkResumed_inRange (hw : Waiting d s) (hwf : bulkWf s = true) (hop : s.latch.op = 4) :
    InRange d (bulkResumed d s) := by
  obtain ⟨hb, -, hd, -⟩ := hw
  have hsame := sampledState_bulk d s .idle
  rw [← bulkWf_same hsame, bulkWf_iff _ (hsame.busy.trans hb) (by rw [hsame.latch, hop]), hsame.latch, hd] at hwf
  obtain ⟨hat, -, hle, -⟩ := hwf
  obtain ⟨hcur, hidx⟩ := (hat.advance hle).inRange
  exact ⟨hcur, hidx⟩

/-- The chunks before `c` are ready at once and `c` is not: the loop comes to `c` with the block ready for it (R151). -/
theorem runChunks_to_busy {u : State} {done rest : List (Nat × Nat)} {c : Nat × Nat} (hq : Quiet d u) (hu : Unobserved u)
    (hin : InRange d u) (hc : chunks d u.cur.toNat u.rem.toNat = done ++ c :: rest) (hr : ReadyEachTime done.length u)
    (hn : busyOfDraw (u.drawAt (2 * done.length)) ≠ some 0) :
    let w := bulkDone d u done
    ∃ fuel, runChunks d u = chunkLoop d fuel w ∧ Quiet d w ∧ Unobserved w ∧ InRange d w ∧
      chunksFuel d fuel w.cur.toNat w.rem.toNat = c :: rest ∧ ¬ ReadyAtOnce w := by
  intro w
  obtain ⟨hrun, -, hqw, huw, hinw, hcw, -, -⟩ := chunkLoop_run d done u.rem.toNat u (c :: rest) hq hu hin hc hr
  refine ⟨_, hrun, hqw, huw, hinw, hcw, ?_⟩
  rw [ReadyAtOnce, bulkDone_drawAt]
  exact hn

end

/-- Settles O37: the step is the chunk loop from where the chunk that waited is counted off. -/
theorem bulkWriteGoesOnAfterAWait : Obligations.BulkWriteGoesOnAfterAWait := by
  intro d s hw hwf hop hl hv st u cs
  have hu : bulkResumed d s = u := by
    rw [bulkResumed, sampledState_eq, hv]
    simp [u, st, advanceChunk, State.toPhase]
  have hstep : step s = .next ((runChunks d u).finally finishReady) := hu ▸ step_turn_bulk hw hl hv hop
  have hq : Quiet d u := hu ▸ bulkResumed_quiet hw hl hv
  have hin : InRange d u := hu ▸ bulkResumed_inRange hw hwf hop
  have hun : Unobserved u := hw.unobserved (by simp [u])
  have hparams : u.params = s.params := by simp [u]
  refine ⟨fun hr => ?_, fun done c rest hc hr hn => ?_⟩
  · rw [hstep, runChunks, chunkLoop_ready d _ u hq hun hin le_rfl hr]
    rfl
  · obtain ⟨fuel, hrun, hqw, huw, hinw, hcw, hnr⟩ := runChunks_to_busy hq hun hin hc hr hn
    refine ⟨fun hlim => ?_, fun hlim => ?_⟩
    · have hlim := (limitHit_eq_false_iff s.params.pollLimit 1).2 hlim
      rw [hstep, hrun, chunkLoop_waiting d fuel _ hqw huw hinw c rest hcw hnr (by rw [bulkDone_params, hparams, hlim])]
      rfl
    · have hlim := (limitHit_iff s.params.pollLimit 1).2 hlim
      rw [hstep, hrun, chunkLoop_gaveUp d fuel _ hqw huw hinw c rest hcw hnr (by rw [bulkDone_params, hparams, hlim])]

end Sys2Proof.Machine
end

section
/-! What the shared operations of the two devices end with, as whole next states: a request that is skipped, a read, an operation
with one write cycle whose wait is over at once, and a bulk write that is ready at every first status read (R132, R151, R160 to
R165, R200 to R210). -/

namespace Sys2Proof.Machine

/-! ### The checks (R51, R52, R204) -/

theorem validAddr_iff {d : Dev} {a : Word} : validAddr d a = true ↔ a.toNat < d.size := decide_eq_true_iff

theorem not_validAddr {d : Dev} {a : Word} (h : d.size ≤ a.toNat) : ¬ validAddr d a = true :=
  fun hv => Nat.not_lt.2 h (validAddr_iff.1 hv)

theorem validRange_iff {d : Dev} {a n : Word} :
    validRange d a n = true ↔ a.toNat < d.size ∧ a.toNat + n.toNat ≤ d.size := by
  rw [validRange, Bool.and_eq_true, validAddr_iff, decide_eq_true_iff]

theorem not_validRange {d : Dev} {a n : Word} (h : d.size ≤ a.toNat ∨ d.size < a.toNat + n.toNat) :
    ¬ validRange d a n = true := by
  rw [validRange_iff]
  omega

theorem validBit_iff {n : Byte} : validBit n = true ↔ n.toNat ≤ 7 := decide_eq_true_iff

/-! ### Storage after a program (R62, R63) -/

/-- One byte programmed. -/
theorem read_programMem_byte (d : Dev) (m : List Host.Cell) (a x : Nat) (v : Byte) :
    Memory.read (programMem d m a [v]) x = if x = a then mixed d (Memory.read m a) v else Memory.read m x := by
  rw [read_programMem, List.length_singleton]
  by_cases hx : x = a
  · subst hx
    simp
  · rw [if_neg (by omega), if_neg hx]

/-- The bytes of one memory programmed into another. -/
theorem read_programMem_readMany (d : Dev) (m b : List Host.Cell) (a i n x : Nat) :
    Memory.read (programMem d m a (Memory.readMany b i n)) x =
      if a ≤ x ∧ x < a + n then mixed d (Memory.read m x) (Memory.read b (i + (x - a))) else Memory.read m x := by
  rw [read_programMem, Memory.length_readMany]
  by_cases hx : a ≤ x ∧ x < a + n
  · rw [if_pos hx, if_pos hx, Memory.getD_readMany b i n (x - a) 0 (by omega)]
  · rw [if_neg hx, if_neg hx]

/-- The bytes of one memory copied to the start of another. -/
theorem read_writeMany_readMany (b m : List Host.Cell) (a n x : Nat) :
    Memory.read (Memory.writeMany b 0 (Memory.readMany m a n)) x =
      if x < n then Memory.read m (a + x) else Memory.read b x := by
  have h := read_programMem_readMany .ee b m 0 a n x
  simp only [Nat.zero_le, true_and, Nat.zero_add, Nat.sub_zero] at h
  exact h

section
variable {i : Instr} {op : BitVec 4} {d : Dev} {r : Req} {s : State} {body : State → State}

/-! ### A request that is skipped (R132, R209, R210) -/

/-- A request whose body is skipped with the code `c` leaves the latch and the code. -/
theorem exec_skipped {c : OpOutcome} (hi : operationOf i = some ⟨op, d, r, body⟩) (hb : s.busy = false) (hu : Unobserved s)
    (he : body (accept op d r s) = finish c (accept op d r s)) :
    exec i s = .next (skipped (latchOf op d r) c s) := by
  rw [exec_accepted hb hu hi, he]
  rfl

/-- An array operation with an invalid range is skipped, whatever its buffer (R162, R163, R181, R183, R202). -/
theorem exec_array_outOfRange (hbody : body = opReadArray d ∨ body = opWriteArray d)
    (hi : operationOf i = some ⟨op, d, r, body⟩) (hb : s.busy = false) (hu : Unobserved s)
    (h : d.size ≤ r.addr.toNat ∨ d.size < r.addr.toNat + r.len.toNat) :
    exec i s = .next (skipped (latchOf op d r) .outOfRange s) := by
  refine exec_skipped hi hb hu ?_
  rcases hbody with rfl | rfl <;> exact if_neg (not_validRange h)

/-- An array operation with a valid range and no buffer is skipped (R162, R163, R181, R183, R203). -/
theorem exec_array_nullBuffer (hbody : body = opReadArray d ∨ body = opWriteArray d)
    (hi : operationOf i = some ⟨op, d, r, body⟩) (hb : s.busy = false) (hu : Unobserved s) (ha : r.addr.toNat < d.size)
    (hn : r.addr.toNat + r.len.toNat ≤ d.size) (hbuf : r.bufv = false) :
    exec i s = .next (skipped (latchOf op d r) .nullBuffer s) := by
  have hno : ¬ (accept op d r s).latch.bufv = true := by simp [hbuf]
  refine exec_skipped hi hb hu ?_
  rcases hbody with rfl | rfl <;> exact (if_pos (validRange_iff.2 ⟨ha, hn⟩)).trans (if_neg hno)

/-! ### Reads (R160, R162, R180, R181) -/

/-- An accepted operation on a device that is ready finds it ready. -/
theorem Quiet.accept (hq : Quiet d s) (op : BitVec 4) (r : Req) : Quiet d (accept op d r s) := by
  simpa [Quiet] using hq

/-- A `readByte` of a device that is ready: one read frame, and its byte in `RDATA` (R160, R180). -/
theorem exec_readByte (hi : operationOf i = some ⟨1, d, r, opReadByte d⟩) (hb : s.busy = false) (hu : Unobserved s)
    (hq : Quiet d s) (ha : r.addr.toNat < d.size) :
    let v := Memory.read (s.device d).mem r.addr.toNat
    exec i s = .next (skipped (latchOf 1 d r) .ok
      ((s.framed d (s.device d).close (readEvents d r.addr [s.params.dummyOut] [v])).setRdata v)) := by
  intro v
  have hread := frameRead_quiet r.addr (hq.accept 1 r) (validAddr_iff.2 ha)
  rw [accept_device, accept_params] at hread
  have hbody : opReadByte d (accept 1 d r s) = (frameRead d r.addr 1 (accept 1 d r s)).finally
      fun b t => finish .ok (hostPoint (t.setRdata (b.headD 0))) := if_pos (validAddr_iff.2 ha)
  rw [exec_accepted hb hu hi, hbody, hread, Flow.finally_go, hostPoint_setRdata (hu.of (by simp))]
  cases d <;> rfl

/-- A `readByte` out of range answers the sentinel (R160, R180, R202). -/
theorem exec_readByte_outOfRange (hi : operationOf i = some ⟨1, d, r, opReadByte d⟩) (hb : s.busy = false)
    (hu : Unobserved s) (ha : d.size ≤ r.addr.toNat) :
    exec i s = .next (skipped (latchOf 1 d r) .outOfRange (s.setRdata Config.sentinel)) := by
  have hbody : opReadByte d (accept 1 d r s) =
      finish .outOfRange (hostPoint ((accept 1 d r s).setRdata Config.sentinel)) := if_neg (not_validAddr ha)
  rw [exec_accepted hb hu hi, hbody, hostPoint_setRdata (s := accept 1 d r s) (hu.of rfl)]
  rfl

/-- A read frame into `Buf` on a device that is ready (R124, R162). -/
theorem frameReadInto_quiet (a : Word) (n : Nat) (hq : Quiet d s) (ha : a.toNat < d.size) :
    let bs := Memory.readMany (s.device d).mem a.toNat n
    frameReadInto d a n s = .go ()
      { s.framed d (s.device d).close (readEvents d a (List.replicate n s.params.dummyOut) bs) with
        buf := Memory.writeMany s.buf 0 bs } := by
  have hread := frameReadOuts_quiet d a (List.replicate n s.params.dummyOut) s hq ha
  rw [List.length_replicate] at hread
  rw [frameReadInto, frameRead, hread]
  simp only [framed_buf]

/-- A `readArray` of a device that is ready: one read frame, and its bytes in `Buf` (R162, R181). -/
theorem exec_readArray (hi : operationOf i = some ⟨3, d, r, opReadArray d⟩) (hb : s.busy = false) (hu : Unobserved s)
    (hq : Quiet d s) (ha : r.addr.toNat < d.size) (hn : r.addr.toNat + r.len.toNat ≤ d.size) (hbuf : r.bufv = true) :
    let bs := Memory.readMany (s.device d).mem r.addr.toNat r.len.toNat
    exec i s = .next (skipped (latchOf 3 d r) .ok
      { s.framed d (s.device d).close (readEvents d r.addr (List.replicate r.len.toNat s.params.dummyOut) bs) with
        buf := Memory.writeMany s.buf 0 bs }) := by
  intro bs
  have hread := frameReadInto_quiet r.addr r.len.toNat (hq.accept 3 r) ha
  have hbody : opReadArray d (accept 3 d r s) =
      (frameReadInto d r.addr r.len.toNat (accept 3 d r s)).finally fun _ t => finish .ok t :=
    (if_pos (validRange_iff.2 ⟨ha, hn⟩)).trans (if_pos hbuf)
  rw [exec_accepted hb hu hi, hbody, hread, Flow.finally_go]
  cases d <;> rfl

/-! ### One write cycle (R128, R161, R164, R165) -/

/-- The first status read ready: the operation ends `Ok` (R127, R161). -/
theorem ComesToCycle.ends {w : Write} (h : ComesToCycle w r s) (hu : Unobserved s) (hq : Quiet w.dev s) (hr : ReadyAtOnce s) :
    exec w.instr s = .next
      { ((s.skipDraws 2).setDevice w.dev ((s.device w.dev).written w.mem)).setCs w.dev false with
        latch := latchOf w.op w.dev r, busy := false, phase := .idle, outcome := .ok, tmp := w.tmp
        st := statusOfDraw false (s.drawAt 1), pollcnt := 0
        trace := s.trace ++ w.reads ++ cycleEvents w.dev w.body s.params.dummyOut (statusOfDraw false (s.drawAt 1)) } := by
  obtain ⟨v, b, body, hv, hbody, he⟩ := h
  have hr' : ReadyAtOnce (atCycle w r v b s) := by rwa [ReadyAtOnce, atCycle_drawAt]
  have hwritten : v.written w.mem = (s.device w.dev).written w.mem := by
    show v.close.written w.mem = (s.device w.dev).close.written w.mem
    rw [hv]
  rw [he, writeCycle_ready w.dev body _ _ _ (atCycle_quiet hq hv) (hu.of (atCycle_inbox ..)) hr'
      (hbody.of_mem (atCycle_mem hv)),
    Flow.finally_go, atCycle_framed, atCycle_device, hwritten]
  simp only [atCycle_drawAt, atCycle_params]
  rfl

/-! ### A bulk write (R151, R163, R183) -/

/-- A `writeArray` that is ready at every first status read sends all the chunks of its range and ends `Ok` (R151). -/
theorem exec_writeArray_ready (hi : operationOf i = some ⟨4, d, r, opWriteArray d⟩) (hb : s.busy = false) (hu : Unobserved s)
    (hq : Quiet d s) (ha : r.addr.toNat < d.size) (hn : r.addr.toNat + r.len.toNat ≤ d.size) (hbuf : r.bufv = true)
    (hr : ReadyEachTime (chunks d r.addr.toNat r.len.toNat).length s) :
    let t := bulkDone d (bulkStart d r s) (chunks d r.addr.toNat r.len.toNat)
    exec i s = .next (finish .ok t) ∧ Quiet d t := by
  intro t
  have hv := validRange_iff.2 ⟨ha, hn⟩
  have hin : InRange d (bulkStart d r s) := inRange_of_validRange hv rfl
  have hall := chunkLoop_ready d r.len.toNat (bulkStart d r s) hq hu hin le_rfl hr
  obtain ⟨-, -, hqt, -⟩ :=
    chunkLoop_run d (chunks d r.addr.toNat r.len.toNat) r.len.toNat (bulkStart d r s) [] hq hu hin
      (List.append_nil _).symm hr
  refine ⟨?_, hqt⟩
  rw [exec_writeArray hi hb hu hv hbuf, hall]
  rfl

end

section
variable (d : Dev) (u : State) (cs : List (Nat × Nat))

/-- The registers after some chunks have counted off their bytes (R151). -/
theorem bulkDone_registers :
    let n := BitVec.ofNat 32 (cs.map (·.2)).sum
    (bulkDone d u cs).cur = u.cur + n ∧ (bulkDone d u cs).idx = u.idx + n ∧ (bulkDone d u cs).rem = u.rem - n := by
  cases h : cs.getLast? with
  | none => simp [bulkDone, List.getLast?_eq_none_iff.1 h]
  | some c => simp [bulkDone, h]

/-- Storage after some chunks holds their bytes of `Buf` from the cursor on (R62, R63, R151). -/
theorem bulkDone_mem :
    ((bulkDone d u cs).device d).mem =
      programMem d (u.device d).mem u.cur.toNat (Memory.readMany u.buf u.idx.toNat (cs.map (·.2)).sum) := by
  cases h : cs.getLast? with
  | none =>
    rw [List.getLast?_eq_none_iff.1 h]
    cases d <;> rfl
  | some c =>
    rw [bulkDone, h]
    cases d <;> rfl

/-- After at least one chunk the frames of a write cycle have released the device and cleared its latch (R61, R127, R128). -/
theorem bulkDone_released {cs : List (Nat × Nat)} (h : cs ≠ []) :
    (bulkDone d u cs).cs d = false ∧ (bulkDone d u cs).pollcnt = 0 ∧ ((bulkDone d u cs).device d).wel = false := by
  rw [bulkDone, List.getLast?_eq_some_getLast h]
  cases d <;> exact ⟨rfl, rfl, rfl⟩

end

/-- A whole range of chunks written from the start of `Buf` (R151, R153). -/
structure BulkWritten (d : Dev) (r : Req) (s t : State) : Prop where
  cur : t.cur = r.addr + r.len
  rem : t.rem = 0
  idx : t.idx = r.len
  released : 0 < r.len.toNat → t.cs d = false ∧ t.pollcnt = 0 ∧ (t.device d).wel = false
  mem : ∀ x, Memory.read (t.device d).mem x =
    if r.addr.toNat ≤ x ∧ x < r.addr.toNat + r.len.toNat then
      mixed d (Memory.read (s.device d).mem x) (Memory.read s.buf (x - r.addr.toNat))
    else Memory.read (s.device d).mem x

/-- The chunks of the range of a `writeArray` write all of it. -/
theorem bulkDone_written (d : Dev) (r : Req) (s : State) :
    BulkWritten d r s (bulkDone d (bulkStart d r s) (chunks d r.addr.toNat r.len.toNat)) := by
  set cs := chunks d r.addr.toNat r.len.toNat with hcs
  have hsum : (cs.map (·.2)).sum = r.len.toNat := chunksFuel_sum d _ _ _ le_rfl
  have hlen : BitVec.ofNat 32 (cs.map (·.2)).sum = r.len := by rw [hsum, BitVec.ofNat_toNat, BitVec.setWidth_eq]
  obtain ⟨hcur, hidx, hrem⟩ := bulkDone_registers d (bulkStart d r s) cs
  rw [hlen] at hcur hidx hrem
  refine ⟨hcur, hrem.trans (BitVec.sub_self _), hidx.trans (BitVec.zero_add _), fun hn => ?_, fun x => ?_⟩
  · exact bulkDone_released d _ (by rw [hcs, chunks_of_pos d hn]; exact List.cons_ne_nil _ _)
  · have hmem : ((bulkDone d (bulkStart d r s) cs).device d).mem =
        programMem d (s.device d).mem r.addr.toNat (Memory.readMany s.buf 0 r.len.toNat) := by
      rw [bulkDone_mem, hsum]
      cases d <;> rfl
    rw [hmem, read_programMem_readMany, Nat.zero_add]

end Sys2Proof.Machine
end

section
/-! The operations of the EEPROM, each with its whole next state (R160 to R165), and the skipped bulk writes of both devices. -/

namespace Sys2Proof.Machine

/-- Settles O30: the range is checked first, then the buffer. -/
theorem writeArraySkipped : Obligations.WriteArraySkipped := fun _ _ hb hu =>
  ⟨exec_array_outOfRange (d := .ee) (.inr rfl) rfl hb hu, exec_array_nullBuffer (d := .ee) (.inr rfl) rfl hb hu,
    exec_array_outOfRange (d := .nor) (.inr rfl) rfl hb hu, exec_array_nullBuffer (d := .nor) (.inr rfl) rfl hb hu⟩

/-- Settles O21: one read frame, or the sentinel without one. -/
theorem eepromReadByte : Obligations.EepromReadByte := fun _ _ hb hu =>
  ⟨fun ha hq => exec_readByte (d := .ee) rfl hb hu hq ha, exec_readByte_outOfRange (d := .ee) rfl hb hu⟩

/-- Settles O22: the range, the buffer, and one read frame whose bytes stand at the start of `Buf`. -/
theorem eepromReadArray : Obligations.EepromReadArray := fun r s hb hu =>
  ⟨fun ha hn hbuf hq => ⟨_, exec_readArray (d := .ee) rfl hb hu hq ha hn hbuf, rfl,
      read_writeMany_readMany s.buf s.ee.mem r.addr.toNat r.len.toNat⟩,
    exec_array_nullBuffer (d := .ee) (.inl rfl) rfl hb hu, exec_array_outOfRange (d := .ee) (.inl rfl) rfl hb hu⟩

/-- A `writeByte` in range comes to its write cycle with no read before it (R161). -/
theorem eeWriteByte_comesToCycle {r : Req} {s : State} (hb : s.busy = false) (hu : Unobserved s)
    (ha : r.addr.toNat < Dev.ee.size) :
    ComesToCycle ⟨.eeWriteByte r, 2, .ee, true, [], s.tmp, programEvents .ee r.addr [r.val],
      programMem .ee s.ee.mem r.addr.toNat [r.val]⟩ r s :=
  .of_accepted hb hu rfl (body_programByte r.val (validAddr_iff.2 ha)) (if_pos (validAddr_iff.2 ha))

/-- Settles O23: the write cycle stores the byte. -/
theorem eepromWriteByte : Obligations.EepromWriteByte := by
  intro r s hb hu
  refine ⟨fun ha hq hr => ?_, fun ha => ?_⟩
  · have he := (eeWriteByte_comesToCycle hb hu ha).ends hu hq hr
    rw [List.append_nil] at he
    exact ⟨_, he, rfl, fun x => read_programMem_byte .ee s.ee.mem r.addr.toNat x r.val⟩
  · exact exec_skipped (d := .ee) rfl hb hu (if_neg (not_validAddr (d := .ee) ha))

/-- Settles O24: all the chunks of the range are sent, and together they write it. -/
theorem eepromWriteArray : Obligations.EepromWriteArray := by
  intro r s hb hu ha hn hbuf hq hr
  obtain ⟨he, hqt⟩ := exec_writeArray_ready (i := .eeWriteArray r) (d := .ee) rfl hb hu hq ha hn hbuf hr
  have hw := bulkDone_written .ee r s
  exact ⟨_, he, rfl, hw.cur, hw.rem, hw.idx, hqt, hw.released, hw.mem⟩

section
variable {i : Instr} {op : BitVec 4} {r : Req} {s : State} {f : Byte → Byte → Byte}

/-- A bit operation that passes its checks: one read frame, and a write cycle with the byte that `f` makes of the byte read (R164,
R165). -/
theorem eeModifyBit_comesToCycle (hi : operationOf i = some ⟨op, .ee, r, eeModifyBit f⟩) (hb : s.busy = false)
    (hu : Unobserved s) (hq : Quiet .ee s) (ha : r.addr.toNat < Dev.ee.size) (hn : r.bitn.toNat ≤ 7) :
    let old := Memory.read s.ee.mem r.addr.toNat
    let new := f old r.bitn
    ComesToCycle ⟨i, op, .ee, true, readEvents .ee r.addr [s.params.dummyOut] [old], new,
      programEvents .ee r.addr [new], programMem .ee s.ee.mem r.addr.toNat [new]⟩ r s :=
  .of_read hb hu hi (body_programByte _ (validAddr_iff.2 ha))
    (eeModifyBit_writes (s := accept op .ee r s) f hq (validAddr_iff.2 ha) (validBit_iff.2 hn))

/-- A bit operation with a bad index, its address in range (R164, R165, R204). -/
theorem exec_eeModifyBit_invalidBitIndex (hi : operationOf i = some ⟨op, .ee, r, eeModifyBit f⟩) (hb : s.busy = false)
    (hu : Unobserved s) (ha : r.addr.toNat < Dev.ee.size) (hn : 7 < r.bitn.toNat) :
    exec i s = .next (skipped (latchOf op .ee r) .invalidBitIndex s) :=
  exec_skipped hi hb hu
    ((if_pos (validAddr_iff.2 ha)).trans (if_neg fun h => Nat.not_le.2 hn (validBit_iff.1 h)))

/-- A bit operation out of range, whatever its index (R164, R165, R202). -/
theorem exec_eeModifyBit_outOfRange (hi : operationOf i = some ⟨op, .ee, r, eeModifyBit f⟩) (hb : s.busy = false)
    (hu : Unobserved s) (ha : Dev.ee.size ≤ r.addr.toNat) :
    exec i s = .next (skipped (latchOf op .ee r) .outOfRange s) :=
  exec_skipped hi hb hu (if_neg (not_validAddr ha))

end

/-- Settles O25: the two operations are one read-modify-write, with the byte `withBit` or `withoutBit` makes. -/
theorem eepromBitOperations : Obligations.EepromBitOperations := by
  intro r s i op f hcase hb hu
  obtain ⟨g, hi, rfl⟩ : ∃ g : Byte → Byte → Byte,
      operationOf (i r) = some ⟨op, .ee, r, eeModifyBit g⟩ ∧ f = fun b => g b r.bitn := by
    rcases hcase with ⟨rfl, rfl, rfl⟩ | ⟨rfl, rfl, rfl⟩
    · exact ⟨withBit, rfl, rfl⟩
    · exact ⟨withoutBit, rfl, rfl⟩
  refine ⟨fun ha hn hq hr => ?_, exec_eeModifyBit_invalidBitIndex hi hb hu, exec_eeModifyBit_outOfRange hi hb hu⟩
  exact ⟨_, (eeModifyBit_comesToCycle hi hb hu hq ha hn).ends hu hq hr, rfl,
    fun x => read_programMem_byte .ee s.ee.mem r.addr.toNat x _⟩

end Sys2Proof.Machine
end

section
/-! The operations of the NOR flash, each with its whole next state (R180 to R186). -/

namespace Sys2Proof.Machine

/-! ### The operation that sends nothing, and those shared with the EEPROM (R180, R181, R183, R184) -/

/-- Settles O31: the whole body of the request is its end with `Unsupported`; the selector of a legal request with this `OP` and
`DEV` is 21. -/
theorem norSetBitIsUnsupported : Obligations.NorSetBitIsUnsupported := by
  refine ⟨fun _ _ hb hu => exec_skipped (d := .nor) rfl hb hu rfl, fun w0 w1 w2 hop hdev hl => ?_⟩
  have hsel : (selectorOf w0).toNat = 21 := by rw [selectorOf_toNat, hop, hdev]; rfl
  have hres : reservedClear w0 = true := by
    simp only [isIllegal, not_or, ne_eq, not_not] at hl
    obtain ⟨-, -, h6, h24, -⟩ := hl
    simp [reservedClear, h6, h24]
  rw [decode, decodeRequest, if_pos hres, hsel]
  rfl

/-- Settles O26: one read frame, or the sentinel without one. -/
theorem norReadByte : Obligations.NorReadByte := fun _ _ hb hu =>
  ⟨fun ha hq => exec_readByte (d := .nor) rfl hb hu hq ha, exec_readByte_outOfRange (d := .nor) rfl hb hu⟩

/-- Settles O27: the range, the buffer, and one read frame whose bytes stand at the start of `Buf`. -/
theorem norReadArray : Obligations.NorReadArray := fun r s hb hu =>
  ⟨fun ha hn hbuf hq => ⟨_, exec_readArray (d := .nor) rfl hb hu hq ha hn hbuf, rfl,
      read_writeMany_readMany s.buf s.nor.mem r.addr.toNat r.len.toNat⟩,
    exec_array_nullBuffer (d := .nor) (.inl rfl) rfl hb hu, exec_array_outOfRange (d := .nor) (.inl rfl) rfl hb hu⟩

/-- Settles O29: all the chunks of the range are sent, and together they AND `Buf` into it. -/
theorem norWriteArray : Obligations.NorWriteArray := by
  intro r s hb hu ha hn hbuf hq hr
  obtain ⟨he, hqt⟩ := exec_writeArray_ready (i := .norWriteArray r) (d := .nor) rfl hb hu hq ha hn hbuf hr
  have hw := bulkDone_written .nor r s
  exact ⟨_, he, rfl, hw.cur, hw.rem, hw.idx, hqt, hw.released, hw.mem⟩

/-! ### The writes that come to a write cycle (R182, R185, R186) -/

theorem clearOnly_iff {old new : Byte} : clearOnly old new = true ↔ old &&& new = new := decide_eq_true_iff

section
variable {r : Req} {s : State}

/-- A `writeByte` that needs no bit to go from 0 to 1: its read, then its write cycle (R182). -/
theorem norWriteByte_comesToCycle (hb : s.busy = false) (hu : Unobserved s) (hq : Quiet .nor s)
    (ha : r.addr.toNat < Dev.nor.size) (hc : Memory.read s.nor.mem r.addr.toNat &&& r.val = r.val) :
    let old := Memory.read s.nor.mem r.addr.toNat
    ComesToCycle ⟨.norWriteByte r, 2, .nor, validAddr .nor r.addr && clearOnly old r.val,
      readEvents .nor r.addr [s.params.dummyOut] [old], old, programEvents .nor r.addr [r.val],
      programMem .nor s.nor.mem r.addr.toNat [r.val]⟩ r s :=
  writesOf_comesToCycle (by simp [writesOf]) (Bool.and_eq_true_iff.2 ⟨validAddr_iff.2 ha, clearOnly_iff.2 hc⟩) hb hu hq

/-- A `clearBit` that passes its checks: its own read, the read of the write path, then its write cycle (R185). -/
theorem norClearBit_comesToCycle (hb : s.busy = false) (hu : Unobserved s) (hq : Quiet .nor s)
    (ha : r.addr.toNat < Dev.nor.size) (hn : r.bitn.toNat ≤ 7) :
    let old := Memory.read s.nor.mem r.addr.toNat
    let new := withoutBit old r.bitn
    let read := readEvents .nor r.addr [s.params.dummyOut] [old]
    ComesToCycle ⟨.norClearBit r, 6, .nor, validAddr .nor r.addr && validBit r.bitn, read ++ read, old,
      programEvents .nor r.addr [new], programMem .nor s.nor.mem r.addr.toNat [new]⟩ r s :=
  writesOf_comesToCycle (by simp [writesOf]) (Bool.and_eq_true_iff.2 ⟨validAddr_iff.2 ha, validBit_iff.2 hn⟩) hb hu hq

/-- An `eraseSector` in range comes to its write cycle with no read before it (R186). -/
theorem norEraseSector_comesToCycle (hb : s.busy = false) (hu : Unobserved s) (hq : Quiet .nor s)
    (ha : r.addr.toNat < Dev.nor.size) :
    ComesToCycle ⟨.norEraseSector r, 7, .nor, validAddr .nor r.addr, [], s.tmp,
      eraseEvents (BitVec.ofNat 32 (sectorBase r.addr.toNat)),
      Memory.erase s.nor.mem (sectorBase r.addr.toNat) Config.norSector⟩ r s :=
  writesOf_comesToCycle (by simp [writesOf]) (validAddr_iff.2 ha) hb hu hq

end

/-- The write path after a read whose byte lacks a bit of the byte to write: `RequiresErase`, and nothing is programmed (R182,
R205). -/
theorem clearOnlyWrite_requiresErase {s t : State} {b v : Byte} (hread : frameRead .nor s.latch.addr 1 s = .go [b] t)
    (hc : b &&& v ≠ v) : clearOnlyWrite v s = finish .requiresErase { t with tmp := b } := by
  rw [clearOnlyWrite, hread, Flow.finally_go]
  exact if_neg fun h => hc (clearOnly_iff.1 h)

/-- Settles O28: the range, the read, and the clear-only predicate between the write cycle and `RequiresErase`. -/
theorem norWriteByte : Obligations.NorWriteByte := by
  intro r s hb hu
  refine ⟨fun ha hq hr hc => ?_, fun ha hq hc => ?_, fun ha => ?_⟩
  · refine ⟨_, (norWriteByte_comesToCycle hb hu hq ha hc).ends hu hq hr, rfl, fun x => ?_⟩
    refine (read_programMem_byte .nor s.nor.mem r.addr.toNat x r.val).trans ?_
    rw [mixed, hc]
  · have hv : validAddr .nor r.addr = true := validAddr_iff.2 ha
    have hread := frameRead_quiet r.addr (hq.accept 2 r) hv
    rw [accept_device, device_nor, accept_params] at hread
    rw [exec_accepted (d := .nor) hb hu rfl]
    exact congrArg Host.Outcome.next ((if_pos hv).trans (clearOnlyWrite_requiresErase (s := accept 2 .nor r s) hread hc))
  · exact exec_skipped (d := .nor) rfl hb hu (if_neg (not_validAddr (d := .nor) ha))

/-- Clearing a bit and programming the byte over what it was read from leaves the bit cleared and the others as they were (R63,
R185). -/
theorem mixed_withoutBit (old n : Byte) : mixed .nor old (withoutBit old n) = withoutBit old n :=
  clearOnly_iff.1 (clearOnly_withoutBit old n)

/-- Settles O32: the range, the index, and the write cycle that stores the byte with one bit cleared. -/
theorem norClearBit : Obligations.NorClearBit := by
  intro r s hb hu
  refine ⟨fun ha hn hq hr => ?_, fun ha hn => ?_, fun ha => ?_⟩
  · have he := (norClearBit_comesToCycle hb hu hq ha hn).ends hu hq hr
    rw [← List.append_assoc] at he
    refine ⟨_, he, rfl, fun x => (read_programMem_byte .nor s.nor.mem r.addr.toNat x _).trans ?_⟩
    rw [mixed_withoutBit]
    by_cases hx : x = r.addr.toNat
    · rw [if_pos hx, if_pos hx, hx]
      rfl
    · rw [if_neg hx, if_neg hx]
  · exact exec_skipped (d := .nor) rfl hb hu
      ((if_pos (validAddr_iff.2 ha)).trans (if_neg fun h => Nat.not_le.2 hn (validBit_iff.1 h)))
  · exact exec_skipped (d := .nor) rfl hb hu (if_neg (not_validAddr (d := .nor) ha))

/-- Settles O34: the write cycle erases the sector of the address. -/
theorem norEraseSector : Obligations.NorEraseSector := by
  intro r s hb hu
  refine ⟨fun ha hq hr => ?_, fun ha => ?_⟩
  · have he := (norEraseSector_comesToCycle hb hu hq ha).ends hu hq hr
    rw [List.append_nil] at he
    refine ⟨_, he, rfl, fun x => ?_⟩
    refine (Memory.read_erase s.nor.mem (sectorBase r.addr.toNat) Config.norSector x).trans ?_
    simp only [mem_sector_iff]
    rfl
  · exact exec_skipped (d := .nor) rfl hb hu (if_neg (not_validAddr (d := .nor) ha))

/-! ### Three operations in a row -/

/-- A write cycle that was ready at once leaves its device ready. -/
theorem Quiet.of_written {d : Dev} {s t : State} {mem : List Host.Cell} (hq : Quiet d s) (hf : t.fuse = s.fuse)
    (hd : t.device d = (s.device d).written mem) : Quiet d t := by
  obtain ⟨hfuse, hl, -⟩ := hq
  exact ⟨hf.trans hfuse, by rw [hd]; exact hl, by rw [hd]; rfl⟩

/-- Settles O54: the erase leaves every bit of the byte set, so the clear-only predicate holds of any value. -/
theorem norEraseThenWriteThenRead : Obligations.NorEraseThenWriteThenRead := by
  intro e r q s hb hu hq hr ha hea hsector hqa
  obtain ⟨erase, -⟩ := norEraseSector e s hb hu
  obtain ⟨t, ht, hts, htm⟩ := erase hea hq (hr 0 (by omega))
  have htb : t.busy = false := by rw [hts]; rfl
  have htu : Unobserved t := hu.of (by rw [hts]; rfl)
  have htq : Quiet .nor t := hq.of_written (by rw [hts]; rfl) (congrArg State.nor hts)
  have htr : ReadyAtOnce t := by
    have hdraw : t.drawAt 0 = (s.skipDraws 2).drawAt 0 := drawAt_congr (by rw [hts]; rfl) (by rw [hts]; rfl) 0
    rw [ReadyAtOnce, hdraw, drawAt_skipDraws]
    exact hr 1 (by omega)
  have herased : Memory.read t.nor.mem r.addr.toNat &&& r.val = r.val := by
    rw [htm, if_pos hsector.symm]
    exact BitVec.allOnes_and
  obtain ⟨write, -⟩ := norWriteByte r t htb htu
  obtain ⟨u, hw, hus, hum⟩ := write ha htq htr herased
  have huq : Quiet .nor u := htq.of_written (by rw [hus]; rfl) (congrArg State.nor hus)
  obtain ⟨read, -⟩ := norReadByte q u (by rw [hus]; rfl) (htu.of (by rw [hus]; rfl))
  refine ⟨t, u, _, ht, hw, read (by rwa [hqa]) huq, by rw [hus]; rfl, ?_, rfl⟩
  exact (hum q.addr.toNat).trans (if_pos (congrArg BitVec.toNat hqa))

/-! ### A device off its protocol (R68, R185) -/

/-- Two frames in a row outside their preconditions. -/
theorem misused_misused (d : Dev) (why why' : Misuse) (m n : Nat) (es fs : List Event) (s : State) :
    misused d why' n fs (misused d why m es s) = misused d why' (m + n) (es ++ fs) s := by
  cases d <;> simp [misused, State.setDevice, State.setCs, State.skipDraws, State.device, Nat.add_assoc]

/-- A read frame of one byte on a device that has left its protocol or is busy: its byte is a draw (R68). -/
theorem frameRead_misused {d : Dev} {s : State} (a : Word) (hf : s.fuse = none)
    (h : (s.device d).lost ≠ none ∨ (s.device d).dbusy = true) :
    let b := byteOfDraw (s.drawAt 0)
    frameRead d a 1 s = .go [b]
      (misused d ((s.device d).lost.getD .whileBusy) 1 (readEvents d a [s.params.dummyOut] [b]) s) := by
  have hheader : headerBytes d Config.opcRead a = Config.opcRead :: (headerBytes d Config.opcRead a).tail := by
    cases d <;> rfl
  have h' := h.imp Option.isSome_iff_ne_none.2 fun hb => And.intro hb (by decide : Config.opcRead ≠ Config.opcRdsr)
  have hp := performFrame_misused d Config.opcRead (headerBytes d Config.opcRead a).tail [s.params.dummyOut] s hf h'
  rw [← hheader] at hp
  exact hp

/-- Settles O33: both reads answer draws, and the second draw lacks a bit of the byte to write. -/
theorem norClearBitKeepsTheEraseBranch : Obligations.NorClearBitKeepsTheEraseBranch := by
  intro r s hb hu ha hn hf hlost b b2 v hv
  have hread := frameRead_misused (d := .nor) (s := accept 6 .nor r s) r.addr hf hlost
  set t := misused .nor ((accept 6 .nor r s).nor.lost.getD .whileBusy) 1
    (readEvents .nor r.addr [s.params.dummyOut] [b]) (accept 6 .nor r s) with ht
  have hread2 : frameRead .nor r.addr 1 t = _ :=
    frameRead_misused (d := .nor) (s := t) r.addr hf (.inl (Option.some_ne_none _))
  have hdraw : t.drawAt 0 = s.drawAt 1 := drawAt_skipDraws s 1 0
  rw [hdraw] at hread2
  rw [exec_accepted (d := .nor) hb hu rfl]
  refine congrArg Host.Outcome.next ((if_pos (validAddr_iff.2 ha)).trans ((if_pos (validBit_iff.2 hn)).trans ?_))
  refine (congrArg (Flow.finally · _) hread).trans ((clearOnlyWrite_requiresErase (s := t) hread2 hv).trans ?_)
  rw [ht, misused_misused, misused, ← List.append_assoc]
  rfl

end Sys2Proof.Machine
end

section
/-! A poll loop without a limit on a device that never becomes ready (R66, R127, R237). -/

namespace Sys2Proof.Machine

/-- A poll loop on device `d` without a limit, whose device holds `m` and is busy for ever. -/
structure WaitsForever (d : Dev) (m : List Host.Cell) (s : State) : Prop where
  waiting : Waiting d s
  lost : (s.device d).lost = none
  dbusy : (s.device d).dbusy = true
  reads : (s.device d).busyReads = none
  mem : (s.device d).mem = m
  limit : s.params.pollLimit = none

/-- A status read finds the device as busy as it was, and the loop waits on (R66, R127). -/
theorem WaitsForever.turn {d : Dev} {m : List Host.Cell} {s : State} (h : WaitsForever d m s) :
    ∃ t, step s = .next t ∧ WaitsForever d m t := by
  have hv : (s.device d).sample = (true, s.device d) := by simp [Device.sample, h.dbusy, h.reads]
  refine ⟨_, step_turn_waits h.waiting h.lost (by rw [hv]) (by rw [h.limit]; rfl), ?_⟩
  generalize ht : ({ sampledState d s with
    pollcnt := s.pollcnt + 1
    trace := (sampledState d s).trace ++ [.dly d s.params.pollDelayUs]
    frame := s.frame } : State) = t
  have hdev : t.device d = (s.device d).close := by
    have hsampled := sampledState_device d s
    rw [hv] at hsampled
    rw [← hsampled, ← ht]
    cases d <;> rfl
  subst ht
  refine ⟨?_, ?_, ?_, ?_, ?_, ?_⟩
  · apply h.waiting.of_same <;> simp
  · rw [hdev]; exact h.lost
  · rw [hdev]; exact h.dbusy
  · rw [hdev]; exact h.reads
  · rw [hdev]; exact h.mem
  · rw [sampledState_params]; exact h.limit

/-- Any number of turns leaves the loop waiting. -/
theorem WaitsForever.steps {d : Dev} {m : List Host.Cell} {s : State} (h : WaitsForever d m s) (n : Nat) :
    ∃ t, Machine.steps n s = .next t ∧ WaitsForever d m t := by
  induction n generalizing s with
  | zero => exact ⟨s, rfl, h⟩
  | succ n ih =>
    obtain ⟨t, ht, hw⟩ := h.turn
    obtain ⟨u, hu, hw'⟩ := ih hw
    exact ⟨u, by rw [Machine.steps, ht]; exact hu, hw'⟩

/-- Settles O38: every turn of the loop is one step that leaves it waiting, by induction on the steps. -/
theorem unboundedWaitNeverEnds : Obligations.UnboundedWaitNeverEnds := by
  intro d s hw hl hb hr hlim n
  obtain ⟨t, ht, hforever⟩ := WaitsForever.steps ⟨hw, hl, hb, hr, rfl, hlim⟩ n
  obtain ⟨hbusy, hphase, -⟩ := hforever.waiting
  exact ⟨t, ht, hbusy, hphase, hforever.mem⟩

end Sys2Proof.Machine
end

section
/-! An operation that ends in its first step leaves its device ready, unless it gives up waiting (R206, R238, R248). -/

namespace Sys2Proof.Machine

/-! ### An operation in progress on a device that is ready -/

/-- An operation in progress on device `d`, which is ready for its next frame, with no move of the host inside. -/
structure AtWork (d : Dev) (s : State) : Prop where
  quiet : Quiet d s
  unobserved : Unobserved s
  busy : s.busy = true

/-- A step that has ended the operation without giving up has left device `d` ready. -/
def EndsReady (d : Dev) (s : State) : Prop := s.busy = false → s.outcome ≠ .deviceNotReady → Quiet d s

/-- A write cycle or chunk loop that is over has left device `d` ready, or has given up, or waits in its poll loop. -/
def LeavesReady (d : Dev) : Flow Bool → Prop
  | .go ready s => ready = true → AtWork d s
  | .halt s => s.busy = true

section
variable {d : Dev} {s : State}

/-- The sequencer's own registers, `BUSY` aside, have no part in it. -/
theorem AtWork.of_same (h : AtWork d s) {t : State} (hf : t.fuse = s.fuse) (hd : t.device d = s.device d)
    (hi : t.inbox = s.inbox) (hb : t.busy = s.busy) : AtWork d t := by
  refine ⟨?_, h.unobserved.of hi, hb.trans h.busy⟩
  rw [Quiet, hf, hd]
  exact h.quiet

/-- A frame that leaves its device only closed. -/
theorem AtWork.framed_close (h : AtWork d s) (es : List Event) : AtWork d (s.framed d (s.device d).close es) :=
  ⟨h.quiet.framed_close es, h.unobserved.of (framed_inbox ..), (framed_busy ..).trans h.busy⟩

theorem atWork_accept (hq : Quiet d s) (hu : Unobserved s) (op : BitVec 4) (r : Req) : AtWork d (accept op d r s) :=
  ⟨hq.accept op r, hu.of rfl, rfl⟩

theorem AtWork.setTmp (h : AtWork d s) (v : Byte) : AtWork d { s with tmp := v } :=
  h.of_same rfl (by cases d <;> rfl) rfl rfl

theorem AtWork.setBuf (h : AtWork d s) (m : List Host.Cell) : AtWork d { s with buf := m } :=
  h.of_same rfl (by cases d <;> rfl) rfl rfl

theorem AtWork.finish (h : AtWork d s) (c : OpOutcome) : EndsReady d (finish c s) := by
  intro _ _
  rw [Quiet, finish_device]
  exact h.quiet

/-- A `readByte` ends with its byte, or the sentinel, in `RDATA` (R160, R180). -/
theorem AtWork.setRdata (h : AtWork d s) (v : Byte) (c : OpOutcome) :
    EndsReady d (Machine.finish c (hostPoint (s.setRdata v))) := by
  rw [hostPoint_setRdata h.unobserved]
  exact AtWork.finish (h.of_same rfl (setRdata_device ..) rfl rfl) c

/-- An operation that ends by what its cycles answer (R161, R206). -/
theorem LeavesReady.ends {m : Flow Bool} (h : LeavesReady d m) : EndsReady d (m.finally finishReady) := by
  cases m with
  | halt t => exact fun hb => absurd (hb.symm.trans h) (by decide)
  | go ready t =>
    cases ready with
    | true => exact (h rfl).finish .ok
    | false => exact fun _ hne => absurd rfl hne

/-! ### The procedures -/

/-- A write cycle: ready at the first status read, or the loop waits, or it gives up (R127, R128). -/
theorem AtWork.writeCycle (h : AtWork d s) {body : State → Flow Unit} {mem : List Host.Cell} {es : List Event}
    (hb : Body d s body mem es) : LeavesReady d (writeCycle d body s) := by
  by_cases hr : ReadyAtOnce s
  · rw [writeCycle_ready d body mem es s h.quiet h.unobserved hr hb]
    refine fun _ => ⟨h.quiet.of_written (by simp) (mem := mem) ?_, h.unobserved.of (by simp), by simp [h.busy]⟩
    cases d <;> rfl
  · cases hl : limitHit s.params.pollLimit 1 with
    | false =>
      rw [writeCycle_waiting d body mem es s h.quiet h.unobserved hr hl hb]
      simp [LeavesReady, h.busy]
    | true =>
      rw [writeCycle_gaveUp d body mem es s h.quiet h.unobserved hr hl hb]
      exact fun hc => absurd hc (by decide)

/-- One byte programmed at an address of the device. -/
theorem AtWork.writeByte (h : AtWork d s) {a : Word} (ha : validAddr d a = true) (v : Byte) :
    EndsReady d ((writeChunk d a [v] s).finally finishReady) :=
  (h.writeCycle (body_programByte v ha)).ends

/-- A read frame of one byte, and what comes after it. -/
theorem AtWork.readByte (h : AtWork d s) {a : Word} (ha : validAddr d a = true) {f : List Byte → State → State}
    (hf : ∀ b t, AtWork d t → t.latch = s.latch → EndsReady d (f b t)) : EndsReady d ((frameRead d a 1 s).finally f) := by
  rw [frameRead_quiet a h.quiet ha]
  exact hf _ _ (h.framed_close _) (framed_latch ..)

/-- The registers of a bulk write stand where they stood. -/
theorem BulkAt.of_same (h : BulkAt d s) {t : State} (hs : SameBulk s t) : BulkAt d t := by
  obtain ⟨hdev, hrange, hbufv, hcur, hrest⟩ := h
  constructor <;> simpa only [hs.latch, hs.cur, hs.rem, hs.idx]

/-- The chunks of a bulk write, each inside its page, up to the first that is not ready at once (R151, R153). -/
theorem AtWork.chunkLoop (h : AtWork d s) (hat : BulkAt d s) (fuel : Nat) : LeavesReady d (chunkLoop d fuel s) := by
  induction fuel generalizing s with
  | zero => exact fun _ => h
  | succ fuel ih =>
    rw [Machine.chunkLoop]
    split
    · exact fun _ => h
    · rename_i h0
      obtain ⟨hcur, hidx⟩ := hat.inRange
      obtain ⟨hpos, hclen, -, hfit⟩ := loadClen_facts d s ⟨hcur, hidx⟩ h0
      obtain ⟨-, hle, -, -⟩ := chunkLen_pos d s.cur.toNat s.rem.toNat hpos
      have hload : AtWork d (loadClen d s) := h.of_same rfl (loadClen_device ..) rfl rfl
      have hcycle := hload.writeCycle (body_program d (loadClen d s) (loadClen d s).cur (chunkData (loadClen d s)) hfit)
      have hbulk := writeChunk_bulk d (loadClen d s).cur (chunkData (loadClen d s)) (loadClen d s)
      unfold writeChunk at hbulk ⊢
      generalize Machine.writeCycle d _ (loadClen d s) = m at hcycle hbulk ⊢
      cases m with
      | halt t => exact hcycle
      | go ready t =>
        cases ready with
        | false => exact fun hc => absurd hc (by decide)
        | true =>
          have hatLoad : BulkAt d (loadClen d s) := ⟨hat.dev, hat.range, hat.bufv, hat.cur, hat.rest⟩
          have hrem : t.clen.toNat ≤ t.rem.toNat := by rw [hbulk.clen, hbulk.rem, hclen]; exact hle
          exact ih ((hcycle rfl).of_same rfl (advanceChunk_device ..) rfl rfl) ((hatLoad.of_same hbulk).advance hrem)

/-! ### The operations -/

theorem AtWork.opReadByte (h : AtWork d s) : EndsReady d (opReadByte d s) := by
  unfold Machine.opReadByte
  split
  · rename_i ha
    exact h.readByte ha fun _ _ ht _ => ht.setRdata _ _
  · exact h.setRdata _ _

theorem AtWork.opReadArray (h : AtWork d s) : EndsReady d (opReadArray d s) := by
  unfold Machine.opReadArray
  split
  · rename_i hv
    split
    · rw [frameReadInto_quiet _ _ h.quiet (validRange_iff.1 hv).1]
      exact ((h.framed_close _).setBuf _).finish .ok
    · exact h.finish _
  · exact h.finish _

theorem AtWork.opWriteArray (h : AtWork d s) (hd : s.latch.dev = d) : EndsReady d (opWriteArray d s) := by
  unfold Machine.opWriteArray
  split
  · rename_i hv
    split
    · rename_i hb
      have hstart : AtWork d { s with cur := s.latch.addr, rem := s.latch.len, idx := 0 } :=
        h.of_same rfl (by cases d <;> rfl) rfl rfl
      exact (hstart.chunkLoop (bulkAt_start hd hv hb) s.latch.len.toNat).ends
    · exact h.finish _
  · exact h.finish _

theorem AtWork.eeModifyBit (h : AtWork .ee s) (f : Byte → Byte → Byte) : EndsReady .ee (eeModifyBit f s) := by
  unfold Machine.eeModifyBit
  split
  · rename_i ha
    split
    · rw [Flow.finally_bind]
      exact h.readByte ha fun b t ht hl => (ht.setTmp _).writeByte (by rwa [hl]) _
    · exact h.finish _
  · exact h.finish _

theorem AtWork.clearOnlyWrite (h : AtWork .nor s) (ha : validAddr .nor s.latch.addr = true) (v : Byte) :
    EndsReady .nor (clearOnlyWrite v s) := by
  refine h.readByte ha fun b t ht hl => ?_
  dsimp only
  split
  · exact (ht.setTmp _).writeByte (by rwa [hl]) v
  · exact (ht.setTmp _).finish _

end

/-- Every host operation. -/
theorem operation_endsReady {i : Instr} {o : Operation} (hi : operationOf i = some o) {s : State} (h : AtWork o.dev s)
    (hd : s.latch.dev = o.dev) : EndsReady o.dev (o.body s) := by
  cases i <;> cases hi <;> dsimp only at h hd ⊢
  case eeReadByte | norReadByte => exact h.opReadByte
  case eeReadArray | norReadArray => exact h.opReadArray
  case eeWriteArray | norWriteArray => exact h.opWriteArray hd
  case eeSetBit | eeClearBit => exact h.eeModifyBit _
  case norSetBit => exact h.finish _
  case eeWriteByte =>
    split
    · exact h.writeByte ‹_› _
    · exact h.finish _
  case norWriteByte =>
    split
    · exact h.clearOnlyWrite ‹_› _
    · exact h.finish _
  case norClearBit =>
    split
    · rename_i ha
      split
      · exact h.readByte ha fun b t ht hl => ht.clearOnlyWrite (by rwa [hl]) _
      · exact h.finish _
    · exact h.finish _
  case norEraseSector =>
    split
    · exact (h.writeCycle (body_eraseSector ‹_›)).ends
    · exact h.finish _

/-- An operation acts on the device of its instruction (R74). -/
theorem operationOf_dev {i : Instr} {o : Operation} (hi : operationOf i = some o) : o.dev = deviceOf i := by
  cases i <;> cases hi <;> rfl

/-- Whether a device is ready is nothing of the host's side. -/
theorem Alike.quiet {s t : State} (h : Alike s t) {d : Dev} (hq : Quiet d s) : Quiet d t := by
  rwa [Quiet, h.fuse, h.device d]

/-- Settles O50: the moves of the host inside the operation taken away, each of the 13 bodies leaves its device ready. -/
theorem operationsLeaveTheDeviceReady : Obligations.OperationsLeaveTheDeviceReady := by
  intro r s t row hrow hb hq ht htb hto
  obtain ⟨o, ho⟩ := operationOf_requestTable hrow r
  rw [← operationOf_dev ho] at hq ⊢
  have hs : Alike s { s with inbox := [] } := (alike_withoutMoves s).symm
  obtain ⟨u, hu, htu⟩ := (hs.exec (row.2 r)).next ht
  rw [exec_operation ho, request_accepted (s := { s with inbox := [] }) hb rfl, Host.Outcome.next.injEq] at hu
  have hend := operation_endsReady ho (atWork_accept (hs.quiet hq) rfl o.op o.req) rfl
  rw [hu] at hend
  have hout : u.outcome = t.outcome := by rw [htu]
  exact htu.symm.quiet (hend (htu.busy.trans htb) (by rwa [hout]))

end Sys2Proof.Machine
end

section
/-! A reset that strikes inside an operation (R231): the frames that are over before it, and what is left of the one it cuts. -/

namespace Sys2Proof.Machine

/-! ### A reset that is further off than a frame is long -/

/-- `s` with the transport operations left before a reset replaced. -/
def State.setFuse (s : State) (f : Option Nat) : State := { s with fuse := f }

/-- The same of the state a procedure leaves. -/
def Flow.setFuse {α : Type} (m : Flow α) (f : Option Nat) : Flow α :=
  match m with
  | .go a s => .go a (s.setFuse f)
  | .halt s => .halt (s.setFuse f)

section
variable (s : State) (f : Option Nat) (d : Dev)

@[simp] theorem setFuse_fuse : (s.setFuse f).fuse = f := rfl
@[simp] theorem setFuse_latch : (s.setFuse f).latch = s.latch := rfl
@[simp] theorem setFuse_buf : (s.setFuse f).buf = s.buf := rfl
@[simp] theorem setFuse_params : (s.setFuse f).params = s.params := rfl
@[simp] theorem setFuse_device : (s.setFuse f).device d = s.device d := by cases d <;> rfl
@[simp] theorem setFuse_drawAt (j : Nat) : (s.setFuse f).drawAt j = s.drawAt j := rfl

theorem sendAll_setFuse (os : List Byte) : sendAll d os (s.setFuse f) = (sendAll d os s).setFuse f := by
  rw [sendAll_eq, sendAll_eq]
  cases d <;> rfl

theorem receiveAll_setFuse (os : List Byte) :
    receiveAll d os (s.setFuse f) = ((receiveAll d os s).1, (receiveAll d os s).2.setFuse f) := by
  induction os generalizing s with
  | nil => rfl
  | cons o os ih =>
    have hr : receive d o (s.setFuse f) = ((receive d o s).1, (receive d o s).2.setFuse f) := by cases d <;> rfl
    rw [receiveAll, hr, ih]
    rfl

theorem endFrame_setFuse : endFrame d (s.setFuse f) = (endFrame d s).setFuse f := by
  have hset : ∀ (t : State) (v : Device), (t.setFuse f).setDevice d v = (t.setDevice d v).setFuse f := by
    intros
    cases d <;> rfl
  unfold endFrame
  simp only [setFuse_device, setFuse_drawAt]
  split
  · exact hset s _
  · split
    · exact hset s _
    · exact hset s _
    · exact hset s _
    · split
      · exact hset (s.skipDraws 1) _
      · exact hset s _

/-- A whole frame does not depend on when the next reset strikes. -/
theorem wholeFrame_setFuse (sends recvs : List Byte) :
    wholeFrame d sends recvs (s.setFuse f) = ((wholeFrame d sends recvs s).1, (wholeFrame d sends recvs s).2.setFuse f) := by
  have hsel : select d (s.setFuse f) = (select d s).setFuse f := by cases d <;> rfl
  have hdes : ∀ t : State, deselect d (t.setFuse f) = (deselect d t).setFuse f := by
    intro t
    rw [deselect, endFrame_setFuse]
    cases d <;> rfl
  simp only [wholeFrame, hsel, sendAll_setFuse, receiveAll_setFuse, hdes]

end

section
variable {d : Dev} {s : State} {k : Nat}

/-- A frame that is over before the reset is performed as if there were none (R231). -/
theorem performFrame_before (sends recvs : List Byte) (hf : s.fuse = some (frameOps sends recvs + k)) :
    performFrame d sends recvs s = (performFrame d sends recvs (s.setFuse none)).setFuse (some k) := by
  rw [performFrame_none d _ _ (s.setFuse none) rfl, wholeFrame_setFuse, performFrame, hf]
  have hk : frameOps sends recvs + k - frameOps sends recvs = k := Nat.add_sub_cancel_left ..
  simp only [if_neg (Nat.not_lt.2 (Nat.le_add_right _ k)), hk]
  exact congrArg (fun w : List Byte × State => Flow.go w.1 w.2) (wholeFrame_setFuse s (some k) d sends recvs)

/-- A frame that the reset reaches is cut (R231). -/
theorem performFrame_cut {sends recvs : List Byte} (hf : s.fuse = some k) (hk : k < frameOps sends recvs) :
    performFrame d sends recvs s = .halt (cutFrame d sends recvs k s) := by
  simp only [performFrame, hf, if_pos hk]

/-- A frame whose answers are all discarded: what a write-enable, a program and an erase frame are (R122, R125, R126). -/
def sendFrame (d : Dev) (bytes : List Byte) (s : State) : Flow Unit :=
  (performFrame d bytes [] s).bind fun _ t => .go () t

theorem frameWren_eq_sendFrame (d : Dev) : frameWren d = sendFrame d [Config.opcWren] := rfl

theorem frameProgram_eq_sendFrame (d : Dev) (a : Word) (data : List Byte) :
    frameProgram d a data = sendFrame d (headerBytes d Config.opcProgram a ++ data) := rfl

theorem frameErase_eq_sendFrame (a : Word) : frameErase a = sendFrame .nor (headerBytes .nor Config.opcSe a) := rfl

theorem sendFrame_before (bytes : List Byte) (hf : s.fuse = some (bytes.length + 2 + k)) :
    sendFrame d bytes s = (sendFrame d bytes (s.setFuse none)).setFuse (some k) := by
  rw [sendFrame, performFrame_before (k := k) bytes [] hf, sendFrame]
  cases performFrame d bytes [] (s.setFuse none) <;> rfl

theorem sendFrame_cut {bytes : List Byte} (hf : s.fuse = some k) (hk : k < bytes.length + 2) :
    sendFrame d bytes s = .halt (cutFrame d bytes [] k s) := by
  have hk : k < frameOps bytes [] := hk
  rw [sendFrame, performFrame_cut hf hk, Flow.bind_halt]

/-- A device that follows its protocol and is not busy, a reset on its way or not. -/
def Device.Ready (v : Device) : Prop := v.lost = none ∧ v.dbusy = false

theorem Device.Ready.quiet (h : (s.device d).Ready) : Quiet d (s.setFuse none) := by
  rw [Quiet, setFuse_device]
  exact ⟨rfl, h⟩

/-! ### What an operation leaves until its program or erase frame -/

/-- The state in which the operation of an accepted request begins: latched, and the host has looked (R132, R247). -/
def begun (op : BitVec 4) (d : Dev) (r : Req) (s : State) : State := hostPoint (accept op d r s)

@[simp] theorem begun_latch (op : BitVec 4) (e : Dev) (r : Req) (s : State) : (begun op e r s).latch = latchOf op e r :=
  hostPoint_latch _
@[simp] theorem begun_device (op : BitVec 4) (e : Dev) (r : Req) (s : State) (d : Dev) :
    (begun op e r s).device d = s.device d := by simp [begun]
@[simp] theorem begun_drawAt (op : BitVec 4) (e : Dev) (r : Req) (s : State) (j : Nat) :
    (begun op e r s).drawAt j = s.drawAt j := by simp [begun, State.drawAt]

/-- From `s` to `t` nothing has changed of the other device or of `Buf`. -/
structure Untouched (d : Dev) (s t : State) : Prop where
  buf : t.buf = s.buf
  other : ∀ d', d' ≠ d → t.device d' = s.device d'

/-- Nor of the storage of device `d`, and no draw was made. -/
structure Reached (d : Dev) (s t : State) : Prop extends Untouched d s t where
  mem : (t.device d).mem = (s.device d).mem
  draws : ∀ j, t.drawAt j = s.drawAt j

theorem Untouched.trans {t u : State} (h : Untouched d s t) (g : Untouched d t u) : Untouched d s u :=
  ⟨g.buf.trans h.buf, fun d' hd => (g.other d' hd).trans (h.other d' hd)⟩

theorem Reached.trans {t u : State} (h : Reached d s t) (g : Reached d t u) : Reached d s u :=
  ⟨h.toUntouched.trans g.toUntouched, g.mem.trans h.mem, fun j => (g.draws j).trans (h.draws j)⟩

theorem reached_begun (op : BitVec 4) (r : Req) : Reached d s (begun op d r s) :=
  ⟨⟨by simp [begun], fun _ _ => by simp [begun]⟩, by simp, fun _ => begun_drawAt ..⟩

theorem reached_enterPhase (p : Phase) : Reached d s (enterPhase p s) :=
  ⟨⟨by simp, fun _ _ => by simp⟩, by simp, fun _ => by simp⟩

theorem reached_setTmp (v : Byte) : Reached d s { s with tmp := v } := by
  refine ⟨⟨rfl, fun d' _ => ?_⟩, ?_, fun _ => rfl⟩
  · cases d' <;> rfl
  · cases d <;> rfl

theorem untouched_setFuse (f : Option Nat) : Untouched d s (s.setFuse f) := ⟨rfl, fun d' _ => setFuse_device s f d'⟩

theorem untouched_setDevice (s : State) (d : Dev) (v : Device) : Untouched d s (s.setDevice d v) :=
  ⟨setDevice_buf .., fun d' hd => setDevice_device_ne s d d' v hd⟩

/-- A frame, whatever it makes of its device. -/
theorem untouched_framed (n : Nat) (v : Device) (es : List Event) (f : Option Nat) :
    Untouched d s (((s.skipDraws n).framed d v es).setFuse f) :=
  ⟨by simp, fun d' hd => by simp [framed_device_ne _ _ _ _ hd]⟩

/-- A frame that leaves the storage of its device. -/
theorem reached_framed {v : Device} (hv : v.mem = (s.device d).mem) (es : List Event) (f : Option Nat) :
    Reached d s ((s.framed d v es).setFuse f) :=
  ⟨untouched_framed 0 v es f, by simp [hv], fun _ => by simp⟩

/-- An operation goes on with device `d` ready, a reset `k` transport operations away. -/
structure OnFuse (d : Dev) (k : Nat) (s : State) : Prop where
  fuse : s.fuse = some k
  ready : (s.device d).Ready

theorem OnFuse.of_begun (h : OnFuse d k s) (op : BitVec 4) (r : Req) : OnFuse d k (begun op d r s) :=
  ⟨by simp [begun, h.fuse], by simpa using h.ready⟩

/-- The write-enable frame of a write cycle is over before the reset, and its body comes next (R128). -/
theorem OnFuse.writeCycle (h : OnFuse d (3 + k) s) (body : State → Flow Unit) :
    ∃ t, writeCycle d body s = ((body t).bind fun _ u => waitReady d (enterPhase .commandIssued u)) ∧ OnFuse d k t ∧
      t.device d = { (s.device d).close with wel := true } ∧ Reached d s t := by
  set v : Device := { (s.device d).close with wel := true } with hv
  have hwren : frameWren d s = .go () ((s.framed d v (wrenEvents d)).setFuse (some k)) := by
    have hq := frameWren_quiet d _ h.ready.quiet
    rw [frameWren_eq_sendFrame, setFuse_device, ← hv] at hq
    rw [frameWren_eq_sendFrame, sendFrame_before (k := k) _ h.fuse, hq]
    cases d <;> rfl
  refine ⟨enterPhase .writeEnabled ((s.framed d v (wrenEvents d)).setFuse (some k)), ?_, ⟨by simp, ?_⟩, by simp, ?_⟩
  · rw [Machine.writeCycle, hwren, Flow.bind_go]
  · rw [enterPhase_device, setFuse_device, framed_device]
    exact h.ready
  · exact (reached_framed (v := v) rfl _ _).trans (reached_enterPhase _)

/-- A read frame of one byte that is over before the reset (R124). -/
theorem OnFuse.frameRead (h : OnFuse d (headerLen d + 3 + k) s) {a : Word} (ha : validAddr d a = true) :
    ∃ t, frameRead d a 1 s = .go [Memory.read (s.device d).mem a.toNat] t ∧ OnFuse d k t ∧ t.latch = s.latch ∧
      Reached d s t := by
  have hops : frameOps (headerBytes d Config.opcRead a) (List.replicate 1 s.params.dummyOut) = headerLen d + 3 := by
    cases d <;> rfl
  have hq := frameRead_quiet a h.ready.quiet ha
  rw [Machine.frameRead, frameReadOuts, setFuse_params, setFuse_device] at hq
  refine ⟨(s.framed d (s.device d).close
    (readEvents d a [s.params.dummyOut] [Memory.read (s.device d).mem a.toNat])).setFuse (some k), ?_, ⟨rfl, ?_⟩, by simp,
    reached_framed (close_mem _) _ _⟩
  · rw [Machine.frameRead, frameReadOuts, performFrame_before (k := k) _ _ (by rw [hops]; exact h.fuse), hq]
    cases d <;> rfl
  · rw [setFuse_device, framed_device]
    exact h.ready

/-! ### A frame that is cut -/

@[simp] theorem applyReset_device (s : State) (d : Dev) : (applyReset s).device d = s.device d := by cases d <;> rfl

/-- What was heard of a frame leaves a ready device as it was, but for its address counter and the bytes heard. -/
theorem heard_close (h : (s.device d).Ready) (sends recvs : List Byte) :
    ((receiveAll d recvs (sendAll d sends (select d s))).2.device d).close = (s.device d).close := by
  obtain ⟨hl, hb⟩ := h
  obtain ⟨n, hn⟩ := feed_quiet d (sends ++ recvs) (s.device d).close hl hb
  rw [heard_device, hn]
  rfl

theorem device_traced (s : State) (es : List Event) (d : Dev) : State.device { s with trace := es } d = s.device d := by
  cases d <;> rfl

/-- The exchanges made so far of a frame have changed nothing but the device. -/
theorem untouched_heard (d : Dev) (s : State) (sends recvs : List Byte) :
    Untouched d s (receiveAll d recvs (sendAll d sends (select d s))).2 := by
  obtain ⟨bs, v, n, -, he⟩ := receiveAll_eq d recvs (sendAll d sends (select d s))
  rw [he]
  refine ⟨by simp [sendAll_eq, select], fun d' hd => ?_⟩
  have hne (t : State) (w : Device) : (t.setDevice d w).device d' = t.device d' := setDevice_device_ne t d d' w hd
  simp only [sendAll_eq, select, device_traced, hne, skipDraws_device, log_device, setCs_device]

/-- Nor has a draw been made while bytes are sent (R69). -/
theorem reached_sent (h : (s.device d).Ready) (sends : List Byte) : Reached d s (sendAll d sends (select d s)) :=
  ⟨untouched_heard d s sends [], (congrArg Device.mem (heard_close h sends []) :),
    fun _ => drawAt_congr (by simp [sendAll_eq, select]) (by simp [sendAll_eq, select]) _⟩

/-- The scrambled bytes are draws, in order, and every other byte is as it was. -/
theorem scramble_reads (d : Dev) (lo n : Nat) (s : State) :
    ∃ m, scramble d lo n s = (s.skipDraws n).setDevice d { s.device d with mem := m } ∧
      ∀ x, Memory.read m x =
        if lo ≤ x ∧ x < lo + n then byteOfDraw (s.drawAt (x - lo)) else Memory.read (s.device d).mem x := by
  induction n generalizing lo s with
  | zero => exact ⟨(s.device d).mem, (setDevice_self _ d).symm, fun x => by rw [if_neg (by omega)]⟩
  | succ n ih =>
    obtain ⟨m, he, hm⟩ := ih (lo + 1) ((s.skipDraws 1).setDevice d
      { s.device d with mem := Memory.write (s.device d).mem lo (byteOfDraw (s.drawAt 0)) })
    have hdraw : ∀ (v : Device) j, ((s.skipDraws 1).setDevice d v).drawAt j = s.drawAt (1 + j) := by
      intro v j
      rw [← drawAt_skipDraws]
      cases d <;> rfl
    refine ⟨m, ?_, fun x => ?_⟩
    · rw [scramble, he]
      cases d <;> simp [State.setDevice, State.device, State.skipDraws, Nat.add_comm, Nat.add_left_comm]
    · rw [hm, hdraw, setDevice_device, Memory.read_write]
      rcases Nat.lt_trichotomy x lo with hx | rfl | hx
      · rw [if_neg (by omega), if_neg (by omega), if_neg (by omega)]
      · rw [if_neg (by omega), if_pos rfl, if_pos (by omega), Nat.sub_self]
      · have hsub : 1 + (x - (lo + 1)) = x - lo := by omega
        rw [if_neg (by omega : x ≠ lo), hsub]
        exact if_congr (by omega) rfl rfl

/-- The bytes are those of a program or erase frame that may change the `n` bytes of storage from `lo` on: a reset that cuts it
leaves draws there, and its device busy (R231). -/
def Scrambles (d : Dev) (bytes : List Byte) (lo n : Nat) : Prop :=
  ∀ s : State, (s.device d).lost = none →
    damage d bytes s = startBusyUnknown d (scramble d lo n (s.setDevice d (s.device d).close))

theorem scrambles_program {a : Word} (ha : a.toNat < d.size) (v : Byte) :
    Scrambles d (headerBytes d Config.opcProgram a ++ [v]) (a.toNat - a.toNat % d.page) d.page := by
  intro s hl
  simp [damage, hl, parse_program d a v [] ha, Nat.not_le.2 ha]

theorem scrambles_erase {a : Word} (ha : a.toNat < Dev.nor.size) :
    Scrambles .nor (headerBytes .nor Config.opcSe a) (sectorBase a.toNat) Config.norSector := by
  intro s hl
  simp only [damage, hl, parse_erase a ha, Option.isSome_none, Bool.false_eq_true, if_false]

/-- What the reset leaves when it has cut a program or erase frame (R231). -/
theorem damage_cutWrite {bytes : List Byte} {lo n : Nat} (hs : Scrambles d bytes lo n) (hl : (s.device d).lost = none) :
    CutWrite d lo n s (.next (applyReset (damage d bytes s))) := by
  have hdraw : ∀ v j, (s.setDevice d v).drawAt j = s.drawAt j := fun v j => drawAt_congr (by simp) (by simp) j
  obtain ⟨m, hm, hread⟩ := scramble_reads d lo n (s.setDevice d (s.device d).close)
  simp only [setDevice_device, hdraw, close_mem] at hm hread
  have hdev : (damage d bytes s).device d =
      { (s.device d).close with mem := m, dbusy := true, busyReads := busyOfDraw (s.drawAt n) } := by
    have hn : (((s.setDevice d (s.device d).close).skipDraws n).setDevice d { (s.device d).close with mem := m }).drawAt 0 =
        s.drawAt n := by
      rw [← Nat.add_zero n, ← drawAt_skipDraws]
      exact drawAt_congr (by simp) (by simp) 0
    rw [hs s hl, hm, startBusyUnknown, setDevice_device, setDevice_device, hn]
  have hother : ∀ d', d' ≠ d → (damage d bytes s).device d' = s.device d' := by
    intro d' hd
    simp only [hs s hl, hm, startBusyUnknown, setDevice_device_ne _ d d' _ hd, skipDraws_device]
  have hbuf : (damage d bytes s).buf = s.buf := by
    simp [hs s hl, hm, startBusyUnknown]
  refine ⟨_, rfl, rfl, rfl, rfl, rfl, rfl, rfl, hbuf, fun d' hd => ?_, ?_⟩
  · rw [applyReset_device, hother d' hd]
  · rw [applyReset_device, hdev]
    exact ⟨hl, rfl, rfl, hread⟩

/-- What is true of the write as it stands before its frame is true of it as it stood at the beginning. -/
theorem Reached.cutWrite {t : State} {lo n : Nat} {o : Host.Outcome State Fault Refusal} (h : Reached d s t)
    (hc : CutWrite d lo n t o) : CutWrite d lo n s o := by
  obtain ⟨u, ho, hbusy, hphase, hout, hcsEe, hcsNor, hfuse, hbuf, hother, hdev⟩ := hc
  refine ⟨u, ho, hbusy, hphase, hout, hcsEe, hcsNor, hfuse, hbuf.trans h.buf, fun d' hd => ?_, ?_⟩
  · exact (hother d' hd).trans (h.other d' hd)
  · simpa only [h.draws, h.mem] using hdev

/-- A program or erase frame of a ready device, cut anywhere between its assertion and its release (R231). -/
theorem cutFrame_write {bytes : List Byte} {lo n : Nat} (hs : Scrambles d bytes lo n) (h : (s.device d).Ready) (j : Nat) :
    CutWrite d lo n s (.next (cutFrame d bytes [] (j + 1) s)) := by
  have hlost := congrArg Device.lost (heard_close h (bytes.take j) [])
  have hcut : cutFrame d bytes [] (j + 1) s = applyReset (damage d bytes (sendAll d (bytes.take j) (select d s))) := by
    rw [cutFrame, List.append_nil, List.take_nil, receiveAll]
  rw [hcut]
  exact (reached_sent h _).cutWrite (damage_cutWrite hs (hlost.trans h.1))

end

end Sys2Proof.Machine
end

section
/-! A reset that strikes inside a `writeByte` or an `eraseSector`, and inside the read frame of a `readArray` (R231). -/

namespace Sys2Proof.Machine

section
variable {i : Instr} {op : BitVec 4} {d : Dev} {k : Nat} {r : Req} {s t : State} {body : State → State}

/-- A host operation that finds the block free runs its body from the latched state, once the host has looked (R132, R247). -/
theorem exec_begun (hi : operationOf i = some ⟨op, d, r, body⟩) (hb : s.busy = false) :
    exec i s = .next (body (begun op d r s)) := by
  rw [exec_operation hi]
  exact request_free hb

/-! ### A write cycle and the reset (R128) -/

/-- The reset strikes inside the program or erase frame. -/
theorem OnFuse.cycleCut (h : OnFuse d (3 + (k + 1)) s) {bytes : List Byte} {lo n : Nat} (hs : Scrambles d bytes lo n)
    (hk : k ≤ bytes.length) :
    CutWrite d lo n s (.next ((Machine.writeCycle d (sendFrame d bytes) s).finally finishReady)) := by
  obtain ⟨t, he, ht, -, hr⟩ := h.writeCycle (sendFrame d bytes)
  rw [he, sendFrame_cut ht.fuse (by omega)]
  exact hr.cutWrite (cutFrame_write hs ht.ready k)

/-- What is left of an operation that a reset has struck: the block idle, device `d` as `v`, and nothing else changed of the
devices or of `Buf`. -/
structure Struck (d : Dev) (v : Device) (s t : State) : Prop extends Untouched d s t where
  device : t.device d = v
  busy : t.busy = false
  phase : t.phase = .idle
  outcome : t.outcome = .ok
  csEe : t.csEe = false
  csNor : t.csNor = false

theorem Untouched.struck (h : Untouched d s t) : Struck d (t.device d) s (applyReset t) :=
  ⟨⟨h.buf, fun d' hd => (applyReset_device t d').trans (h.other d' hd)⟩, applyReset_device t d, rfl, rfl, rfl, rfl, rfl⟩

theorem Struck.after {v : Device} {u : State} (h : Untouched d s t) (g : Struck d v t u) : Struck d v s u :=
  { g with toUntouched := h.trans g.toUntouched }

/-- The reset strikes before the program or erase frame is asserted. -/
theorem OnFuse.cycleStruckBefore (h : OnFuse d 3 s) (bytes : List Byte) :
    Struck d { (s.device d).close with wel := true } s
      ((Machine.writeCycle d (sendFrame d bytes) s).finally finishReady) := by
  obtain ⟨t, he, ht, hd, hr⟩ := OnFuse.writeCycle (k := 0) h (sendFrame d bytes)
  rw [he, sendFrame_cut ht.fuse (Nat.succ_pos _), ← hd]
  exact hr.struck

/-- The reset strikes before the first status frame of a wait. -/
theorem waitReady_struck (hf : s.fuse = some 0) : waitReady d s = .halt (applyReset (enterPhase .polling s)) := by
  have hf' : ({ enterPhase .polling s with pollcnt := 0 } : State).fuse = some 0 := (enterPhase_fuse s .polling).trans hf
  rw [waitReady, frameRdsr, performFrame_cut hf' (Nat.succ_pos _)]
  rfl

/-- The program frame of one byte is over, and the reset strikes before the status frame: the device carries the program out. -/
theorem OnFuse.cycleStruckAfter {a : Word} (h : OnFuse d (3 + (headerLen d + 3)) s) (ha : validAddr d a = true) (v : Byte) :
    Struck d ((s.device d).writing (programMem d (s.device d).mem a.toNat [v]) (busyOfDraw (s.drawAt 0))) s
      ((writeChunk d a [v] s).finally finishReady) := by
  obtain ⟨t, he, ht, hd, hr⟩ := h.writeCycle (frameProgram d a [v])
  have hlen : (headerBytes d Config.opcProgram a ++ [v]).length + 2 + 0 = headerLen d + 3 := by cases d <;> rfl
  have hprog := body_programByte v ha _ ht.ready.quiet (by rw [setFuse_device, hd]) rfl
  have hmem : ({ (s.device d).close with wel := true } : Device).mem = (s.device d).mem := rfl
  rw [frameProgram_eq_sendFrame, setFuse_device, setFuse_drawAt, hd, hmem, hr.draws] at hprog
  rw [writeChunk, he, frameProgram_eq_sendFrame, sendFrame_before (k := 0) _ (by rw [hlen]; exact ht.fuse), hprog]
  set u := ((t.setFuse none).skipDraws 1).framed d _ _ with hu
  have hsu : Untouched d s (u.setFuse (some 0)) :=
    hr.toUntouched.trans ((untouched_setFuse none).trans (untouched_framed 1 _ _ _))
  have hstruck := (hsu.trans ((reached_enterPhase .commandIssued).trans (reached_enterPhase .polling)).toUntouched).struck
  simp only [enterPhase_device, setFuse_device, hu, framed_device] at hstruck
  simp only [Flow.setFuse, Flow.bind_go, waitReady_struck ((enterPhase_fuse _ _).trans (setFuse_fuse u _)), Flow.finally_halt]
  exact hstruck

/-- A read frame that is cut leaves storage as it is (R68 (e), R231). -/
theorem damage_read {a : Nat} {bytes outs : List Byte} (hp : parseFrame d bytes = .ok (.read a outs))
    (hl : (s.device d).lost = none) :
    damage d bytes s = s.setDevice d { (s.device d).close with lost := some .cutShort } := by
  simp only [damage, hl, hp, Option.isSome_none, Bool.false_eq_true, if_false, setDevice_setDevice, setDevice_device]

/-- What the reset that cuts a read frame leaves (R231). -/
theorem cutFrame_read (h : (s.device d).Ready) {a : Word} (ha : a.toNat < d.size) (outs : List Byte) (k : Nat) :
    ∃ v, v.mem = (s.device d).mem ∧ Struck d v s (cutFrame d (headerBytes d Config.opcRead a) outs k s) := by
  cases k with
  | zero => exact ⟨_, rfl, Untouched.struck ⟨rfl, fun _ _ => rfl⟩⟩
  | succ j =>
    set sends := headerBytes d Config.opcRead a with hsends
    have hclose := heard_close h (sends.take j) (outs.take (j - sends.length))
    have hheard := untouched_heard d s (sends.take j) (outs.take (j - sends.length))
    rw [cutFrame]
    set u := (receiveAll d (outs.take (j - sends.length)) (sendAll d (sends.take j) (select d s))).2
    rw [damage_read (parse_read d a outs ha) ((congrArg Device.lost hclose).trans h.1), hclose]
    refine ⟨_, ?_, (hheard.trans (untouched_setDevice u d _)).struck⟩
    rw [setDevice_device]
    rfl

/-- The bytes that have come back when the reset strikes, each a byte of storage (R60, R162). -/
theorem arrived_read (h : OnFuse d k s) {a : Word} (ha : a.toNat < d.size) {outs : List Byte}
    (hk : k - (headerLen d + 1) ≤ outs.length) :
    arrived d (headerBytes d Config.opcRead a) outs s = Memory.readMany (s.device d).mem a.toNat (k - (headerLen d + 1)) := by
  have hlen : (headerBytes d Config.opcRead a).length = headerLen d := by cases d <;> rfl
  have hsel : (select d s).device d = (s.device d).close := by cases d <;> rfl
  have hdev : (sendAll d (headerBytes d Config.opcRead a) (select d s)).device d =
      { (s.device d).close with rx := headerBytes d Config.opcRead a, counter := a.toNat } := by
    obtain ⟨hl, hb⟩ := h.ready
    rw [sendAll_eq, device_traced, setDevice_device, hsel, feed_readHeader d a _ hl hb ha]
  have hsub : k - 1 - headerLen d = k - (headerLen d + 1) := by omega
  obtain ⟨tl, htl⟩ : ∃ tl, headerBytes d Config.opcRead a = Config.opcRead :: tl := by cases d <;> exact ⟨_, rfl⟩
  have hread := receiveAll_read d (outs.take (k - (headerLen d + 1))) _ _ tl hdev h.ready.1 htl hlen.ge
  rw [List.length_take, Nat.min_eq_left hk] at hread
  rw [arrived, h.fuse, hlen]
  dsimp only
  rw [hsub]
  exact congrArg Prod.fst hread

/-- The read frame of a `readArray`, cut by the reset: the bytes that had come back are in `Buf` (R162). -/
theorem OnFuse.readCut (h : OnFuse d k s) {a : Word} {n : Nat} (ha : a.toNat < d.size) (hk : k < n + (headerLen d + 2)) :
    ∃ v t, v.mem = (s.device d).mem ∧ Struck d v s t ∧
      frameReadInto d a n s = .halt { t with
        buf := Memory.writeMany s.buf 0 (Memory.readMany (s.device d).mem a.toNat (k - (headerLen d + 1))) } := by
  have hops : frameOps (headerBytes d Config.opcRead a) (List.replicate n s.params.dummyOut) = n + (headerLen d + 2) := by
    rw [frameOps, List.length_replicate, Nat.add_comm _ n]
    cases d <;> rfl
  obtain ⟨v, hv, hstruck⟩ := cutFrame_read h.ready ha (List.replicate n s.params.dummyOut) k
  refine ⟨v, _, hv, hstruck, ?_⟩
  rw [frameReadInto, Machine.frameRead, frameReadOuts, performFrame_cut h.fuse (by rw [hops]; exact hk),
    arrived_read h ha (by rw [List.length_replicate]; omega)]
  simp only [hstruck.buf]

/-! ### The operations (R161, R162, R181, R182, R186) -/

/-- A `readArray` of either device, struck inside its frame. -/
theorem OnFuse.exec_readArray (h : OnFuse d k s) (hi : operationOf i = some ⟨3, d, r, opReadArray d⟩) (hb : s.busy = false)
    (hbuf : r.bufv = true) (ha : r.addr.toNat < d.size) (hn : r.addr.toNat + r.len.toNat ≤ d.size)
    (hk : k < r.len.toNat + (headerLen d + 2)) :
    ∃ v t, v.mem = (s.device d).mem ∧ Struck d v s t ∧
      exec i s = .next { t with
        buf := Memory.writeMany s.buf 0 (Memory.readMany (s.device d).mem r.addr.toNat (k - (headerLen d + 1))) } := by
  have hbegun : Reached d s (begun 3 d r s) := reached_begun 3 r
  obtain ⟨v, t, hv, hstruck, hread⟩ := (h.of_begun 3 r).readCut ha hk
  rw [hbegun.mem] at hv hread
  rw [hbegun.buf] at hread
  refine ⟨v, t, hv, .after hbegun.toUntouched hstruck, ?_⟩
  have hvalid : validRange d (latchOf 3 d r).addr (latchOf 3 d r).len = true := validRange_iff.2 ⟨ha, hn⟩
  have hbufv : (latchOf 3 d r).bufv = true := hbuf
  rw [exec_begun hi hb, opReadArray, begun_latch, if_pos hvalid, if_pos hbufv]
  exact congrArg (fun m : Flow Unit => Host.Outcome.next (m.finally fun _ t => finish .ok t)) hread

/-- Settles O20: the frame is cut, and the bytes that had arrived are written over the start of `Buf`. -/
theorem resetInsideAReadArray : Obligations.ResetInsideAReadArray := by
  intro r s k hb hf hbuf
  refine ⟨fun ha hn hl hd hk => ?_, fun ha hn hl hd hk => ?_⟩
  · have hfuse : OnFuse .ee k s := ⟨hf, hl, hd⟩
    obtain ⟨v, t, hv, h, he⟩ := hfuse.exec_readArray (i := .eeReadArray r) rfl hb hbuf ha hn hk
    exact ⟨_, he, h.busy, h.phase, h.outcome, h.csEe, (congrArg Device.mem h.device).trans hv, h.other .nor (by decide),
      fun x => read_writeMany_readMany s.buf s.ee.mem r.addr.toNat (k - 4) x⟩
  · have hfuse : OnFuse .nor k s := ⟨hf, hl, hd⟩
    obtain ⟨v, t, hv, h, he⟩ := hfuse.exec_readArray (i := .norReadArray r) rfl hb hbuf ha hn hk
    exact ⟨_, he, h.busy, h.phase, h.outcome, h.csNor, (congrArg Device.mem h.device).trans hv, h.other .ee (by decide),
      fun x => read_writeMany_readMany s.buf s.nor.mem r.addr.toNat (k - 5) x⟩

/-- An operation on a valid address that begins. -/
theorem exec_begun_valid
    (hi : operationOf i = some ⟨op, d, r, fun s => if validAddr d s.latch.addr then body s else finish .outOfRange s⟩)
    (hb : s.busy = false) (ha : validAddr d r.addr = true) : exec i s = .next (body (begun op d r s)) := by
  have ha : validAddr d (begun op d r s).latch.addr = true := by rw [begun_latch]; exact ha
  rw [exec_begun hi hb]
  exact congrArg _ (if_pos ha)

theorem exec_eeWriteByte_begun (hb : s.busy = false) (ha : validAddr .ee r.addr = true) :
    exec (.eeWriteByte r) s = .next ((writeChunk .ee r.addr [r.val] (begun 2 .ee r s)).finally finishReady) := by
  refine (exec_begun_valid rfl hb ha).trans ?_
  rw [begun_latch]
  rfl

theorem exec_norWriteByte_begun (hb : s.busy = false) (ha : validAddr .nor r.addr = true) :
    exec (.norWriteByte r) s = .next (clearOnlyWrite r.val (begun 2 .nor r s)) := by
  refine (exec_begun_valid rfl hb ha).trans ?_
  rw [begun_latch]
  rfl

theorem exec_norEraseSector_begun (hb : s.busy = false) (ha : validAddr .nor r.addr = true) :
    exec (.norEraseSector r) s =
      .next ((Machine.writeCycle .nor (frameErase (BitVec.ofNat 32 (sectorBase r.addr.toNat))) (begun 7 .nor r s)).finally
        finishReady) := by
  refine (exec_begun_valid rfl hb ha).trans ?_
  rw [begun_latch]
  rfl

/-- The program frame of a `writeByte` of the EEPROM is cut (R161). -/
theorem OnFuse.exec_eeWriteByte_cut (h : OnFuse .ee (3 + (k + 1)) s) (hb : s.busy = false) (ha : r.addr.toNat < Dev.ee.size)
    (hk : k ≤ 4) : CutWrite .ee (r.addr.toNat - r.addr.toNat % Dev.ee.page) Dev.ee.page s (exec (.eeWriteByte r) s) := by
  rw [exec_eeWriteByte_begun hb (validAddr_iff.2 ha), writeChunk, frameProgram_eq_sendFrame]
  exact (reached_begun 2 r).cutWrite ((h.of_begun 2 r).cycleCut (scrambles_program ha r.val) hk)

/-- The write path after a read whose byte has every bit of the byte to write: its write cycle comes next (R182). -/
theorem clearOnlyWrite_programs {b v : Byte} (hread : frameRead .nor s.latch.addr 1 s = .go [b] t) (hl : t.latch = s.latch)
    (hc : b &&& v = v) :
    clearOnlyWrite v s = (writeChunk .nor s.latch.addr [v] { t with tmp := b }).finally finishReady := by
  rw [clearOnlyWrite, hread, Flow.finally_go, ← hl]
  exact if_pos (clearOnly_iff.2 hc)

/-- The program frame of a `writeByte` of the NOR flash, after its read, is cut (R182). -/
theorem OnFuse.exec_norWriteByte_cut (h : OnFuse .nor (headerLen .nor + 3 + (3 + (k + 1))) s) (hb : s.busy = false)
    (ha : r.addr.toNat < Dev.nor.size) (hc : Memory.read s.nor.mem r.addr.toNat &&& r.val = r.val) (hk : k ≤ 5) :
    CutWrite .nor (r.addr.toNat - r.addr.toNat % Dev.nor.page) Dev.nor.page s (exec (.norWriteByte r) s) := by
  have hv : validAddr .nor r.addr = true := validAddr_iff.2 ha
  obtain ⟨t, hread, ht, hlatch, hreached⟩ := (h.of_begun 2 r).frameRead hv
  rw [begun_device] at hread
  have htmp : OnFuse .nor (3 + (k + 1)) { t with tmp := Memory.read s.nor.mem r.addr.toNat } := ⟨ht.fuse, ht.ready⟩
  rw [exec_norWriteByte_begun hb hv, clearOnlyWrite_programs (by rw [begun_latch]; exact hread) hlatch hc, begun_latch,
    writeChunk, frameProgram_eq_sendFrame]
  exact ((reached_begun 2 r).trans (hreached.trans (reached_setTmp _))).cutWrite
    (htmp.cycleCut (scrambles_program ha r.val) hk)

/-- The erase frame of an `eraseSector` is cut (R186). -/
theorem OnFuse.exec_norEraseSector_cut (h : OnFuse .nor (3 + (k + 1)) s) (hb : s.busy = false)
    (ha : r.addr.toNat < Dev.nor.size) (hk : k ≤ 4) :
    CutWrite .nor (sectorBase r.addr.toNat) Config.norSector s (exec (.norEraseSector r) s) := by
  have hbase : (BitVec.ofNat 32 (sectorBase r.addr.toNat)).toNat = sectorBase r.addr.toNat := by
    have hle : sectorBase r.addr.toNat ≤ r.addr.toNat := Nat.sub_le ..
    rw [BitVec.toNat_ofNat, Nat.mod_eq_of_lt (by omega)]
  have hscr := scrambles_erase (a := BitVec.ofNat 32 (sectorBase r.addr.toNat))
    (by rw [hbase]; exact (Nat.sub_le ..).trans_lt ha)
  rw [hbase, sectorBase_sectorBase] at hscr
  rw [exec_norEraseSector_begun hb (validAddr_iff.2 ha), frameErase_eq_sendFrame]
  exact (reached_begun 7 r).cutWrite ((h.of_begun 7 r).cycleCut hscr hk)

/-- Settles O19: the write-enable frame, and before it the read of a NOR `writeByte`, are over when the reset strikes. -/
theorem resetInsideAWrite : Obligations.ResetInsideAWrite := by
  intro r s k hb hf
  refine ⟨fun ha hl hd => ⟨fun h4 h8 => ?_, ?_, ?_⟩, fun ha hl hd => ⟨fun h11 h16 hc => ?_, fun h4 h8 => ?_⟩⟩
  · obtain ⟨j, rfl⟩ : ∃ j, k = 3 + (j + 1) := ⟨k - 4, by omega⟩
    exact OnFuse.exec_eeWriteByte_cut ⟨hf, hl, hd⟩ hb ha (by omega)
  · rintro rfl
    have hfuse : OnFuse .ee 3 s := ⟨hf, hl, hd⟩
    have h := Struck.after (reached_begun 2 r).toUntouched
      ((hfuse.of_begun 2 r).cycleStruckBefore (headerBytes .ee Config.opcProgram r.addr ++ [r.val]))
    rw [begun_device] at h
    exact ⟨_, exec_eeWriteByte_begun hb (validAddr_iff.2 ha), h.busy, h.phase, h.outcome, h.device,
      h.other .nor (by decide), h.buf⟩
  · rintro rfl
    have hfuse : OnFuse .ee 9 s := ⟨hf, hl, hd⟩
    have hv : validAddr .ee r.addr = true := validAddr_iff.2 ha
    have h := Struck.after (reached_begun 2 r).toUntouched ((hfuse.of_begun 2 r).cycleStruckAfter hv r.val)
    rw [begun_device, begun_drawAt] at h
    exact ⟨_, exec_eeWriteByte_begun hb hv, h.busy, h.phase, h.outcome, h.device, h.other .nor (by decide), h.buf⟩
  · obtain ⟨j, rfl⟩ : ∃ j, k = headerLen .nor + 3 + (3 + (j + 1)) := ⟨k - 11, by rw [headerLen, Dev.addrBytes]; omega⟩
    rw [headerLen, Dev.addrBytes] at h16
    exact OnFuse.exec_norWriteByte_cut ⟨hf, hl, hd⟩ hb ha hc (by omega)
  · obtain ⟨j, rfl⟩ : ∃ j, k = 3 + (j + 1) := ⟨k - 4, by omega⟩
    exact OnFuse.exec_norEraseSector_cut ⟨hf, hl, hd⟩ hb ha (by omega)

end

end Sys2Proof.Machine
end
